-- ==== Sys2Proof/Word.lean ====
section
/-! DEFINITION. The words of the block: a command word of 64 bits (30_encoding.md R90), a byte of MEM
(20_memory.md R60), a binary64 pattern (00_scope.md R21). -/

namespace Sys2Proof

/-- A command word, presented to the block as one 64-bit unsigned integer (R90). -/
abbrev Word := BitVec 64

/-- A byte of `MEM` (R60). -/
abbrev Byte := BitVec 8

/-- A 64-bit binary64 pattern: sign bit 63, exponent bits 62 to 52, mantissa bits 51 to 0 (R21). -/
abbrev F64 := BitVec 64

end Sys2Proof
end

