-- ==== Sys2Proof/Config.lean ====
section
/-! DEFINITION. What a realisation fixes: the block's parameters (00_scope.md R13) and the free values
(93_implementation_defined.md I3, I7, I21). -/

namespace Sys2Proof

/-- `NREG` (R13, R30). -/
def nReg : Nat := 16

/-- `W_MAX`, the largest integer width a command can name (R11, R13; log 17). -/
def wMax : Nat := 32767

/-- `E_MAX` (R12, R13). -/
def eMax : Nat := 11

/-- `M_MAX` (R12, R13). -/
def mMax : Nat := 52

/-- `MEM_SIZE` (R13, R60). -/
def memSize : Nat := 65536

/-- `carry_policy`: what a mantissa rounding carry-out does (R13, 45_fp_pack_unpack.md R287). -/
inductive CarryPolicy
  | propagate
  | drop
deriving DecidableEq, Repr

/-- `mod_kind`: the sign convention of IMOD (R13, 41_int_arith.md R170). -/
inductive ModKind
  | floor
  | trunc
deriving DecidableEq, Repr

/-- `nan_draw`: the NaN pattern that replaces a host operation's NaN, of sign 0 or of sign 1
(R13, 46_fp_arith.md R333). -/
inductive NanDraw
  | positive
  | negative
deriving DecidableEq, Repr

/-- `HostF64`, the host's binary64 arithmetic: functions of their operands alone (10_state.md R45).
`none` is the spec's `fail` (R383). `pow` is the host's power in the one case the spec leaves open
(46_fp_arith.md R346, 93 I21); the special cases are fixed for every host (log 12). -/
structure HostF64 where
  add : F64 → F64 → F64
  sub : F64 → F64 → F64
  mul : F64 → F64 → F64
  div : F64 → F64 → F64
  neg : F64 → F64
  abs : F64 → F64
  pos : F64 → F64
  floordiv : F64 → F64 → Option F64
  mod : F64 → F64 → Option F64
  pow : F64 → F64 → F64
  lt : F64 → F64 → Bool
  eq : F64 → F64 → Bool
deriving Inhabited

/-- Which `HostF64` the block was built with: the spec's default, or any other one, by a number
(R45: "a parameter of the block"; log 8). -/
inductive HostSelect
  | reference
  | other (k : Nat)
deriving DecidableEq, Repr

/-- The configuration the block was built with (R42: fixed, no command reads or writes it). -/
structure Config where
  carryPolicy : CarryPolicy
  modKind : ModKind
  host : HostSelect
  nanDraw : NanDraw
deriving DecidableEq, Repr

/-- The defaults of R13. -/
def Config.default : Config :=
  { carryPolicy := .propagate, modKind := .floor, host := .reference, nanDraw := .positive }

/-- FREE VALUE: the reference host's `pow` where R346 and I21 leave it open (log 10). -/
opaque Config.hostPow : F64 → F64 → F64

/-- FREE VALUE: the arithmetic of host number `k`, any functions at all (R45; log 8). -/
opaque Config.otherHost : Nat → HostF64

end Sys2Proof
end

