-- ==== Sys2Proof/Syntax.lean ====
section
/-! DEFINITION. The commands of the block, one constructor per row of spec/opcode_table.json
(30_encoding.md R107). A constructor's fields are the operands of R91; `<op>Ip` is the in-place row
`<OP>.IP`, whose RD is its RS1 (R93, R108), so it names the receiver once. -/

namespace Sys2Proof

/-- A register number, R0 to R15 (10_state.md R30). -/
abbrev RegIdx := Fin 16

/-- The BO bit (20_memory.md R65). -/
inductive ByteOrder
  | big
  | little
deriving DecidableEq, Repr

/-- A command without its HOST_IN operand (10_state.md R43). `sg` is the SG bit, `w` the width W. -/
inductive Instr
  -- 40_int_construct.md
  | inew (rd : RegIdx) (sg : Bool) (w : Nat)
  | icvt (rd rs1 : RegIdx) (sg : Bool) (w : Nat)
  | iset (rd : RegIdx)
  -- 41_int_arith.md, unary
  | ineg (rd rs1 : RegIdx)
  | iabs (rd rs1 : RegIdx)
  | inot (rd rs1 : RegIdx)
  -- 41_int_arith.md and 42_int_bitwise_shift.md, binary
  | iadd (rd rs1 rs2 : RegIdx)
  | iaddIp (rs1 rs2 : RegIdx)
  | isub (rd rs1 rs2 : RegIdx)
  | isubIp (rs1 rs2 : RegIdx)
  | imul (rd rs1 rs2 : RegIdx)
  | imulIp (rs1 rs2 : RegIdx)
  | idiv (rd rs1 rs2 : RegIdx)
  | idivIp (rs1 rs2 : RegIdx)
  | ifdiv (rd rs1 rs2 : RegIdx)
  | ifdivIp (rs1 rs2 : RegIdx)
  | imod (rd rs1 rs2 : RegIdx)
  | imodIp (rs1 rs2 : RegIdx)
  | ipow (rd rs1 rs2 : RegIdx)
  | ipowIp (rs1 rs2 : RegIdx)
  | iand (rd rs1 rs2 : RegIdx)
  | iandIp (rs1 rs2 : RegIdx)
  | ior (rd rs1 rs2 : RegIdx)
  | iorIp (rs1 rs2 : RegIdx)
  | ixor (rd rs1 rs2 : RegIdx)
  | ixorIp (rs1 rs2 : RegIdx)
  | ishl (rd rs1 rs2 : RegIdx)
  | ishlIp (rs1 rs2 : RegIdx)
  | ishr (rd rs1 rs2 : RegIdx)
  | ishrIp (rs1 rs2 : RegIdx)
  -- 43_int_compare.md
  | ieq (rs1 rs2 : RegIdx)
  | ine (rs1 rs2 : RegIdx)
  | ilt (rs1 rs2 : RegIdx)
  | ile (rs1 rs2 : RegIdx)
  | igt (rs1 rs2 : RegIdx)
  | ige (rs1 rs2 : RegIdx)
  -- 44_int_bits_bytes.md
  | ibit (rs1 : RegIdx) (index : Nat)
  | islice (rd rs1 : RegIdx) (start stop : Nat)
  | iread (rs1 : RegIdx)
  | imin (rs1 : RegIdx)
  | imax (rs1 : RegIdx)
  | itob (rs1 : RegIdx) (bo : ByteOrder) (addr : Nat)
  | ifromb (rd : RegIdx) (sg : Bool) (bo : ByteOrder) (w addr : Nat)
  -- 45_fp_pack_unpack.md, construction
  | fnew (rd : RegIdx) (ew mw : Nat)
  | fset (rd : RegIdx)
  -- 46_fp_arith.md
  | fneg (rd rs1 : RegIdx)
  | fabs (rd rs1 : RegIdx)
  | fpos (rd rs1 : RegIdx)
  | fadd (rd rs1 rs2 : RegIdx)
  | faddIp (rs1 rs2 : RegIdx)
  | fsub (rd rs1 rs2 : RegIdx)
  | fsubIp (rs1 rs2 : RegIdx)
  | fmul (rd rs1 rs2 : RegIdx)
  | fmulIp (rs1 rs2 : RegIdx)
  | fdiv (rd rs1 rs2 : RegIdx)
  | fdivIp (rs1 rs2 : RegIdx)
  | ffdiv (rd rs1 rs2 : RegIdx)
  | ffdivIp (rs1 rs2 : RegIdx)
  | fmod (rd rs1 rs2 : RegIdx)
  | fmodIp (rs1 rs2 : RegIdx)
  | fpow (rd rs1 rs2 : RegIdx)
  | fpowIp (rs1 rs2 : RegIdx)
  | feq (rs1 rs2 : RegIdx)
  | fne (rs1 rs2 : RegIdx)
  | flt (rs1 rs2 : RegIdx)
  | fle (rs1 rs2 : RegIdx)
  | fgt (rs1 rs2 : RegIdx)
  | fge (rs1 rs2 : RegIdx)
  -- 45_fp_pack_unpack.md, readout and bytes
  | fread (rs1 : RegIdx)
  | ftob (rs1 : RegIdx) (bo : ByteOrder) (addr : Nat)
  | ffromb (rd : RegIdx) (bo : ByteOrder) (ew mw addr : Nat)
deriving DecidableEq, Repr

end Sys2Proof
end

