-- ==== Sys2Proof/WellFormed.lean ====
section
/-! DEFINITION. What a command word can hold: the ranges of the fields (30_encoding.md R106). A field
whose value is in range but not meaningful (W = 0, EW = 12) is well formed: its command raises
InvalidWidth when it is performed. -/

namespace Sys2Proof

/-- The X field, 15 bits: W, INDEX and START (R91, R106). -/
def fitsX (x : Nat) : Bool := decide (x < 2 ^ 15)

/-- The Y field, 16 bits: ADDR and STOP (R91, R106). -/
def fitsY (y : Nat) : Bool := decide (y < 2 ^ 16)

/-- The EW and MW fields, 4 and 6 bits (R91, R106). -/
def fitsWidths (ew mw : Nat) : Bool := decide (ew < 2 ^ 4) && decide (mw < 2 ^ 6)

/-- Every field of the command fits its place in the word (R106). Register numbers fit by their type. -/
def Instr.wf : Instr → Bool
  | .inew _ _ w => fitsX w
  | .icvt _ _ _ w => fitsX w
  | .ibit _ index => fitsX index
  | .islice _ _ start stop => fitsX start && fitsY stop
  | .itob _ _ addr => fitsY addr
  | .ifromb _ _ _ w addr => fitsX w && fitsY addr
  | .fnew _ ew mw => fitsWidths ew mw
  | .ftob _ _ addr => fitsY addr
  | .ffromb _ _ ew mw addr => fitsWidths ew mw && fitsY addr
  | .iset _ => true
  | .iread _ => true
  | .imin _ => true
  | .imax _ => true
  | .fset _ => true
  | .fread _ => true
  | .ineg _ _ => true
  | .iabs _ _ => true
  | .inot _ _ => true
  | .fneg _ _ => true
  | .fabs _ _ => true
  | .fpos _ _ => true
  | .ieq _ _ => true
  | .ine _ _ => true
  | .ilt _ _ => true
  | .ile _ _ => true
  | .igt _ _ => true
  | .ige _ _ => true
  | .feq _ _ => true
  | .fne _ _ => true
  | .flt _ _ => true
  | .fle _ _ => true
  | .fgt _ _ => true
  | .fge _ _ => true
  | .iadd _ _ _ => true
  | .iaddIp _ _ => true
  | .isub _ _ _ => true
  | .isubIp _ _ => true
  | .imul _ _ _ => true
  | .imulIp _ _ => true
  | .idiv _ _ _ => true
  | .idivIp _ _ => true
  | .ifdiv _ _ _ => true
  | .ifdivIp _ _ => true
  | .imod _ _ _ => true
  | .imodIp _ _ => true
  | .ipow _ _ _ => true
  | .ipowIp _ _ => true
  | .iand _ _ _ => true
  | .iandIp _ _ => true
  | .ior _ _ _ => true
  | .iorIp _ _ => true
  | .ixor _ _ _ => true
  | .ixorIp _ _ => true
  | .ishl _ _ _ => true
  | .ishlIp _ _ => true
  | .ishr _ _ _ => true
  | .ishrIp _ _ => true
  | .fadd _ _ _ => true
  | .faddIp _ _ => true
  | .fsub _ _ _ => true
  | .fsubIp _ _ => true
  | .fmul _ _ _ => true
  | .fmulIp _ _ => true
  | .fdiv _ _ _ => true
  | .fdivIp _ _ => true
  | .ffdiv _ _ _ => true
  | .ffdivIp _ _ => true
  | .fmod _ _ _ => true
  | .fmodIp _ _ => true
  | .fpow _ _ _ => true
  | .fpowIp _ _ => true

end Sys2Proof
end

