-- ==== Sys2Proof/Decode.lean ====
section
/-! DEFINITION. The command encoding (30_encoding.md): the fields of a word, the opcode map, the formats
and their reserved bits, the decoder and the encoder. -/

namespace Sys2Proof

/-! ## Fields (R91) -/

/-- `w[hi:lo]` (00_scope.md R15). -/
def bits (w : Word) (hi lo : Nat) : Nat := w.toNat / 2 ^ lo % 2 ^ (hi + 1 - lo)

/-- A 4-bit field as a register number (R106). -/
def regAt (w : Word) (hi lo : Nat) : RegIdx := Fin.ofNat 16 (bits w hi lo)

def fOp (w : Word) : Nat := bits w 63 56
def fRd (w : Word) : RegIdx := regAt w 55 52
def fRs1 (w : Word) : RegIdx := regAt w 51 48
def fRs2 (w : Word) : RegIdx := regAt w 47 44
def fIp (w : Word) : Bool := bits w 43 43 == 1
def fSg (w : Word) : Bool := bits w 42 42 == 1
def fBo (w : Word) : ByteOrder := if bits w 41 41 = 1 then .little else .big
def fEw (w : Word) : Nat := bits w 40 37
def fMw (w : Word) : Nat := bits w 36 31
def fX (w : Word) : Nat := bits w 30 16
def fY (w : Word) : Nat := bits w 15 0

/-! ## Formats and reserved bits (R92 to R105) -/

/-- The 13 formats. -/
inductive Format
  | R | U | C | N | X | S | B | L | Q | MS | MLI | FN | MLF
deriving DecidableEq, Repr

/-- The reserved bit ranges `[hi:lo]` of a format (R93 to R105). -/
def Format.reserved : Format → List (Nat × Nat)
  | .R => [(42, 0)]
  | .U => [(47, 0)]
  | .C => [(55, 52), (43, 0)]
  | .N => [(51, 43), (41, 31), (15, 0)]
  | .X => [(47, 43), (41, 31), (15, 0)]
  | .S => [(51, 0)]
  | .B => [(55, 52), (47, 31), (15, 0)]
  | .L => [(47, 31)]
  | .Q => [(55, 52), (47, 0)]
  | .MS => [(55, 52), (47, 42), (40, 16)]
  | .MLI => [(51, 43), (40, 31)]
  | .FN => [(51, 41), (30, 0)]
  | .MLF => [(51, 42), (30, 16)]

/-- The zero mask of a format, as the spec writes it (R93 to R105); that it is the mask of
`Format.reserved` is a law (Laws/Encoding.lean). -/
def Format.zeroMask : Format → Word
  | .R => 0x000007FFFFFFFFFF#64
  | .U => 0x0000FFFFFFFFFFFF#64
  | .C => 0x00F00FFFFFFFFFFF#64
  | .N => 0x000FFBFF8000FFFF#64
  | .X => 0x0000FBFF8000FFFF#64
  | .S => 0x000FFFFFFFFFFFFF#64
  | .B => 0x00F0FFFF8000FFFF#64
  | .L => 0x0000FFFF80000000#64
  | .Q => 0x00F0FFFFFFFFFFFF#64
  | .MS => 0x00F0FDFFFFFF0000#64
  | .MLI => 0x000FF9FF80000000#64
  | .FN => 0x000FFE007FFFFFFF#64
  | .MLF => 0x000FFC007FFF0000#64

/-- No reserved bit of the format is set (R92). -/
def Format.clear (f : Format) (w : Word) : Bool :=
  f.reserved.all fun r => bits w r.1 r.2 == 0

/-! ## The opcode map (R107) -/

/-- The 52 assigned opcodes. -/
inductive Opcode
  | inew
  | icvt
  | iset
  | ineg
  | iabs
  | inot
  | iadd
  | isub
  | imul
  | idiv
  | ifdiv
  | imod
  | ipow
  | iand
  | ior
  | ixor
  | ishl
  | ishr
  | ieq
  | ine
  | ilt
  | ile
  | igt
  | ige
  | ibit
  | islice
  | iread
  | imin
  | imax
  | itob
  | ifromb
  | fnew
  | fset
  | fneg
  | fabs
  | fpos
  | fadd
  | fsub
  | fmul
  | fdiv
  | ffdiv
  | fmod
  | fpow
  | feq
  | fne
  | flt
  | fle
  | fgt
  | fge
  | fread
  | ftob
  | ffromb
deriving DecidableEq, Repr

/-- The OP field of an opcode (R107). -/
def Opcode.number : Opcode → Nat
  | .inew => 0x01
  | .icvt => 0x02
  | .iset => 0x03
  | .ineg => 0x08
  | .iabs => 0x09
  | .inot => 0x0A
  | .iadd => 0x10
  | .isub => 0x11
  | .imul => 0x12
  | .idiv => 0x13
  | .ifdiv => 0x14
  | .imod => 0x15
  | .ipow => 0x16
  | .iand => 0x17
  | .ior => 0x18
  | .ixor => 0x19
  | .ishl => 0x1A
  | .ishr => 0x1B
  | .ieq => 0x20
  | .ine => 0x21
  | .ilt => 0x22
  | .ile => 0x23
  | .igt => 0x24
  | .ige => 0x25
  | .ibit => 0x28
  | .islice => 0x29
  | .iread => 0x2A
  | .imin => 0x2B
  | .imax => 0x2C
  | .itob => 0x30
  | .ifromb => 0x31
  | .fnew => 0x41
  | .fset => 0x43
  | .fneg => 0x48
  | .fabs => 0x49
  | .fpos => 0x4A
  | .fadd => 0x50
  | .fsub => 0x51
  | .fmul => 0x52
  | .fdiv => 0x53
  | .ffdiv => 0x54
  | .fmod => 0x55
  | .fpow => 0x56
  | .feq => 0x60
  | .fne => 0x61
  | .flt => 0x62
  | .fle => 0x63
  | .fgt => 0x64
  | .fge => 0x65
  | .fread => 0x6A
  | .ftob => 0x70
  | .ffromb => 0x71

/-- The format of an opcode (R107). -/
def Opcode.format : Opcode → Format
  | .inew => .N
  | .icvt => .X
  | .iset => .S
  | .ineg => .U
  | .iabs => .U
  | .inot => .U
  | .iadd => .R
  | .isub => .R
  | .imul => .R
  | .idiv => .R
  | .ifdiv => .R
  | .imod => .R
  | .ipow => .R
  | .iand => .R
  | .ior => .R
  | .ixor => .R
  | .ishl => .R
  | .ishr => .R
  | .ieq => .C
  | .ine => .C
  | .ilt => .C
  | .ile => .C
  | .igt => .C
  | .ige => .C
  | .ibit => .B
  | .islice => .L
  | .iread => .Q
  | .imin => .Q
  | .imax => .Q
  | .itob => .MS
  | .ifromb => .MLI
  | .fnew => .FN
  | .fset => .S
  | .fneg => .U
  | .fabs => .U
  | .fpos => .U
  | .fadd => .R
  | .fsub => .R
  | .fmul => .R
  | .fdiv => .R
  | .ffdiv => .R
  | .fmod => .R
  | .fpow => .R
  | .feq => .C
  | .fne => .C
  | .flt => .C
  | .fle => .C
  | .fgt => .C
  | .fge => .C
  | .fread => .Q
  | .ftob => .MS
  | .ffromb => .MLF

/-- The opcode of an OP field; every other value is unassigned (R107, R109). -/
def Opcode.ofNumber (n : Nat) : Option Opcode :=
  match n with
  | 0x01 => some .inew
  | 0x02 => some .icvt
  | 0x03 => some .iset
  | 0x08 => some .ineg
  | 0x09 => some .iabs
  | 0x0A => some .inot
  | 0x10 => some .iadd
  | 0x11 => some .isub
  | 0x12 => some .imul
  | 0x13 => some .idiv
  | 0x14 => some .ifdiv
  | 0x15 => some .imod
  | 0x16 => some .ipow
  | 0x17 => some .iand
  | 0x18 => some .ior
  | 0x19 => some .ixor
  | 0x1A => some .ishl
  | 0x1B => some .ishr
  | 0x20 => some .ieq
  | 0x21 => some .ine
  | 0x22 => some .ilt
  | 0x23 => some .ile
  | 0x24 => some .igt
  | 0x25 => some .ige
  | 0x28 => some .ibit
  | 0x29 => some .islice
  | 0x2A => some .iread
  | 0x2B => some .imin
  | 0x2C => some .imax
  | 0x30 => some .itob
  | 0x31 => some .ifromb
  | 0x41 => some .fnew
  | 0x43 => some .fset
  | 0x48 => some .fneg
  | 0x49 => some .fabs
  | 0x4A => some .fpos
  | 0x50 => some .fadd
  | 0x51 => some .fsub
  | 0x52 => some .fmul
  | 0x53 => some .fdiv
  | 0x54 => some .ffdiv
  | 0x55 => some .fmod
  | 0x56 => some .fpow
  | 0x60 => some .feq
  | 0x61 => some .fne
  | 0x62 => some .flt
  | 0x63 => some .fle
  | 0x64 => some .fgt
  | 0x65 => some .fge
  | 0x6A => some .fread
  | 0x70 => some .ftob
  | 0x71 => some .ffromb
  | _ => none

/-! ## Decoding (R108) -/

/-- Why a word does not decode; each raises IllegalCommand (R109, 60_exceptions.md R374). -/
inductive Reject
  /-- The OP field is not in the opcode map. -/
  | unassignedOpcode
  /-- A reserved bit of the format is set. -/
  | reservedBit
  /-- A format-R word with IP = 1 and RD ≠ RS1. -/
  | receiverMismatch
deriving DecidableEq, Repr

/-- A format-R word's row: the copying one for IP = 0, the in-place one for IP = 1 (R93). -/
def buildR (w : Word) (copy : RegIdx → RegIdx → RegIdx → Instr) (inPlace : RegIdx → RegIdx → Instr) : Instr :=
  if fIp w then inPlace (fRs1 w) (fRs2 w) else copy (fRd w) (fRs1 w) (fRs2 w)

/-- The command that an opcode and the fields of its format make. -/
def Opcode.build (w : Word) : Opcode → Instr
  | .inew => .inew (fRd w) (fSg w) (fX w)
  | .icvt => .icvt (fRd w) (fRs1 w) (fSg w) (fX w)
  | .iset => .iset (fRd w)
  | .ineg => .ineg (fRd w) (fRs1 w)
  | .iabs => .iabs (fRd w) (fRs1 w)
  | .inot => .inot (fRd w) (fRs1 w)
  | .iadd => buildR w .iadd .iaddIp
  | .isub => buildR w .isub .isubIp
  | .imul => buildR w .imul .imulIp
  | .idiv => buildR w .idiv .idivIp
  | .ifdiv => buildR w .ifdiv .ifdivIp
  | .imod => buildR w .imod .imodIp
  | .ipow => buildR w .ipow .ipowIp
  | .iand => buildR w .iand .iandIp
  | .ior => buildR w .ior .iorIp
  | .ixor => buildR w .ixor .ixorIp
  | .ishl => buildR w .ishl .ishlIp
  | .ishr => buildR w .ishr .ishrIp
  | .ieq => .ieq (fRs1 w) (fRs2 w)
  | .ine => .ine (fRs1 w) (fRs2 w)
  | .ilt => .ilt (fRs1 w) (fRs2 w)
  | .ile => .ile (fRs1 w) (fRs2 w)
  | .igt => .igt (fRs1 w) (fRs2 w)
  | .ige => .ige (fRs1 w) (fRs2 w)
  | .ibit => .ibit (fRs1 w) (fX w)
  | .islice => .islice (fRd w) (fRs1 w) (fX w) (fY w)
  | .iread => .iread (fRs1 w)
  | .imin => .imin (fRs1 w)
  | .imax => .imax (fRs1 w)
  | .itob => .itob (fRs1 w) (fBo w) (fY w)
  | .ifromb => .ifromb (fRd w) (fSg w) (fBo w) (fX w) (fY w)
  | .fnew => .fnew (fRd w) (fEw w) (fMw w)
  | .fset => .fset (fRd w)
  | .fneg => .fneg (fRd w) (fRs1 w)
  | .fabs => .fabs (fRd w) (fRs1 w)
  | .fpos => .fpos (fRd w) (fRs1 w)
  | .fadd => buildR w .fadd .faddIp
  | .fsub => buildR w .fsub .fsubIp
  | .fmul => buildR w .fmul .fmulIp
  | .fdiv => buildR w .fdiv .fdivIp
  | .ffdiv => buildR w .ffdiv .ffdivIp
  | .fmod => buildR w .fmod .fmodIp
  | .fpow => buildR w .fpow .fpowIp
  | .feq => .feq (fRs1 w) (fRs2 w)
  | .fne => .fne (fRs1 w) (fRs2 w)
  | .flt => .flt (fRs1 w) (fRs2 w)
  | .fle => .fle (fRs1 w) (fRs2 w)
  | .fgt => .fgt (fRs1 w) (fRs2 w)
  | .fge => .fge (fRs1 w) (fRs2 w)
  | .fread => .fread (fRs1 w)
  | .ftob => .ftob (fRs1 w) (fBo w) (fY w)
  | .ffromb => .ffromb (fRd w) (fBo w) (fEw w) (fMw w) (fY w)

/-- The decode procedure of R108, in its order of checks. -/
def decode (w : Word) : Except Reject Instr :=
  match Opcode.ofNumber (fOp w) with
  | none => .error .unassignedOpcode
  | some op =>
    if op.format.clear w = false then .error .reservedBit
    else if op.format = .R ∧ fIp w = true ∧ fRd w ≠ fRs1 w then .error .receiverMismatch
    else .ok (op.build w)

/-- The command read from a table word: `w` is the 64-bit word with the table's own bit numbers, and
every bit above `nbits` is 0. -/
def decodeTableWord (nbits w : Nat) : Option Instr :=
  match decode (BitVec.ofNat 64 (w % 2 ^ nbits)) with
  | .ok i => some i
  | .error _ => none

/-! ## Encoding -/

/-- The bits of a BO field (20_memory.md R65). -/
def ByteOrder.bit : ByteOrder → Nat
  | .big => 0
  | .little => 1

/-- A word from its fields at the places of R91. -/
def pack (op rd rs1 rs2 ip sg bo ew mw x y : Nat) : Word :=
  BitVec.ofNat 64 (op * 2 ^ 56 + rd * 2 ^ 52 + rs1 * 2 ^ 48 + rs2 * 2 ^ 44 + ip * 2 ^ 43 + sg * 2 ^ 42
    + bo * 2 ^ 41 + ew * 2 ^ 37 + mw * 2 ^ 31 + x * 2 ^ 16 + y)

def encR (op : Opcode) (rd rs1 rs2 : RegIdx) (ip : Bool) : Word :=
  pack op.number rd rs1 rs2 ip.toNat 0 0 0 0 0 0
def encU (op : Opcode) (rd rs1 : RegIdx) : Word := pack op.number rd rs1 0 0 0 0 0 0 0 0
def encC (op : Opcode) (rs1 rs2 : RegIdx) : Word := pack op.number 0 rs1 rs2 0 0 0 0 0 0 0
def encN (op : Opcode) (rd : RegIdx) (sg : Bool) (w : Nat) : Word :=
  pack op.number rd 0 0 0 sg.toNat 0 0 0 w 0
def encX (op : Opcode) (rd rs1 : RegIdx) (sg : Bool) (w : Nat) : Word :=
  pack op.number rd rs1 0 0 sg.toNat 0 0 0 w 0
def encS (op : Opcode) (rd : RegIdx) : Word := pack op.number rd 0 0 0 0 0 0 0 0 0
def encB (op : Opcode) (rs1 : RegIdx) (index : Nat) : Word := pack op.number 0 rs1 0 0 0 0 0 0 index 0
def encL (op : Opcode) (rd rs1 : RegIdx) (start stop : Nat) : Word :=
  pack op.number rd rs1 0 0 0 0 0 0 start stop
def encQ (op : Opcode) (rs1 : RegIdx) : Word := pack op.number 0 rs1 0 0 0 0 0 0 0 0
def encMS (op : Opcode) (rs1 : RegIdx) (bo : ByteOrder) (addr : Nat) : Word :=
  pack op.number 0 rs1 0 0 0 bo.bit 0 0 0 addr
def encMLI (op : Opcode) (rd : RegIdx) (sg : Bool) (bo : ByteOrder) (w addr : Nat) : Word :=
  pack op.number rd 0 0 0 sg.toNat bo.bit 0 0 w addr
def encFN (op : Opcode) (rd : RegIdx) (ew mw : Nat) : Word := pack op.number rd 0 0 0 0 0 ew mw 0 0
def encMLF (op : Opcode) (rd : RegIdx) (bo : ByteOrder) (ew mw addr : Nat) : Word :=
  pack op.number rd 0 0 0 0 bo.bit ew mw 0 addr

/-- The word of a command (R93 to R107). -/
def encode : Instr → Word
  | .inew rd sg w => encN .inew rd sg w
  | .icvt rd rs1 sg w => encX .icvt rd rs1 sg w
  | .iset rd => encS .iset rd
  | .ineg rd rs1 => encU .ineg rd rs1
  | .iabs rd rs1 => encU .iabs rd rs1
  | .inot rd rs1 => encU .inot rd rs1
  | .iadd rd rs1 rs2 => encR .iadd rd rs1 rs2 false
  | .iaddIp rs1 rs2 => encR .iadd rs1 rs1 rs2 true
  | .isub rd rs1 rs2 => encR .isub rd rs1 rs2 false
  | .isubIp rs1 rs2 => encR .isub rs1 rs1 rs2 true
  | .imul rd rs1 rs2 => encR .imul rd rs1 rs2 false
  | .imulIp rs1 rs2 => encR .imul rs1 rs1 rs2 true
  | .idiv rd rs1 rs2 => encR .idiv rd rs1 rs2 false
  | .idivIp rs1 rs2 => encR .idiv rs1 rs1 rs2 true
  | .ifdiv rd rs1 rs2 => encR .ifdiv rd rs1 rs2 false
  | .ifdivIp rs1 rs2 => encR .ifdiv rs1 rs1 rs2 true
  | .imod rd rs1 rs2 => encR .imod rd rs1 rs2 false
  | .imodIp rs1 rs2 => encR .imod rs1 rs1 rs2 true
  | .ipow rd rs1 rs2 => encR .ipow rd rs1 rs2 false
  | .ipowIp rs1 rs2 => encR .ipow rs1 rs1 rs2 true
  | .iand rd rs1 rs2 => encR .iand rd rs1 rs2 false
  | .iandIp rs1 rs2 => encR .iand rs1 rs1 rs2 true
  | .ior rd rs1 rs2 => encR .ior rd rs1 rs2 false
  | .iorIp rs1 rs2 => encR .ior rs1 rs1 rs2 true
  | .ixor rd rs1 rs2 => encR .ixor rd rs1 rs2 false
  | .ixorIp rs1 rs2 => encR .ixor rs1 rs1 rs2 true
  | .ishl rd rs1 rs2 => encR .ishl rd rs1 rs2 false
  | .ishlIp rs1 rs2 => encR .ishl rs1 rs1 rs2 true
  | .ishr rd rs1 rs2 => encR .ishr rd rs1 rs2 false
  | .ishrIp rs1 rs2 => encR .ishr rs1 rs1 rs2 true
  | .ieq rs1 rs2 => encC .ieq rs1 rs2
  | .ine rs1 rs2 => encC .ine rs1 rs2
  | .ilt rs1 rs2 => encC .ilt rs1 rs2
  | .ile rs1 rs2 => encC .ile rs1 rs2
  | .igt rs1 rs2 => encC .igt rs1 rs2
  | .ige rs1 rs2 => encC .ige rs1 rs2
  | .ibit rs1 index => encB .ibit rs1 index
  | .islice rd rs1 start stop => encL .islice rd rs1 start stop
  | .iread rs1 => encQ .iread rs1
  | .imin rs1 => encQ .imin rs1
  | .imax rs1 => encQ .imax rs1
  | .itob rs1 bo addr => encMS .itob rs1 bo addr
  | .ifromb rd sg bo w addr => encMLI .ifromb rd sg bo w addr
  | .fnew rd ew mw => encFN .fnew rd ew mw
  | .fset rd => encS .fset rd
  | .fneg rd rs1 => encU .fneg rd rs1
  | .fabs rd rs1 => encU .fabs rd rs1
  | .fpos rd rs1 => encU .fpos rd rs1
  | .fadd rd rs1 rs2 => encR .fadd rd rs1 rs2 false
  | .faddIp rs1 rs2 => encR .fadd rs1 rs1 rs2 true
  | .fsub rd rs1 rs2 => encR .fsub rd rs1 rs2 false
  | .fsubIp rs1 rs2 => encR .fsub rs1 rs1 rs2 true
  | .fmul rd rs1 rs2 => encR .fmul rd rs1 rs2 false
  | .fmulIp rs1 rs2 => encR .fmul rs1 rs1 rs2 true
  | .fdiv rd rs1 rs2 => encR .fdiv rd rs1 rs2 false
  | .fdivIp rs1 rs2 => encR .fdiv rs1 rs1 rs2 true
  | .ffdiv rd rs1 rs2 => encR .ffdiv rd rs1 rs2 false
  | .ffdivIp rs1 rs2 => encR .ffdiv rs1 rs1 rs2 true
  | .fmod rd rs1 rs2 => encR .fmod rd rs1 rs2 false
  | .fmodIp rs1 rs2 => encR .fmod rs1 rs1 rs2 true
  | .fpow rd rs1 rs2 => encR .fpow rd rs1 rs2 false
  | .fpowIp rs1 rs2 => encR .fpow rs1 rs1 rs2 true
  | .feq rs1 rs2 => encC .feq rs1 rs2
  | .fne rs1 rs2 => encC .fne rs1 rs2
  | .flt rs1 rs2 => encC .flt rs1 rs2
  | .fle rs1 rs2 => encC .fle rs1 rs2
  | .fgt rs1 rs2 => encC .fgt rs1 rs2
  | .fge rs1 rs2 => encC .fge rs1 rs2
  | .fread rs1 => encQ .fread rs1
  | .ftob rs1 bo addr => encMS .ftob rs1 bo addr
  | .ffromb rd bo ew mw addr => encMLF .ffromb rd bo ew mw addr

/-- The opcode of a command. -/
def Instr.opcode : Instr → Opcode
  | .inew _ _ _ => .inew
  | .icvt _ _ _ _ => .icvt
  | .iset _ => .iset
  | .ineg _ _ => .ineg
  | .iabs _ _ => .iabs
  | .inot _ _ => .inot
  | .iadd _ _ _ => .iadd
  | .iaddIp _ _ => .iadd
  | .isub _ _ _ => .isub
  | .isubIp _ _ => .isub
  | .imul _ _ _ => .imul
  | .imulIp _ _ => .imul
  | .idiv _ _ _ => .idiv
  | .idivIp _ _ => .idiv
  | .ifdiv _ _ _ => .ifdiv
  | .ifdivIp _ _ => .ifdiv
  | .imod _ _ _ => .imod
  | .imodIp _ _ => .imod
  | .ipow _ _ _ => .ipow
  | .ipowIp _ _ => .ipow
  | .iand _ _ _ => .iand
  | .iandIp _ _ => .iand
  | .ior _ _ _ => .ior
  | .iorIp _ _ => .ior
  | .ixor _ _ _ => .ixor
  | .ixorIp _ _ => .ixor
  | .ishl _ _ _ => .ishl
  | .ishlIp _ _ => .ishl
  | .ishr _ _ _ => .ishr
  | .ishrIp _ _ => .ishr
  | .ieq _ _ => .ieq
  | .ine _ _ => .ine
  | .ilt _ _ => .ilt
  | .ile _ _ => .ile
  | .igt _ _ => .igt
  | .ige _ _ => .ige
  | .ibit _ _ => .ibit
  | .islice _ _ _ _ => .islice
  | .iread _ => .iread
  | .imin _ => .imin
  | .imax _ => .imax
  | .itob _ _ _ => .itob
  | .ifromb _ _ _ _ _ => .ifromb
  | .fnew _ _ _ => .fnew
  | .fset _ => .fset
  | .fneg _ _ => .fneg
  | .fabs _ _ => .fabs
  | .fpos _ _ => .fpos
  | .fadd _ _ _ => .fadd
  | .faddIp _ _ => .fadd
  | .fsub _ _ _ => .fsub
  | .fsubIp _ _ => .fsub
  | .fmul _ _ _ => .fmul
  | .fmulIp _ _ => .fmul
  | .fdiv _ _ _ => .fdiv
  | .fdivIp _ _ => .fdiv
  | .ffdiv _ _ _ => .ffdiv
  | .ffdivIp _ _ => .ffdiv
  | .fmod _ _ _ => .fmod
  | .fmodIp _ _ => .fmod
  | .fpow _ _ _ => .fpow
  | .fpowIp _ _ => .fpow
  | .feq _ _ => .feq
  | .fne _ _ => .fne
  | .flt _ _ => .flt
  | .fle _ _ => .fle
  | .fgt _ _ => .fgt
  | .fge _ _ => .fge
  | .fread _ => .fread
  | .ftob _ _ _ => .ftob
  | .ffromb _ _ _ _ _ => .ffromb

/-! ## HOST_IN (10_state.md R43) -/

/-- What a command takes on HOST_IN: nothing, an integer, or a binary64 pattern (R43). -/
inductive HostInKind
  | none
  | integer
  | pattern
deriving DecidableEq, Repr

/-- "HOST_IN is present exactly for INEW and ISET ... and for FNEW and FSET" (R43). -/
def Instr.hostInKind : Instr → HostInKind
  | .inew _ _ _ => .integer
  | .iset _ => .integer
  | .fnew _ _ _ => .pattern
  | .fset _ => .pattern
  | .icvt _ _ _ _ => .none
  | .ibit _ _ => .none
  | .islice _ _ _ _ => .none
  | .itob _ _ _ => .none
  | .ifromb _ _ _ _ _ => .none
  | .ftob _ _ _ => .none
  | .ffromb _ _ _ _ _ => .none
  | .ineg _ _ => .none
  | .iabs _ _ => .none
  | .inot _ _ => .none
  | .iadd _ _ _ => .none
  | .iaddIp _ _ => .none
  | .isub _ _ _ => .none
  | .isubIp _ _ => .none
  | .imul _ _ _ => .none
  | .imulIp _ _ => .none
  | .idiv _ _ _ => .none
  | .idivIp _ _ => .none
  | .ifdiv _ _ _ => .none
  | .ifdivIp _ _ => .none
  | .imod _ _ _ => .none
  | .imodIp _ _ => .none
  | .ipow _ _ _ => .none
  | .ipowIp _ _ => .none
  | .iand _ _ _ => .none
  | .iandIp _ _ => .none
  | .ior _ _ _ => .none
  | .iorIp _ _ => .none
  | .ixor _ _ _ => .none
  | .ixorIp _ _ => .none
  | .ishl _ _ _ => .none
  | .ishlIp _ _ => .none
  | .ishr _ _ _ => .none
  | .ishrIp _ _ => .none
  | .ieq _ _ => .none
  | .ine _ _ => .none
  | .ilt _ _ => .none
  | .ile _ _ => .none
  | .igt _ _ => .none
  | .ige _ _ => .none
  | .iread _ => .none
  | .imin _ => .none
  | .imax _ => .none
  | .fneg _ _ => .none
  | .fabs _ _ => .none
  | .fpos _ _ => .none
  | .fadd _ _ _ => .none
  | .faddIp _ _ => .none
  | .fsub _ _ _ => .none
  | .fsubIp _ _ => .none
  | .fmul _ _ _ => .none
  | .fmulIp _ _ => .none
  | .fdiv _ _ _ => .none
  | .fdivIp _ _ => .none
  | .ffdiv _ _ _ => .none
  | .ffdivIp _ _ => .none
  | .fmod _ _ _ => .none
  | .fmodIp _ _ => .none
  | .fpow _ _ _ => .none
  | .fpowIp _ _ => .none
  | .feq _ _ => .none
  | .fne _ _ => .none
  | .flt _ _ => .none
  | .fle _ _ => .none
  | .fgt _ _ => .none
  | .fge _ _ => .none
  | .fread _ => .none

end Sys2Proof
end

