-- ==== Sys2Proof/Machine/State.lean ====
section
/-! DEFINITION. The state of the block (10_state.md), its responses (10_state.md R44, 60_exceptions.md
R372), what the host sends it (10_state.md R43, 70_reset_and_hazards.md R400), and the state after reset. -/

namespace Sys2Proof.Machine

/-- An integer container `Int(n, s, v)`: width, signedness (`true` is signed), canonical value (R18, R33). -/
structure IntC where
  n : Nat
  s : Bool
  v : Int
deriving DecidableEq, Repr

/-- A float container `Flt(e, m, sg, E, M)`: widths, sign bit, biased exponent field, mantissa field
(R18, R37). -/
structure FltC where
  e : Nat
  m : Nat
  sg : Bool
  E : Nat
  M : Nat
deriving DecidableEq, Repr

/-- What a register holds (R31). -/
inductive Reg
  | unwritten
  | int (c : IntC)
  | flt (x : FltC)
deriving DecidableEq, Repr

/-- `MEM`: the bytes that differ from what an unlisted address reads as, by rising address (R60; log 4). -/
abbrev Memory := List Host.Cell

/-- A HOST_IN operand: an integer of any magnitude or a binary64 pattern (R43). -/
inductive HostIn
  | int (x : Int)
  | f64 (b : F64)
deriving DecidableEq, Repr

/-- What the host does to the block: it issues a command `(word, host_in)` (R43), or it asserts reset,
after which `MEM` holds contents that the spec leaves open and this event names (R400, R401; log 14). -/
inductive HostEvent
  | command (word : Word) (hostIn : Option HostIn)
  | reset (contents : List Host.Cell)
deriving DecidableEq, Repr

/-- The status of a response: OK or a fault (R372). -/
inductive Status
  | ok
  | illegalCommand
  | unwritten
  | typeMismatch
  | invalidWidth
  | indexOutOfRange
  | bufferRange
  | divideByZero
  | negativeShift
  | negativeExponent
  | hostFloatFault
deriving DecidableEq, Repr

/-- A value on HOST_OUT: a boolean as a bit, an integer of any magnitude, a binary64 pattern (R44). -/
inductive Out
  | bit (b : Bool)
  | int (x : Int)
  | f64 (b : F64)
deriving DecidableEq, Repr

/-- The response `(status, out)` of a command (R44). -/
structure Response where
  status : Status
  out : Option Out
deriving DecidableEq, Repr

/-- The state of the block. -/
structure State where
  /-- The register file R0 to R15 (R30, R31). -/
  regs : Vector Reg 16
  /-- The byte buffer `MEM` (R46, R60). -/
  mem : Memory
  /-- The parameters the block was built with (R42, R48). -/
  config : Config
  /-- The host's events that the block has not taken yet, oldest first: the model's own (R43, R71; log 1). -/
  pending : List HostEvent
  /-- The HOST_IN port: the operand of the command in progress (R43, R409; log 13). -/
  hostIn : Option HostIn
  /-- The last response; none before the first command (R401). -/
  response : Option Response
deriving DecidableEq, Repr

/-- The block never stops: "The block never faults by itself" (R373), a command's fault is a status of
its response, after which the block "is ready for the next command at once" (R370). So no step ends in
a machine fault, and this type has no constructor (log 3). Nobody raises one; safe, since every claim
about a fault is then about a response. -/
inductive Fault
deriving DecidableEq, Repr

/-- Why a step has no meaning. -/
inductive Refusal
  /-- Raised by `exec` alone, for an instruction that has no meaning yet; safe. No arm raises it: every
  instruction has its meaning. -/
  | notModelled (mnemonic : String)
deriving DecidableEq, Repr

/-- The state after reset (R48, R400, R401): every register Unwritten, no response, `MEM` with nothing
listed (log 4), the parameters at the defaults of R13 (log 7), no event pending (log 1). -/
def State.reset : State :=
  { regs := Vector.replicate 16 .unwritten
    mem := []
    config := Config.default
    pending := []
    hostIn := none
    response := none }

end Sys2Proof.Machine
end

