-- ==== Sys2Proof/Machine/Ops.lean ====
section
/-! DEFINITION. The named operations over registers, memory, HOST_IN and responses: the one place where
each is read or written. -/

namespace Sys2Proof.Machine

/-- What a step or a command ends in. -/
abbrev Result := Host.Outcome State Fault Refusal

/-! ## Registers (10_state.md R30, 00_scope.md R19) -/

/-- `R[i]`. -/
def State.reg (s : State) (i : RegIdx) : Reg := s.regs.get i

/-- `R[i] <- r`. -/
def State.setReg (s : State) (i : RegIdx) (r : Reg) : State := { s with regs := s.regs.set i r }

/-! ## The byte buffer (20_memory.md R60 to R64) -/

/-- What an address that is not listed reads as (log 4): the reset event lists every byte that the
reset contents hold otherwise. -/
def memDefault (_addr : Nat) : Byte := 0#8

/-- `MEM[addr]`. -/
def memRead : Memory → Nat → Byte
  | [], a => memDefault a
  | c :: m, a => if c.1 = a then c.2 else memRead m a

/-- The cell of an address, unless the byte is what the address reads as unlisted. -/
def memCell (a : Nat) (b : Byte) (m : Memory) : Memory := if b = memDefault a then m else (a, b) :: m

/-- `MEM[addr] <- b`, in canonical form. -/
def memWrite : Memory → Nat → Byte → Memory
  | [], a, b => memCell a b []
  | c :: m, a, b =>
    if a < c.1 then memCell a b (c :: m)
    else if c.1 = a then memCell a b m
    else c :: memWrite m a b

/-- `MemRead(addr, k)` of R62, the range already checked. -/
def memReadBytes (m : Memory) (a : Nat) : Nat → List Byte
  | 0 => []
  | k + 1 => memRead m a :: memReadBytes m (a + 1) k

/-- `MemWrite(addr, k, bytes)` of R63, the range already checked. -/
def memWriteBytes (m : Memory) (a : Nat) : List Byte → Memory
  | [] => m
  | b :: bs => memWriteBytes (memWrite m a b) (a + 1) bs

/-- The range check of R64: the bytes `[addr, addr + k)` lie inside `MEM`. -/
def inRange (addr k : Nat) : Bool := decide (addr + k ≤ memSize)

/-- Addresses rise strictly from `lo` on, lie inside `MEM`, and no cell holds what its address reads as
unlisted. -/
def Memory.wfFrom (lo : Nat) : Memory → Bool
  | [] => true
  | c :: m => decide (lo ≤ c.1) && decide (c.1 < memSize) && decide (c.2 ≠ memDefault c.1)
      && Memory.wfFrom (c.1 + 1) m

/-- The canonical form of `MEM`. -/
def Memory.wf (m : Memory) : Bool := Memory.wfFrom 0 m

/-- The contents that a list of cells names, in canonical form; a cell outside `MEM` names nothing
(log 14). -/
def memOfCells : List Host.Cell → Memory
  | [] => []
  | c :: cs => if c.1 < memSize then memWrite (memOfCells cs) c.1 c.2 else memOfCells cs

/-! ## Byte order (20_memory.md R65, R68) -/

/-- `ceil(w / 8)` (R68). -/
def byteLen (w : Nat) : Nat := (w + 7) / 8

/-- The low `k` bytes of `P`, the least significant first. -/
def leBytes (P : Nat) : Nat → List Byte
  | 0 => []
  | k + 1 => BitVec.ofNat 8 P :: leBytes (P / 256) k

/-- The number whose bytes these are, the least significant first. -/
def leNat : List Byte → Nat
  | [] => 0
  | b :: bs => b.toNat + 256 * leNat bs

/-- `bytes_of(P, k, BO)` (R65). -/
def bytesOf (P k : Nat) : ByteOrder → List Byte
  | .little => leBytes P k
  | .big => (leBytes P k).reverse

/-- `integer_of(bytes, BO)` (R65). -/
def integerOf (bs : List Byte) : ByteOrder → Nat
  | .little => leNat bs
  | .big => leNat bs.reverse

/-! ## Responses and faults (10_state.md R44, 60_exceptions.md R370 to R372) -/

/-- The 4-bit code of a status (R372). -/
def Status.code : Status → BitVec 4
  | .ok => 0#4
  | .illegalCommand => 1#4
  | .unwritten => 2#4
  | .typeMismatch => 3#4
  | .invalidWidth => 4#4
  | .indexOutOfRange => 5#4
  | .bufferRange => 6#4
  | .divideByZero => 7#4
  | .negativeShift => 8#4
  | .negativeExponent => 9#4
  | .hostFloatFault => 10#4

/-- The bit a boolean is on HOST_OUT: 1 for true, 0 for false (R44). -/
def Out.bitValue : Bool → BitVec 1
  | true => 1#1
  | false => 0#1

/-- The block gives a response. -/
def State.respond (s : State) (st : Status) (out : Option Out) : State :=
  { s with response := some ⟨st, out⟩ }

/-- TAKING A FAULT, the whole of it (R370, R371, R388): the status goes into the response, `out` is
absent, no register and no byte of `MEM` changes, and the block goes on. There is no return from it
(R389). -/
def raise (s : State) (f : Status) : Result := .next (s.respond f none)

/-- A command that completes: status OK, and its value on HOST_OUT if it has one. -/
def complete (s : State) (out : Option Out) : Result := .next (s.respond .ok out)

/-! ## HOST_IN (10_state.md R43, 60_exceptions.md R374) -/

/-- The integer on HOST_IN; a command that needs one and has none is IllegalCommand (R374; a pattern
is not an integer, log 6). -/
def withHostInt (s : State) (k : Int → Result) : Result :=
  match s.hostIn with
  | some (.int x) => k x
  | some (.f64 _) => raise s .illegalCommand
  | none => raise s .illegalCommand

/-- The binary64 pattern on HOST_IN (as `withHostInt`). -/
def withHostF64 (s : State) (k : F64 → Result) : Result :=
  match s.hostIn with
  | some (.f64 b) => k b
  | some (.int _) => raise s .illegalCommand
  | none => raise s .illegalCommand

/-- The operand that a command issued without a program of the host's own is given: the values the
source's constructors default to (log 5). -/
def defaultHostIn : HostInKind → Option HostIn
  | .none => none
  | .integer => some (.int 0)
  | .pattern => some (.f64 0#64)

/-! ## Reset (70_reset_and_hazards.md R400) -/

/-- Reset, asserted between two commands: every register Unwritten, `MEM` at the contents the event
names, no response, the parameters and the host's later events as they were (R400, R401). -/
def resetTo (s : State) (contents : List Host.Cell) : State :=
  { State.reset with mem := memOfCells contents, config := s.config, pending := s.pending }

/-! ## Taking the host's events (70_reset_and_hazards.md R403) -/

/-- The host's first pending event is taken: a command's operand goes on the HOST_IN port. -/
def takeCommand (s : State) (rest : List HostEvent) (hostIn : Option HostIn) : State :=
  { s with pending := rest, hostIn := hostIn }

/-- The host issues a command ahead of its other events. -/
def State.issue (s : State) (word : Word) (hostIn : Option HostIn) : State :=
  { s with pending := .command word hostIn :: s.pending }

end Sys2Proof.Machine
end

