-- ==== Sys2Proof/Machine/Operands.lean ====
section
/-! DEFINITION. Operand forms: masking (40_int_construct.md R132), promotion and reinterpretation (R134,
R135), the operand fetches with their fault priority (00_scope.md R20, 60_exceptions.md R385), and the
shapes of the commands that read one or two registers and write one. -/

namespace Sys2Proof.Machine

/-! ## Masking (00_scope.md R17, 40_int_construct.md R132) -/

/-- `zext_n(x) = x mod 2^n` (R17). -/
def zext (n : Nat) (x : Int) : Int := x % 2 ^ n

/-- `mask(n, s, x)` (R132): `u[n-1] = 1` is `2^(n-1) ≤ u`, since `u < 2^n`. -/
def mask (n : Nat) (s : Bool) (x : Int) : Int :=
  let u := zext n x
  if s = true ∧ 2 ^ (n - 1) ≤ u then u - 2 ^ n else u

/-- `sext_n(x)` (R17). -/
def sext (n : Nat) (x : Int) : Int := mask n true x

/-- The container constructed from a raw integer (R130). -/
def mkInt (n : Nat) (s : Bool) (x : Int) : IntC := ⟨n, s, mask n s x⟩

/-- The bit pattern `zext_n(v)` of a container, an unsigned integer (10_state.md R34). -/
def IntC.pattern (a : IntC) : Nat := (zext a.n a.v).toNat

/-- `x[hi:lo]` of an unsigned integer (00_scope.md R15). -/
def slice (x hi lo : Nat) : Nat := x / 2 ^ lo % 2 ^ (hi + 1 - lo)

/-! ## Promotion (40_int_construct.md R134, R135; 41_int_arith.md R164) -/

/-- The promoted width. -/
def promN (a b : IntC) : Nat := max a.n b.n

/-- The promoted signedness. -/
def promS (a b : IntC) : Bool := a.s && b.s

/-- The left operand, reinterpreted in the promoted shape. -/
def promA (a b : IntC) : Int := mask (promN a b) (promS a b) a.v

/-- The right operand, reinterpreted in the promoted shape. -/
def promB (a b : IntC) : Int := mask (promN a b) (promS a b) b.v

/-- The exact result of an operation on reinterpreted operands, masked into the promoted shape (R136). -/
def promoted (op : Int → Int → Except Status Int) (a b : IntC) : Except Status IntC :=
  match op (promA a b) (promB a b) with
  | .ok r => .ok (mkInt (promN a b) (promS a b) r)
  | .error f => .error f

/-! ## Operand fetches (00_scope.md R20, 60_exceptions.md R385) -/

/-- `int_operand(i)`. -/
def withInt (s : State) (i : RegIdx) (k : IntC → Result) : Result :=
  match s.reg i with
  | .unwritten => raise s .unwritten
  | .flt _ => raise s .typeMismatch
  | .int a => k a

/-- `flt_operand(i)`. -/
def withFlt (s : State) (i : RegIdx) (k : FltC → Result) : Result :=
  match s.reg i with
  | .unwritten => raise s .unwritten
  | .int _ => raise s .typeMismatch
  | .flt x => k x

/-- Two integer operands: every Unwritten check before any TypeMismatch check (R385). -/
def withInt2 (s : State) (i j : RegIdx) (k : IntC → IntC → Result) : Result :=
  match s.reg i, s.reg j with
  | .unwritten, _ => raise s .unwritten
  | _, .unwritten => raise s .unwritten
  | .int a, .int b => k a b
  | _, _ => raise s .typeMismatch

/-- Two float operands (R385). -/
def withFlt2 (s : State) (i j : RegIdx) (k : FltC → FltC → Result) : Result :=
  match s.reg i, s.reg j with
  | .unwritten, _ => raise s .unwritten
  | _, .unwritten => raise s .unwritten
  | .flt a, .flt b => k a b
  | _, _ => raise s .typeMismatch

/-! ## Writing a result -/

/-- The command writes a container to `rd` and completes with no value on HOST_OUT. -/
def writeInt (s : State) (rd : RegIdx) (c : IntC) : Result := complete (s.setReg rd (.int c)) none

def writeFlt (s : State) (rd : RegIdx) (x : FltC) : Result := complete (s.setReg rd (.flt x)) none

/-! ## Integer command shapes -/

/-- A unary command: the result has the operand's shape (41_int_arith.md R160). -/
def intUnary (op : Int → Int) (rd rs1 : RegIdx) (s : State) : Result :=
  withInt s rs1 fun a => writeInt s rd (mkInt a.n a.s (op a.v))

/-- A copying form: RD gets the result of the two operands, whatever RD held (41_int_arith.md R164). -/
def intCopy (f : IntC → IntC → Except Status IntC) (rd rs1 rs2 : RegIdx) (s : State) : Result :=
  withInt2 s rs1 rs2 fun a b =>
    match f a b with
    | .ok r => writeInt s rd r
    | .error e => raise s e

/-- `inplace(op, i, j)`: the copying result's value, in the receiver's own shape (40_int_construct.md R139). -/
def intInPlace (f : IntC → IntC → Except Status IntC) (rs1 rs2 : RegIdx) (s : State) : Result :=
  withInt2 s rs1 rs2 fun a b =>
    match f a b with
    | .ok r => writeInt s rs1 (mkInt a.n a.s r.v)
    | .error e => raise s e

/-- The width check of an integer construction (40_int_construct.md R131). -/
def widthOk (w : Nat) : Bool := decide (1 ≤ w)

/-- The width check of a float construction (45_fp_pack_unpack.md R281). -/
def floatWidthsOk (e m : Nat) : Bool :=
  decide (1 ≤ e) && decide (e ≤ eMax) && decide (1 ≤ m) && decide (m ≤ mMax)

/-! ## Byte command shapes (20_memory.md R62 to R65) -/

/-- Storing a pattern of `w` bits at an address: the whole range is checked before any byte is written
(20_memory.md R63, R64). -/
def storePattern (s : State) (P w addr : Nat) (bo : ByteOrder) : Result :=
  if inRange addr (byteLen w) then
    complete { s with mem := memWriteBytes s.mem addr (bytesOf P (byteLen w) bo) } none
  else raise s .bufferRange

/-- Loading a pattern of `w` bits from an address (20_memory.md R62, R64). -/
def loadPattern (s : State) (w addr : Nat) (bo : ByteOrder) (k : Nat → Result) : Result :=
  if inRange addr (byteLen w) then k (integerOf (memReadBytes s.mem addr (byteLen w)) bo)
  else raise s .bufferRange

end Sys2Proof.Machine
end

