-- ==== Sys2Proof/Machine/HostFloat.lean ====
section
/-! DEFINITION. The host's binary64 arithmetic (10_state.md R45). The reference host is IEEE-754 binary64,
round to nearest, ties to even, with the CPython `floordiv`, `mod` and special cases of `pow` that
46_fp_arith.md R344 to R346 write out (log 9). All of it is exact arithmetic on integers, rounded once. -/

namespace Sys2Proof.Machine

/-! ## Fields and classes (00_scope.md R21) -/

def f64Sign (b : F64) : Bool := b.toNat / 2 ^ 63 % 2 == 1
def f64Exp (b : F64) : Nat := b.toNat / 2 ^ 52 % 2 ^ 11
def f64Man (b : F64) : Nat := b.toNat % 2 ^ 52

/-- The pattern without its sign. -/
def f64Mag (b : F64) : Nat := b.toNat % 2 ^ 63

def f64IsNan (b : F64) : Bool := f64Exp b == 2047 && f64Man b != 0
def f64IsInf (b : F64) : Bool := f64Exp b == 2047 && f64Man b == 0
def f64IsZero (b : F64) : Bool := f64Mag b == 0

/-- A pattern from its sign and the rest. -/
def f64OfMag (neg : Bool) (mag : Nat) : F64 := BitVec.ofNat 64 (neg.toNat * 2 ^ 63 + mag)

def f64Zero (neg : Bool) : F64 := f64OfMag neg 0
def f64Inf (neg : Bool) : F64 := f64OfMag neg (2047 * 2 ^ 52)

/-- `0x7FF8000000000000`. -/
def f64Nan : F64 := 0x7FF8000000000000#64
def f64One : F64 := 0x3FF0000000000000#64
def f64MinusOne : F64 := 0xBFF0000000000000#64
def f64Half : F64 := 0x3FE0000000000000#64

/-! ## Values -/

/-- A finite value `(-1)^neg * man * 2^exp`. -/
structure Dyadic where
  neg : Bool
  man : Nat
  exp : Int
deriving DecidableEq, Repr

/-- The value of a finite pattern (R21). -/
def f64Dyadic (b : F64) : Dyadic :=
  if f64Exp b = 0 then ⟨f64Sign b, f64Man b, -1074⟩
  else ⟨f64Sign b, 2 ^ 52 + f64Man b, (f64Exp b : Int) - 1075⟩

/-- `man * 2^(exp - e)`, signed: the value in units of `2^e`, for `e ≤ exp`. -/
def Dyadic.units (d : Dyadic) (e : Int) : Int :=
  let u : Int := d.man * 2 ^ (d.exp - e).toNat
  if d.neg then -u else u

/-! ## Rounding to nearest, ties to even (R45) -/

/-- The floor of `log2 (num / den)`, for positive arguments. -/
def log2Floor (num den : Nat) : Int :=
  let l : Int := (Nat.log2 num : Int) - Nat.log2 den
  if den * 2 ^ l.toNat ≤ num * 2 ^ (-l).toNat then l else l - 1

/-- `num / den` rounded to the nearest integer, a tie to the even one. -/
def roundDiv (num den : Nat) : Nat :=
  let q := num / den
  let r := num % den
  if den < 2 * r ∨ (2 * r = den ∧ q % 2 = 1) then q + 1 else q

/-- The unsigned pattern of the binary64 value nearest to `num / den * 2^e`: `2^u` is the unit in its
last place, and a quotient that reaches the next power of two carries into the exponent. -/
def roundMag (num den : Nat) (e : Int) : Nat :=
  if num = 0 then 0
  else
    let u : Int := max (log2Floor num den + e - 52) (-1074)
    let d : Int := e - u
    let q := roundDiv (num * 2 ^ d.toNat) (den * 2 ^ (-d).toNat)
    min (q + (u + 1074).toNat * 2 ^ 52) (2047 * 2 ^ 52)

def roundTo (neg : Bool) (num den : Nat) (e : Int) : F64 := f64OfMag neg (roundMag num den e)

/-! ## The reference host -/

/-- Flip bit 63 (R45). -/
def refNeg (x : F64) : F64 := x ^^^ 0x8000000000000000#64

/-- Clear bit 63 (R45). -/
def refAbs (x : F64) : F64 := x &&& 0x7FFFFFFFFFFFFFFF#64

/-- The identity (R45). -/
def refPos (x : F64) : F64 := x

/-- The sum of two finite values; a zero sum is `+0` unless both are negative zeros (R341). -/
def addFinite (a b : Dyadic) : F64 :=
  let e := min a.exp b.exp
  let t := a.units e + b.units e
  if t = 0 then f64Zero (a.neg && b.neg) else roundTo (decide (t < 0)) t.natAbs 1 e

/-- IEEE addition (R45). -/
def refAdd (x y : F64) : F64 :=
  if f64IsNan x || f64IsNan y then f64Nan
  else if f64IsInf x then (if f64IsInf y && (f64Sign x != f64Sign y) then f64Nan else x)
  else if f64IsInf y then y
  else addFinite (f64Dyadic x) (f64Dyadic y)

/-- IEEE subtraction (R45). -/
def refSub (x y : F64) : F64 := refAdd x (refNeg y)

/-- IEEE multiplication (R45). -/
def refMul (x y : F64) : F64 :=
  let neg := f64Sign x != f64Sign y
  if f64IsNan x || f64IsNan y then f64Nan
  else if f64IsInf x || f64IsInf y then
    (if f64IsZero x || f64IsZero y then f64Nan else f64Inf neg)
  else
    let a := f64Dyadic x
    let b := f64Dyadic y
    roundTo neg (a.man * b.man) 1 (a.exp + b.exp)

/-- IEEE division (R45). -/
def refDiv (x y : F64) : F64 :=
  let neg := f64Sign x != f64Sign y
  if f64IsNan x || f64IsNan y then f64Nan
  else if f64IsInf x then (if f64IsInf y then f64Nan else f64Inf neg)
  else if f64IsInf y then f64Zero neg
  else if f64IsZero y then (if f64IsZero x then f64Nan else f64Inf neg)
  else
    let a := f64Dyadic x
    let b := f64Dyadic y
    roundTo neg a.man b.man (a.exp - b.exp)

/-- The number whose order is that of the values, for patterns that are no NaN; the two zeros agree
(46_fp_arith.md R360). -/
def f64Key (x : F64) : Int := if f64Sign x then -(f64Mag x : Int) else f64Mag x

/-- IEEE less than: false with a NaN (R360). -/
def refLt (x y : F64) : Bool :=
  !f64IsNan x && !f64IsNan y && decide (f64Key x < f64Key y)

/-- IEEE equality: false with a NaN, `+0 = -0` (R360). -/
def refEq (x y : F64) : Bool :=
  !f64IsNan x && !f64IsNan y && decide (f64Key x = f64Key y)

/-! ## fmod, floor, copysign (46_fp_arith.md R344) -/

/-- The magnitude of `x`, the sign of `y`. -/
def copysign (x y : F64) : F64 := f64OfMag (f64Sign y) (f64Mag x)

/-- The exact remainder of truncating division, with the sign of `x` (R344). -/
def fmod (x y : F64) : F64 :=
  if f64IsNan x || f64IsNan y || f64IsInf x || f64IsZero y then f64Nan
  else if f64IsInf y then x
  else
    let a := f64Dyadic x
    let b := f64Dyadic y
    let e := min a.exp b.exp
    roundTo a.neg ((a.units e).natAbs % (b.units e).natAbs) 1 e

/-- The greatest integer that is not above `x`; a zero, an infinity and a NaN stay (R344). -/
def f64Floor (x : F64) : F64 :=
  if f64IsNan x || f64IsInf x || f64IsZero x then x
  else
    let d := f64Dyadic x
    let q := d.man / 2 ^ (-d.exp).toNat
    if 0 ≤ d.exp then x
    else if d.neg && (d.man % 2 ^ (-d.exp).toNat != 0) then roundTo d.neg (q + 1) 1 0
    else roundTo d.neg q 1 0

/-! ## floordiv and mod (46_fp_arith.md R344, R345) -/

/-- `y < 0` of the algorithms. -/
def f64Neg (y : F64) : Bool := refLt y (f64Zero false)

/-- `floordiv` (R344): `d != 0` is true of a NaN too. -/
def refFloordiv (x y : F64) : F64 :=
  let md := fmod x y
  let dv := refDiv (refSub x md) y
  let dv := if !f64IsZero md && (f64Neg y != f64Neg md) then refSub dv f64One else dv
  if f64IsZero dv then copysign (f64Zero false) (refDiv x y)
  else
    let fd := f64Floor dv
    if refLt f64Half (refSub dv fd) then refAdd fd f64One else fd

/-- `mod` (R345). -/
def refMod (x y : F64) : F64 :=
  let md := fmod x y
  if f64IsZero md then copysign (f64Zero false) y
  else if f64Neg y != f64Neg md then refAdd md y
  else md

/-- The default `HostF64` (R45), its `pow` a free value (log 10). -/
def referenceHost : HostF64 :=
  { add := refAdd
    sub := refSub
    mul := refMul
    div := refDiv
    neg := refNeg
    abs := refAbs
    pos := refPos
    floordiv := fun x y => some (refFloordiv x y)
    mod := fun x y => some (refMod x y)
    pow := Config.hostPow
    lt := refLt
    eq := refEq }

/-- The `HostF64` that a configuration selects (R45; log 8). -/
def hostOf : HostSelect → HostF64
  | .reference => referenceHost
  | .other k => Config.otherHost k

/-! ## pow: what every host's general case must give (46_fp_arith.md R346, 93 I21) -/

/-- `m * 2^e` with the same value and `m` odd, for `m ≠ 0`; `fuel` bounds the factors of two. -/
def oddPart : Nat → Nat → Int → Nat × Int
  | 0, m, e => (m, e)
  | fuel + 1, m, e => if m % 2 = 0 then oddPart fuel (m / 2) (e + 1) else (m, e)

/-- The greatest `r` with bits up to `b` above `r0` whose square is at most `m`. -/
def sqrtFrom (m : Nat) : Nat → Nat → Nat
  | 0, r => if (r + 1) * (r + 1) ≤ m then r + 1 else r
  | b + 1, r =>
    let t := r + 2 ^ (b + 1)
    sqrtFrom m b (if t * t ≤ m then t else r)

/-- The exact square root of a mantissa below `2^53`, if it is a square. -/
def exactSqrt (m : Nat) : Option Nat :=
  let r := sqrtFrom m 26 0
  if r * r = m then some r else none

/-- The exact `2^k`-th root of `m * 2^e`, `m` odd, if it is a value of that form. -/
def exactRoot : Nat → Nat → Int → Option (Nat × Int)
  | 0, m, e => some (m, e)
  | k + 1, m, e =>
    if e % 2 = 0 then
      match exactSqrt m with
      | some r => exactRoot k r (e / 2)
      | none => none
    else none

/-- `(m * 2^e)^n`, or its inverse, `m` odd: its odd mantissa and exponent, if a binary64 value can have
them. An odd `m` above 1 has no dyadic inverse, and its powers above the 53rd are too long. -/
def exactPower (m : Nat) (e : Int) (n : Nat) (inverse : Bool) : Option (Nat × Int) :=
  if m = 1 then some (1, if inverse then -(e * n) else e * n)
  else if inverse ∨ 53 < n then none
  else some (m ^ n, e * n)

/-- A binary64 value `m * 2^e`, `m` odd, as a pattern, if it is one. -/
def exactValue (m : Nat) (e : Int) : Option F64 :=
  if m < 2 ^ 53 ∧ -1074 ≤ e ∧ (Nat.log2 m : Int) + e ≤ 1023 then some (roundTo false m 1 e) else none

/-- `x^y` where it is a binary64 value, for finite `x > 0` and finite `y ≠ 0` (93 I21: "the result is
exact when x^y is a binary64 value"). -/
def exactPow (x y : F64) : Option F64 :=
  let dx := f64Dyadic x
  let dy := f64Dyadic y
  let (mx, ex) := oddPart 53 dx.man dx.exp
  let (my, ey) := oddPart 53 dy.man dy.exp
  match exactRoot (-ey).toNat mx ex with
  | none => none
  | some (r, re) =>
    match exactPower r re (my * 2 ^ ey.toNat) dy.neg with
    | none => none
    | some (m, e) => exactValue m e

/-- The digits of `log2 (f / 2^256)` after the point, for `2^256 ≤ f < 2^257`, each from squaring; every
rounding is down, so the result is a lower bound. -/
def log2Digits : Nat → Nat → Nat → Nat
  | 0, _, acc => acc
  | k + 1, f, acc =>
    let g := f * f / 2 ^ 256
    if 2 ^ 257 ≤ g then log2Digits k (g / 2) (2 * acc + 1) else log2Digits k g (2 * acc)

/-- A lower bound of `log2 (num / den) * 2^128` (log 11). -/
def log2Below (num den : Nat) : Int :=
  let l := log2Floor num den
  let f := num * 2 ^ (256 + (-l).toNat) / (den * 2 ^ l.toNat)
  l * 2 ^ 128 + log2Digits 128 f 0

/-- `x^y` is above every binary64 value, `2^1024` or more, for finite `x > 0` and finite `y ≠ 0` (R346:
"a binary64 overflow"; log 11). -/
def powOverflows (x y : F64) : Bool :=
  let dx := f64Dyadic x
  let dy := f64Dyadic y
  let num := dx.man * 2 ^ dx.exp.toNat
  let den := 2 ^ (-dx.exp).toNat
  let l := if dy.neg then log2Below den num else log2Below num den
  decide (2 ^ (138 + (-dy.exp).toNat) ≤ l * (dy.man * 2 ^ dy.exp.toNat))

/-- The host's `pow` for finite `x > 0`, `x ≠ 1` and finite `y ≠ 0`: exact where it can be, an infinity
where it must be, the free value elsewhere. -/
def generalPow (h : HostF64) (x y : F64) : F64 :=
  match exactPow x y with
  | some r => r
  | none => if powOverflows x y then f64Inf false else h.pow x y

/-! ## pow: the special cases (46_fp_arith.md R346) -/

/-- `y` is an integer, for a finite `y`. -/
def f64IsInteger (y : F64) : Bool :=
  let d := f64Dyadic y
  d.man % 2 ^ (-d.exp).toNat == 0

/-- `odd(y)`: `y` is an odd integer, for a finite `y`. -/
def f64IsOdd (y : F64) : Bool :=
  let d := f64Dyadic y
  f64IsInteger y && decide (d.exp ≤ 0) && (d.man / 2 ^ (-d.exp).toNat % 2 == 1)

/-- `y` is an infinity: `(y > 0) = (|x| > 1)` gives `+∞`, else `+0`; `|x| = 1` gives 1. -/
def powInfExp (x y : F64) : F64 :=
  if f64Mag x = f64Mag f64One then f64One
  else if f64Neg y = decide (f64Mag x < f64Mag f64One) then f64Inf false
  else f64Zero false

/-- `x` is an infinity, `y` finite and not zero. -/
def powInfBase (x y : F64) : F64 :=
  if f64Neg y then (if f64IsOdd y then copysign (f64Zero false) x else f64Zero false)
  else (if f64IsOdd y then x else f64Inf false)

/-- `x` is a zero, `y` finite and not zero; `none` is `fail`. -/
def powZeroBase (x y : F64) : Option F64 :=
  if f64Neg y then none
  else some (if f64IsOdd y then x else f64Zero false)

/-- `x` finite and positive, `y` finite and not zero; the result is negated when `neg`. -/
def powPositive (h : HostF64) (neg : Bool) (x y : F64) : Option F64 :=
  if x = f64One then some (if neg then f64MinusOne else f64One)
  else
    let r := generalPow h x y
    if f64IsInf r then none else some (if neg then refNeg r else r)

/-- `pow(x, y)` with its special cases in the spec's order (R346); `none` is `fail`. -/
def hostPower (h : HostF64) (x y : F64) : Option F64 :=
  if f64IsZero y then some f64One
  else if f64IsNan x then some x
  else if f64IsNan y then some (if x = f64One then f64One else y)
  else if f64IsInf y then some (powInfExp x y)
  else if f64IsInf x then some (powInfBase x y)
  else if f64IsZero x then powZeroBase x y
  else if f64Sign x then
    (if f64IsInteger y then powPositive h (f64IsOdd y) (refNeg x) y else none)
  else powPositive h false x y

/-! ## nan_draw (46_fp_arith.md R333) -/

/-- The pattern of `nan_draw` (R13, R333). -/
def nanPattern : NanDraw → F64
  | .positive => 0x7FF8000000000000#64
  | .negative => 0xFFF8000000000000#64

/-- "if r is a NaN then r <- nan_draw" (R331). -/
def drawNan (d : NanDraw) (r : F64) : F64 := if f64IsNan r then nanPattern d else r

end Sys2Proof.Machine
end

