-- ==== Sys2Proof/Machine/FpCodec.lean ====
section
/-! DEFINITION. Packing a binary64 pattern into a float container and unpacking it (45_fp_pack_unpack.md
R282 to R292). -/

namespace Sys2Proof.Machine

/-- `bias(e) = 2^(e-1) - 1`. -/
def bias (e : Nat) : Nat := 2 ^ (e - 1) - 1

/-- `allones(e) = 2^e - 1`. -/
def allOnes (e : Nat) : Nat := 2 ^ e - 1

/-- The exponent field of a native exponent: 0 for 0 (R283), else unbiased, clamped and re-biased (R284). -/
def encExponent (e ne : Nat) : Nat :=
  if ne = 0 then 0
  else
    let lo : Int := -((2 : Int) ^ (e - 1) - 2)
    let hi : Int := 2 ^ (e - 1)
    (min (max ((ne : Int) - 1023) lo) hi + bias e).toNat

/-- The mantissa truncated to `m` bits (R285). -/
def encTruncated (m N : Nat) : Nat := N / 2 ^ (52 - m)

/-- The bit just below the cut, 0 when there is none (R286). -/
def encRoundBit (m N : Nat) : Nat := if m < 52 then N / 2 ^ (51 - m) % 2 else 0

/-- The carry rule applied to `(E, M')` (R287). -/
def encCarry (p : CarryPolicy) (e m E M' : Nat) : Nat × Nat :=
  if M' = 2 ^ m then
    match p with
    | .propagate => if E < allOnes e then (E + 1, 0) else (E, 2 ^ m - 1)
    | .drop => (E, 0)
  else (E, M')

/-- `fenc(b, e, m)` (R288). -/
def fenc (p : CarryPolicy) (b : F64) (e m : Nat) : FltC :=
  let N := f64Man b
  let EM := encCarry p e m (encExponent e (f64Exp b)) (encTruncated m N + encRoundBit m N)
  ⟨e, m, f64Sign b, EM.1, EM.2⟩

/-- `fdec(x)` (R290, R292). -/
def fdec (x : FltC) : F64 :=
  if x.E = allOnes x.e then (if x.M = 0 then f64Inf x.sg else f64Nan)
  else if x.E = 0 ∧ x.M = 0 then f64Zero x.sg
  else if 0 < x.E then f64OfMag x.sg ((x.E + 1023 - bias x.e) * 2 ^ 52 + x.M * 2 ^ (52 - x.m))
  else if x.e = 11 then f64OfMag x.sg (x.M * 2 ^ (52 - x.m))
  else
    let p := Nat.log2 x.M
    f64OfMag x.sg ((1024 + p - bias x.e - x.m) * 2 ^ 52 + (x.M - 2 ^ p) * 2 ^ (52 - p))

/-- The total width `1 + e + m` (20_memory.md R68). -/
def FltC.width (x : FltC) : Nat := 1 + x.e + x.m

/-- The bit pattern `{sg, E, M}` (10_state.md R37). -/
def FltC.pattern (x : FltC) : Nat := x.sg.toNat * 2 ^ (x.e + x.m) + x.E * 2 ^ x.m + x.M

/-- The container whose fields are those of the low `1 + e + m` bits of `U` (R312). -/
def fltOfPattern (e m U : Nat) : FltC :=
  ⟨e, m, slice U (e + m) (e + m) == 1, slice U (e + m - 1) m, slice U (m - 1) 0⟩

end Sys2Proof.Machine
end

