-- ==== Sys2Proof/Machine/FpArith.lean ====
section
/-! DEFINITION. Float arithmetic (46_fp_arith.md R330 to R356): decode, compute with the host's binary64
arithmetic, encode once. -/

namespace Sys2Proof.Machine

/-! ## Common shapes -/

/-- The block's host arithmetic. -/
def State.host (s : State) : HostF64 := hostOf s.config.host

/-- A unary command: the operand's widths, no NaN draw (R333, R335). -/
def fltUnary (op : F64 → F64) (rd rs1 : RegIdx) (s : State) : Result :=
  withFlt s rs1 fun a => writeFlt s rd (fenc s.config.carryPolicy (op (fdec a)) a.e a.m)

/-- The value a host operation gives, a NaN replaced by `nan_draw`; its `fail` is HostFloatFault
(R331, R383). -/
def hostValue (d : NanDraw) (r : Option F64) : Except Status F64 :=
  match r with
  | some r => .ok (drawNan d r)
  | none => .error .hostFloatFault

/-- A host operation that the block does not start with a divisor of zero (R332). -/
def guardZero (d : NanDraw) (op : F64 → F64 → Option F64) (x y : F64) : Except Status F64 :=
  if f64IsZero y then .error .divideByZero else hostValue d (op x y)

/-- `float_binary(op, RD, RS1, RS2)`: the promoted widths (R330, R331). -/
def fltCopy (f : F64 → F64 → Except Status F64) (rd rs1 rs2 : RegIdx) (s : State) : Result :=
  withFlt2 s rs1 rs2 fun a b =>
    match f (fdec a) (fdec b) with
    | .ok r => writeFlt s rd (fenc s.config.carryPolicy r (max a.e b.e) (max a.m b.m))
    | .error e => raise s e

/-- `float_inplace(op, RS1, RS2)`: the receiver's widths, rounded once (R334). -/
def fltInPlace (f : F64 → F64 → Except Status F64) (rs1 rs2 : RegIdx) (s : State) : Result :=
  withFlt2 s rs1 rs2 fun a b =>
    match f (fdec a) (fdec b) with
    | .ok r => writeFlt s rs1 (fenc s.config.carryPolicy r a.e a.m)
    | .error e => raise s e

/-! ## Unary commands (R335 to R337) -/

/-- FNEG (R335). -/
def execFneg (rd rs1 : RegIdx) (s : State) : Result := fltUnary s.host.neg rd rs1 s

/-- FABS (R336). -/
def execFabs (rd rs1 : RegIdx) (s : State) : Result := fltUnary s.host.abs rd rs1 s

/-- FPOS (R337). -/
def execFpos (rd rs1 : RegIdx) (s : State) : Result := fltUnary s.host.pos rd rs1 s

/-! ## Values of the binary commands -/

/-- The value of FADD (R340). -/
def faddValue (c : Config) (x y : F64) : Except Status F64 :=
  hostValue c.nanDraw (some ((hostOf c.host).add x y))

/-- The value of FSUB (R341). -/
def fsubValue (c : Config) (x y : F64) : Except Status F64 :=
  hostValue c.nanDraw (some ((hostOf c.host).sub x y))

/-- The value of FMUL (R342). -/
def fmulValue (c : Config) (x y : F64) : Except Status F64 :=
  hostValue c.nanDraw (some ((hostOf c.host).mul x y))

/-- The value of FDIV (R343). -/
def fdivValue (c : Config) (x y : F64) : Except Status F64 :=
  guardZero c.nanDraw (fun x y => some ((hostOf c.host).div x y)) x y

/-- The value of FFDIV (R344). -/
def ffdivValue (c : Config) (x y : F64) : Except Status F64 :=
  guardZero c.nanDraw (hostOf c.host).floordiv x y

/-- The value of FMOD (R345). -/
def fmodValue (c : Config) (x y : F64) : Except Status F64 :=
  guardZero c.nanDraw (hostOf c.host).mod x y

/-- The value of FPOW (R346). -/
def fpowValue (c : Config) (x y : F64) : Except Status F64 :=
  hostValue c.nanDraw (hostPower (hostOf c.host) x y)

/-! ## Commands -/

/-- FADD (R340). -/
def execFadd (rd rs1 rs2 : RegIdx) (s : State) : Result := fltCopy (faddValue s.config) rd rs1 rs2 s

/-- FADD.IP (R350). -/
def execFaddIp (rs1 rs2 : RegIdx) (s : State) : Result := fltInPlace (faddValue s.config) rs1 rs2 s

/-- FSUB (R341). -/
def execFsub (rd rs1 rs2 : RegIdx) (s : State) : Result := fltCopy (fsubValue s.config) rd rs1 rs2 s

/-- FSUB.IP (R351). -/
def execFsubIp (rs1 rs2 : RegIdx) (s : State) : Result := fltInPlace (fsubValue s.config) rs1 rs2 s

/-- FMUL (R342). -/
def execFmul (rd rs1 rs2 : RegIdx) (s : State) : Result := fltCopy (fmulValue s.config) rd rs1 rs2 s

/-- FMUL.IP (R352). -/
def execFmulIp (rs1 rs2 : RegIdx) (s : State) : Result := fltInPlace (fmulValue s.config) rs1 rs2 s

/-- FDIV (R343). -/
def execFdiv (rd rs1 rs2 : RegIdx) (s : State) : Result := fltCopy (fdivValue s.config) rd rs1 rs2 s

/-- FDIV.IP (R353). -/
def execFdivIp (rs1 rs2 : RegIdx) (s : State) : Result := fltInPlace (fdivValue s.config) rs1 rs2 s

/-- FFDIV (R344). -/
def execFfdiv (rd rs1 rs2 : RegIdx) (s : State) : Result := fltCopy (ffdivValue s.config) rd rs1 rs2 s

/-- FFDIV.IP (R354). -/
def execFfdivIp (rs1 rs2 : RegIdx) (s : State) : Result := fltInPlace (ffdivValue s.config) rs1 rs2 s

/-- FMOD (R345). -/
def execFmod (rd rs1 rs2 : RegIdx) (s : State) : Result := fltCopy (fmodValue s.config) rd rs1 rs2 s

/-- FMOD.IP (R355). -/
def execFmodIp (rs1 rs2 : RegIdx) (s : State) : Result := fltInPlace (fmodValue s.config) rs1 rs2 s

/-- FPOW (R346). -/
def execFpow (rd rs1 rs2 : RegIdx) (s : State) : Result := fltCopy (fpowValue s.config) rd rs1 rs2 s

/-- FPOW.IP (R356). -/
def execFpowIp (rs1 rs2 : RegIdx) (s : State) : Result := fltInPlace (fpowValue s.config) rs1 rs2 s

end Sys2Proof.Machine
end

