-- ==== Sys2Proof/Machine/Flags.lean ====
section
/-! DEFINITION. The block has no flags (10_state.md R40): a comparison's boolean goes to HOST_OUT and
nothing else (R44). This file holds what stands where other machines have flag rules: the relations of
the comparison commands and the one way a boolean is delivered. -/

namespace Sys2Proof.Machine

/-- A boolean on HOST_OUT: no register, no byte and no flag is written (R40, R44). -/
def deliver (s : State) (b : Bool) : Result := complete s (some (.bit b))

/-- An integer comparison in the promoted domain (43_int_compare.md R230). -/
def intCompare (rel : Int → Int → Bool) (rs1 rs2 : RegIdx) (s : State) : Result :=
  withInt2 s rs1 rs2 fun a b => deliver s (rel (promA a b) (promB a b))

def relEq (A B : Int) : Bool := decide (A = B)
def relNe (A B : Int) : Bool := decide (A ≠ B)
def relLt (A B : Int) : Bool := decide (A < B)
def relLe (A B : Int) : Bool := decide (A ≤ B)
def relGt (A B : Int) : Bool := decide (A > B)
def relGe (A B : Int) : Bool := decide (A ≥ B)

end Sys2Proof.Machine
end

