-- ==== Sys2Proof/Machine/FpCompare.lean ====
section
/-! DEFINITION. Float comparisons (46_fp_arith.md R360 to R366): the decoded binary64 values are compared
by the host; nothing is re-encoded. -/

namespace Sys2Proof.Machine

/-- A float comparison (R360). -/
def fltCompare (rel : F64 → F64 → Bool) (rs1 rs2 : RegIdx) (s : State) : Result :=
  withFlt2 s rs1 rs2 fun a b => deliver s (rel (fdec a) (fdec b))

/-- FEQ (R361). -/
def execFeq (rs1 rs2 : RegIdx) (s : State) : Result := fltCompare (fun x y => s.host.eq x y) rs1 rs2 s

/-- FNE (R362). -/
def execFne (rs1 rs2 : RegIdx) (s : State) : Result := fltCompare (fun x y => !s.host.eq x y) rs1 rs2 s

/-- FLT (R363). -/
def execFlt (rs1 rs2 : RegIdx) (s : State) : Result := fltCompare (fun x y => s.host.lt x y) rs1 rs2 s

/-- FLE (R364). -/
def execFle (rs1 rs2 : RegIdx) (s : State) : Result := fltCompare (fun x y => s.host.lt x y || s.host.eq x y) rs1 rs2 s

/-- FGT (R365). -/
def execFgt (rs1 rs2 : RegIdx) (s : State) : Result := fltCompare (fun x y => s.host.lt y x) rs1 rs2 s

/-- FGE (R366). -/
def execFge (rs1 rs2 : RegIdx) (s : State) : Result := fltCompare (fun x y => s.host.lt y x || s.host.eq x y) rs1 rs2 s

end Sys2Proof.Machine
end

