-- ==== Sys2Proof/Machine/FpConstruct.lean ====
section
/-! DEFINITION. Float construction, readout and bytes: FNEW, FSET, FREAD, FTOB, FFROMB
(45_fp_pack_unpack.md R300 to R312). -/

namespace Sys2Proof.Machine

/-- FNEW (R300). -/
def execFnew (rd : RegIdx) (ew mw : Nat) (s : State) : Result :=
  withHostF64 s fun b =>
    if floatWidthsOk ew mw then writeFlt s rd (fenc s.config.carryPolicy b ew mw) else raise s .invalidWidth

/-- FSET (R302). -/
def execFset (rd : RegIdx) (s : State) : Result :=
  withHostF64 s fun b =>
    withFlt s rd fun x => writeFlt s rd (fenc s.config.carryPolicy b x.e x.m)

/-- FREAD (R305). -/
def execFread (rs1 : RegIdx) (s : State) : Result :=
  withFlt s rs1 fun x => complete s (some (.f64 (fdec x)))

/-- FTOB (R310). -/
def execFtob (rs1 : RegIdx) (bo : ByteOrder) (addr : Nat) (s : State) : Result :=
  withFlt s rs1 fun x => storePattern s x.pattern x.width addr bo

/-- FFROMB (R312). -/
def execFfromb (rd : RegIdx) (bo : ByteOrder) (ew mw addr : Nat) (s : State) : Result :=
  if floatWidthsOk ew mw then
    loadPattern s (1 + ew + mw) addr bo fun U => writeFlt s rd (fltOfPattern ew mw U)
  else raise s .invalidWidth

end Sys2Proof.Machine
end

