-- ==== Sys2Proof/Machine/IntArith.lean ====
section
/-! DEFINITION. Integer arithmetic (41_int_arith.md). Each binary command has its copying result, from
which the copying and the in-place form are made (R164, 40_int_construct.md R139). -/

namespace Sys2Proof.Machine

/-! ## Unary (R161 to R163) -/

/-- INEG (R161). -/
def execIneg (rd rs1 : RegIdx) (s : State) : Result := intUnary (fun v => -v) rd rs1 s

/-- IABS (R162). -/
def execIabs (rd rs1 : RegIdx) (s : State) : Result := intUnary (fun v => (v.natAbs : Int)) rd rs1 s

/-- INOT (R163): `~x = -x - 1`. -/
def execInot (rd rs1 : RegIdx) (s : State) : Result := intUnary (fun v => -v - 1) rd rs1 s

/-! ## Operators on integers (00_scope.md R16) -/

/-- `tdiv(a, b)`: the quotient rounded toward zero (R16). -/
def truncDiv (a b : Int) : Int := a.tdiv b

/-- `a // b`: the quotient rounded toward minus infinity (R16). -/
def floorDiv (a b : Int) : Int := a.fdiv b

/-- The remainder of each convention (R16, R170). -/
def modBy : ModKind → Int → Int → Int
  | .floor, a, b => a - b * floorDiv a b
  | .trunc, a, b => a - b * truncDiv a b

/-- `b^k mod m`, by squaring; `fuel` bounds the binary digits of `k`. -/
def powMod (m : Nat) : Nat → Nat → Nat → Nat
  | 0, _, _ => 1 % m
  | fuel + 1, b, k =>
    if k = 0 then 1 % m
    else
      let h := powMod m fuel (b * b % m) (k / 2)
      if k % 2 = 1 then h * b % m else h

/-- A number congruent to `A^k` modulo `2^n`: all of the exact power that the final mask keeps
(R171, 40_int_construct.md R133; log 15). -/
def powMasked (n : Nat) (A : Int) (k : Nat) : Int :=
  powMod (2 ^ n) (Nat.log2 k + 1) (zext n A).toNat k

/-- An operation that is undefined for a divisor of 0 (60_exceptions.md R380). -/
def guardDivisor (op : Int → Int → Int) (A B : Int) : Except Status Int :=
  if B = 0 then .error .divideByZero else .ok (op A B)

/-! ## Copying results -/

/-- The result of IADD (R165). -/
def iaddResult (a b : IntC) : Except Status IntC := promoted (fun A B => .ok (A + B)) a b

/-- The result of ISUB (R166). -/
def isubResult (a b : IntC) : Except Status IntC := promoted (fun A B => .ok (A - B)) a b

/-- The result of IMUL (R167). -/
def imulResult (a b : IntC) : Except Status IntC := promoted (fun A B => .ok (A * B)) a b

/-- The result of IDIV (R168). -/
def idivResult (a b : IntC) : Except Status IntC := promoted (guardDivisor truncDiv) a b

/-- The result of IFDIV (R169). -/
def ifdivResult (a b : IntC) : Except Status IntC := promoted (guardDivisor floorDiv) a b

/-- The result of IMOD, by the block's `mod_kind` (R170). -/
def imodResult (k : ModKind) (a b : IntC) : Except Status IntC := promoted (guardDivisor (modBy k)) a b

/-- The result of IPOW (R171). -/
def ipowResult (a b : IntC) : Except Status IntC :=
  promoted (fun A B => if B < 0 then .error .negativeExponent else .ok (powMasked (promN a b) A B.toNat)) a b

/-! ## Commands -/

/-- IADD (R165). -/
def execIadd (rd rs1 rs2 : RegIdx) (s : State) : Result := intCopy iaddResult rd rs1 rs2 s

/-- IADD.IP (R180). -/
def execIaddIp (rs1 rs2 : RegIdx) (s : State) : Result := intInPlace iaddResult rs1 rs2 s

/-- ISUB (R166). -/
def execIsub (rd rs1 rs2 : RegIdx) (s : State) : Result := intCopy isubResult rd rs1 rs2 s

/-- ISUB.IP (R181). -/
def execIsubIp (rs1 rs2 : RegIdx) (s : State) : Result := intInPlace isubResult rs1 rs2 s

/-- IMUL (R167). -/
def execImul (rd rs1 rs2 : RegIdx) (s : State) : Result := intCopy imulResult rd rs1 rs2 s

/-- IMUL.IP (R182). -/
def execImulIp (rs1 rs2 : RegIdx) (s : State) : Result := intInPlace imulResult rs1 rs2 s

/-- IDIV (R168). -/
def execIdiv (rd rs1 rs2 : RegIdx) (s : State) : Result := intCopy idivResult rd rs1 rs2 s

/-- IDIV.IP (R183). -/
def execIdivIp (rs1 rs2 : RegIdx) (s : State) : Result := intInPlace idivResult rs1 rs2 s

/-- IFDIV (R169). -/
def execIfdiv (rd rs1 rs2 : RegIdx) (s : State) : Result := intCopy ifdivResult rd rs1 rs2 s

/-- IFDIV.IP (R184). -/
def execIfdivIp (rs1 rs2 : RegIdx) (s : State) : Result := intInPlace ifdivResult rs1 rs2 s

/-- IMOD (R170). -/
def execImod (rd rs1 rs2 : RegIdx) (s : State) : Result := intCopy (imodResult s.config.modKind) rd rs1 rs2 s

/-- IMOD.IP (R185). -/
def execImodIp (rs1 rs2 : RegIdx) (s : State) : Result := intInPlace (imodResult s.config.modKind) rs1 rs2 s

/-- IPOW (R171). -/
def execIpow (rd rs1 rs2 : RegIdx) (s : State) : Result := intCopy ipowResult rd rs1 rs2 s

/-- IPOW.IP (R186). -/
def execIpowIp (rs1 rs2 : RegIdx) (s : State) : Result := intInPlace ipowResult rs1 rs2 s

end Sys2Proof.Machine
end

