-- ==== Sys2Proof/Machine/IntBits.lean ====
section
/-! DEFINITION. Integer bit access, readouts and byte serialization (44_int_bits_bytes.md). -/

namespace Sys2Proof.Machine

/-! ## Bit access -/

/-- IBIT (R250). -/
def execIbit (rs1 : RegIdx) (index : Nat) (s : State) : Result :=
  withInt s rs1 fun a =>
    if index < a.n then deliver s (slice a.pattern index index == 1) else raise s .indexOutOfRange

/-- ISLICE (R252). -/
def execIslice (rd rs1 : RegIdx) (start stop : Nat) (s : State) : Result :=
  withInt s rs1 fun a =>
    if start < stop ∧ stop ≤ a.n then
      writeInt s rd ⟨stop - start, false, slice a.pattern (stop - 1) start⟩
    else raise s .indexOutOfRange

/-! ## Readouts -/

/-- `min()` of a shape (R264). -/
def shapeMin (n : Nat) (s : Bool) : Int := if s then -(2 ^ (n - 1)) else 0

/-- `max()` of a shape (R265). -/
def shapeMax (n : Nat) (s : Bool) : Int := 2 ^ (n - s.toNat) - 1

/-- IREAD (R262). -/
def execIread (rs1 : RegIdx) (s : State) : Result :=
  withInt s rs1 fun a => complete s (some (.int a.v))

/-- IMIN (R264). -/
def execImin (rs1 : RegIdx) (s : State) : Result :=
  withInt s rs1 fun a => complete s (some (.int (shapeMin a.n a.s)))

/-- IMAX (R265). -/
def execImax (rs1 : RegIdx) (s : State) : Result :=
  withInt s rs1 fun a => complete s (some (.int (shapeMax a.n a.s)))

/-! ## Bytes -/

/-- ITOB (R270). -/
def execItob (rs1 : RegIdx) (bo : ByteOrder) (addr : Nat) (s : State) : Result :=
  withInt s rs1 fun a => storePattern s a.pattern a.n addr bo

/-- IFROMB (R272). -/
def execIfromb (rd : RegIdx) (sg : Bool) (bo : ByteOrder) (w addr : Nat) (s : State) : Result :=
  if widthOk w then loadPattern s w addr bo fun U => writeInt s rd (mkInt w sg U)
  else raise s .invalidWidth

end Sys2Proof.Machine
end

