-- ==== Sys2Proof/Machine/IntBitwise.lean ====
section
/-! DEFINITION. Integer bitwise operations and shifts (42_int_bitwise_shift.md). -/

namespace Sys2Proof.Machine

/-! ## Bitwise operators on the infinite two's-complement forms (00_scope.md R16)

A negative integer is `negSucc m = -m - 1 = ~m`, whose bits are those of `m` inverted. `m - (m &&& n)` is
`m` without the bits of `n`. -/

/-- `a & b` (R16). -/
def intAnd : Int → Int → Int
  | .ofNat m, .ofNat n => .ofNat (m &&& n)
  | .ofNat m, .negSucc n => .ofNat (m - (m &&& n))
  | .negSucc m, .ofNat n => .ofNat (n - (n &&& m))
  | .negSucc m, .negSucc n => .negSucc (m ||| n)

/-- `a | b` (R16). -/
def intOr : Int → Int → Int
  | .ofNat m, .ofNat n => .ofNat (m ||| n)
  | .ofNat m, .negSucc n => .negSucc (n - (n &&& m))
  | .negSucc m, .ofNat n => .negSucc (m - (m &&& n))
  | .negSucc m, .negSucc n => .negSucc (m &&& n)

/-- `a ^ b`, exclusive or (R16). -/
def intXor : Int → Int → Int
  | .ofNat m, .ofNat n => .ofNat (m ^^^ n)
  | .ofNat m, .negSucc n => .negSucc (m ^^^ n)
  | .negSucc m, .ofNat n => .negSucc (m ^^^ n)
  | .negSucc m, .negSucc n => .ofNat (m ^^^ n)

/-! ## Shifts (R203 to R206)

The amount is a plain integer, of any size; `k` and a bounded amount give the same result (R205, R206;
log 15). -/

/-- `v << k` up to a multiple of `2^n`: "a model may compute with min(k, a.n)" (R205). -/
def shiftLeft (n : Nat) (v : Int) (k : Nat) : Int := v * 2 ^ min k n

/-- `v >> k`, the floor of `v / 2^k` (R206): past the digits of `v` the result stays 0 or -1. -/
def shiftRight (v : Int) (k : Nat) : Int := v / 2 ^ min k (Nat.log2 v.natAbs + 1)

/-! ## Copying results -/

/-- The result of IAND (R200). -/
def iandResult (a b : IntC) : Except Status IntC := promoted (fun A B => .ok (intAnd A B)) a b

/-- The result of IOR (R201). -/
def iorResult (a b : IntC) : Except Status IntC := promoted (fun A B => .ok (intOr A B)) a b

/-- The result of IXOR (R202). -/
def ixorResult (a b : IntC) : Except Status IntC := promoted (fun A B => .ok (intXor A B)) a b

/-- The result of ISHL: the left operand's shape, its value not reinterpreted (R204, R205). -/
def ishlResult (a c : IntC) : Except Status IntC :=
  if c.v < 0 then .error .negativeShift else .ok (mkInt a.n a.s (shiftLeft a.n a.v c.v.toNat))

/-- The result of ISHR (R204, R206). -/
def ishrResult (a c : IntC) : Except Status IntC :=
  if c.v < 0 then .error .negativeShift else .ok (mkInt a.n a.s (shiftRight a.v c.v.toNat))

/-! ## Commands -/

/-- IAND (R200). -/
def execIand (rd rs1 rs2 : RegIdx) (s : State) : Result := intCopy iandResult rd rs1 rs2 s

/-- IAND.IP (R210). -/
def execIandIp (rs1 rs2 : RegIdx) (s : State) : Result := intInPlace iandResult rs1 rs2 s

/-- IOR (R201). -/
def execIor (rd rs1 rs2 : RegIdx) (s : State) : Result := intCopy iorResult rd rs1 rs2 s

/-- IOR.IP (R211). -/
def execIorIp (rs1 rs2 : RegIdx) (s : State) : Result := intInPlace iorResult rs1 rs2 s

/-- IXOR (R202). -/
def execIxor (rd rs1 rs2 : RegIdx) (s : State) : Result := intCopy ixorResult rd rs1 rs2 s

/-- IXOR.IP (R212). -/
def execIxorIp (rs1 rs2 : RegIdx) (s : State) : Result := intInPlace ixorResult rs1 rs2 s

/-- ISHL (R205). -/
def execIshl (rd rs1 rs2 : RegIdx) (s : State) : Result := intCopy ishlResult rd rs1 rs2 s

/-- ISHL.IP (R213). -/
def execIshlIp (rs1 rs2 : RegIdx) (s : State) : Result := intInPlace ishlResult rs1 rs2 s

/-- ISHR (R206). -/
def execIshr (rd rs1 rs2 : RegIdx) (s : State) : Result := intCopy ishrResult rd rs1 rs2 s

/-- ISHR.IP (R214). -/
def execIshrIp (rs1 rs2 : RegIdx) (s : State) : Result := intInPlace ishrResult rs1 rs2 s

end Sys2Proof.Machine
end

