-- ==== Sys2Proof/Machine/IntCompare.lean ====
section
/-! DEFINITION. Integer comparisons (43_int_compare.md R231 to R236). -/

namespace Sys2Proof.Machine

/-- IEQ (R231). -/
def execIeq (rs1 rs2 : RegIdx) (s : State) : Result := intCompare relEq rs1 rs2 s

/-- INE (R232). -/
def execIne (rs1 rs2 : RegIdx) (s : State) : Result := intCompare relNe rs1 rs2 s

/-- ILT (R233). -/
def execIlt (rs1 rs2 : RegIdx) (s : State) : Result := intCompare relLt rs1 rs2 s

/-- ILE (R234). -/
def execIle (rs1 rs2 : RegIdx) (s : State) : Result := intCompare relLe rs1 rs2 s

/-- IGT (R235). -/
def execIgt (rs1 rs2 : RegIdx) (s : State) : Result := intCompare relGt rs1 rs2 s

/-- IGE (R236). -/
def execIge (rs1 rs2 : RegIdx) (s : State) : Result := intCompare relGe rs1 rs2 s

end Sys2Proof.Machine
end

