-- ==== Sys2Proof/Machine/IntConstruct.lean ====
section
/-! DEFINITION. Integer construction: INEW, ICVT, ISET (40_int_construct.md R140 to R142). -/

namespace Sys2Proof.Machine

/-- INEW (R140). -/
def execInew (rd : RegIdx) (sg : Bool) (w : Nat) (s : State) : Result :=
  withHostInt s fun x =>
    if widthOk w then writeInt s rd (mkInt w sg x) else raise s .invalidWidth

/-- ICVT (R141). -/
def execIcvt (rd rs1 : RegIdx) (sg : Bool) (w : Nat) (s : State) : Result :=
  withInt s rs1 fun c =>
    if widthOk w then writeInt s rd (mkInt w sg c.v) else raise s .invalidWidth

/-- ISET (R142). -/
def execIset (rd : RegIdx) (s : State) : Result :=
  withHostInt s fun x => withInt s rd fun c => writeInt s rd (mkInt c.n c.s x)

end Sys2Proof.Machine
end

