-- ==== Sys2Proof/Machine/Dispatch.lean ====
section
/-! DEFINITION. One arm per command, each a call of its meaning. -/

namespace Sys2Proof.Machine

def exec (i : Instr) (s : State) : Host.Outcome State Fault Refusal :=
  match i with
  | .inew rd sg w => Sys2Proof.Machine.execInew rd sg w s
  | .icvt rd rs1 sg w => Sys2Proof.Machine.execIcvt rd rs1 sg w s
  | .iset rd => Sys2Proof.Machine.execIset rd s
  | .ineg rd rs1 => Sys2Proof.Machine.execIneg rd rs1 s
  | .iabs rd rs1 => Sys2Proof.Machine.execIabs rd rs1 s
  | .inot rd rs1 => Sys2Proof.Machine.execInot rd rs1 s
  | .iadd rd rs1 rs2 => Sys2Proof.Machine.execIadd rd rs1 rs2 s
  | .iaddIp rs1 rs2 => Sys2Proof.Machine.execIaddIp rs1 rs2 s
  | .isub rd rs1 rs2 => Sys2Proof.Machine.execIsub rd rs1 rs2 s
  | .isubIp rs1 rs2 => Sys2Proof.Machine.execIsubIp rs1 rs2 s
  | .imul rd rs1 rs2 => Sys2Proof.Machine.execImul rd rs1 rs2 s
  | .imulIp rs1 rs2 => Sys2Proof.Machine.execImulIp rs1 rs2 s
  | .idiv rd rs1 rs2 => Sys2Proof.Machine.execIdiv rd rs1 rs2 s
  | .idivIp rs1 rs2 => Sys2Proof.Machine.execIdivIp rs1 rs2 s
  | .ifdiv rd rs1 rs2 => Sys2Proof.Machine.execIfdiv rd rs1 rs2 s
  | .ifdivIp rs1 rs2 => Sys2Proof.Machine.execIfdivIp rs1 rs2 s
  | .imod rd rs1 rs2 => Sys2Proof.Machine.execImod rd rs1 rs2 s
  | .imodIp rs1 rs2 => Sys2Proof.Machine.execImodIp rs1 rs2 s
  | .ipow rd rs1 rs2 => Sys2Proof.Machine.execIpow rd rs1 rs2 s
  | .ipowIp rs1 rs2 => Sys2Proof.Machine.execIpowIp rs1 rs2 s
  | .iand rd rs1 rs2 => Sys2Proof.Machine.execIand rd rs1 rs2 s
  | .iandIp rs1 rs2 => Sys2Proof.Machine.execIandIp rs1 rs2 s
  | .ior rd rs1 rs2 => Sys2Proof.Machine.execIor rd rs1 rs2 s
  | .iorIp rs1 rs2 => Sys2Proof.Machine.execIorIp rs1 rs2 s
  | .ixor rd rs1 rs2 => Sys2Proof.Machine.execIxor rd rs1 rs2 s
  | .ixorIp rs1 rs2 => Sys2Proof.Machine.execIxorIp rs1 rs2 s
  | .ishl rd rs1 rs2 => Sys2Proof.Machine.execIshl rd rs1 rs2 s
  | .ishlIp rs1 rs2 => Sys2Proof.Machine.execIshlIp rs1 rs2 s
  | .ishr rd rs1 rs2 => Sys2Proof.Machine.execIshr rd rs1 rs2 s
  | .ishrIp rs1 rs2 => Sys2Proof.Machine.execIshrIp rs1 rs2 s
  | .ieq rs1 rs2 => Sys2Proof.Machine.execIeq rs1 rs2 s
  | .ine rs1 rs2 => Sys2Proof.Machine.execIne rs1 rs2 s
  | .ilt rs1 rs2 => Sys2Proof.Machine.execIlt rs1 rs2 s
  | .ile rs1 rs2 => Sys2Proof.Machine.execIle rs1 rs2 s
  | .igt rs1 rs2 => Sys2Proof.Machine.execIgt rs1 rs2 s
  | .ige rs1 rs2 => Sys2Proof.Machine.execIge rs1 rs2 s
  | .ibit rs1 index => Sys2Proof.Machine.execIbit rs1 index s
  | .islice rd rs1 start stop => Sys2Proof.Machine.execIslice rd rs1 start stop s
  | .iread rs1 => Sys2Proof.Machine.execIread rs1 s
  | .imin rs1 => Sys2Proof.Machine.execImin rs1 s
  | .imax rs1 => Sys2Proof.Machine.execImax rs1 s
  | .itob rs1 bo addr => Sys2Proof.Machine.execItob rs1 bo addr s
  | .ifromb rd sg bo w addr => Sys2Proof.Machine.execIfromb rd sg bo w addr s
  | .fnew rd ew mw => Sys2Proof.Machine.execFnew rd ew mw s
  | .fset rd => Sys2Proof.Machine.execFset rd s
  | .fneg rd rs1 => Sys2Proof.Machine.execFneg rd rs1 s
  | .fabs rd rs1 => Sys2Proof.Machine.execFabs rd rs1 s
  | .fpos rd rs1 => Sys2Proof.Machine.execFpos rd rs1 s
  | .fadd rd rs1 rs2 => Sys2Proof.Machine.execFadd rd rs1 rs2 s
  | .faddIp rs1 rs2 => Sys2Proof.Machine.execFaddIp rs1 rs2 s
  | .fsub rd rs1 rs2 => Sys2Proof.Machine.execFsub rd rs1 rs2 s
  | .fsubIp rs1 rs2 => Sys2Proof.Machine.execFsubIp rs1 rs2 s
  | .fmul rd rs1 rs2 => Sys2Proof.Machine.execFmul rd rs1 rs2 s
  | .fmulIp rs1 rs2 => Sys2Proof.Machine.execFmulIp rs1 rs2 s
  | .fdiv rd rs1 rs2 => Sys2Proof.Machine.execFdiv rd rs1 rs2 s
  | .fdivIp rs1 rs2 => Sys2Proof.Machine.execFdivIp rs1 rs2 s
  | .ffdiv rd rs1 rs2 => Sys2Proof.Machine.execFfdiv rd rs1 rs2 s
  | .ffdivIp rs1 rs2 => Sys2Proof.Machine.execFfdivIp rs1 rs2 s
  | .fmod rd rs1 rs2 => Sys2Proof.Machine.execFmod rd rs1 rs2 s
  | .fmodIp rs1 rs2 => Sys2Proof.Machine.execFmodIp rs1 rs2 s
  | .fpow rd rs1 rs2 => Sys2Proof.Machine.execFpow rd rs1 rs2 s
  | .fpowIp rs1 rs2 => Sys2Proof.Machine.execFpowIp rs1 rs2 s
  | .feq rs1 rs2 => Sys2Proof.Machine.execFeq rs1 rs2 s
  | .fne rs1 rs2 => Sys2Proof.Machine.execFne rs1 rs2 s
  | .flt rs1 rs2 => Sys2Proof.Machine.execFlt rs1 rs2 s
  | .fle rs1 rs2 => Sys2Proof.Machine.execFle rs1 rs2 s
  | .fgt rs1 rs2 => Sys2Proof.Machine.execFgt rs1 rs2 s
  | .fge rs1 rs2 => Sys2Proof.Machine.execFge rs1 rs2 s
  | .fread rs1 => Sys2Proof.Machine.execFread rs1 s
  | .ftob rs1 bo addr => Sys2Proof.Machine.execFtob rs1 bo addr s
  | .ffromb rd bo ew mw addr => Sys2Proof.Machine.execFfromb rd bo ew mw addr s

end Sys2Proof.Machine
end

