-- ==== Sys2Proof/Machine/Step.lean ====
section
/-! DEFINITION. One step of the block: it takes the host's oldest pending event and performs it whole
(70_reset_and_hazards.md R403). -/

namespace Sys2Proof.Machine

/-- One step. With nothing pending the block waits and "holds its state unchanged" (60_exceptions.md
R397; log 2). A reset is R400. A command goes on the port, is decoded "before any operand is read"
(30_encoding.md R108), and is performed; a word that does not decode raises IllegalCommand (R374). -/
def step (s : State) : Host.Outcome State Fault Refusal :=
  match s.pending with
  | [] => .next s
  | .reset contents :: rest => .next (resetTo { s with pending := rest } contents)
  | .command word hostIn :: rest =>
    match decode word with
    | .ok i => exec i (takeCommand s rest hostIn)
    | .error _ => raise (takeCommand s rest hostIn) .illegalCommand

/-- The host issues the table word as its next command, ahead of any other event, with the operand that
the command needs on HOST_IN (log 5). -/
def State.withFetchWord (s : State) (nbits w : Nat) : State :=
  s.issue (BitVec.ofNat 64 (w % 2 ^ nbits))
    (match decodeTableWord nbits w with
      | some i => defaultHostIn i.hostInKind
      | none => none)

end Sys2Proof.Machine
end

