-- ==== Sys2Proof/Safety.lean ====
section
/-! DEFINITION. What counts as a safe run, and the terms the claims use: the invariant of every state a
run reaches (10_state.md R33, R37; 20_memory.md R60), what a command does and leaves alone (60_exceptions.md
R371), and the real values that patterns and containers denote (00_scope.md R21, 45_fp_pack_unpack.md R291). -/

namespace Sys2Proof.Machine

/-! ## The invariant -/

/-- An integer container as R33 has it: `1 ≤ n ≤ W_MAX` and `v = mask(n, s, v)`. -/
def IntC.wf (c : IntC) : Bool := decide (1 ≤ c.n) && decide (c.n ≤ wMax) && decide (c.v = mask c.n c.s c.v)

/-- A float container as R37 has it: the widths in range and each sub-field inside its width. -/
def FltC.wf (x : FltC) : Bool :=
  floatWidthsOk x.e x.m && decide (x.E < 2 ^ x.e) && decide (x.M < 2 ^ x.m)

/-- What a register can hold (R31). -/
def Reg.wf : Reg → Bool
  | .unwritten => true
  | .int c => c.wf
  | .flt x => x.wf

/-- Every register holds a container of the spec's, and `MEM` is in canonical form. -/
def State.Inv (s : State) : Prop := (∀ i, (s.reg i).wf = true) ∧ s.mem.wf = true

/-! ## What a command leaves alone -/

/-- The parameters, the host's pending events and the HOST_IN port are as before. -/
def SameSurroundings (s t : State) : Prop :=
  t.config = s.config ∧ t.pending = s.pending ∧ t.hostIn = s.hostIn

/-- Every byte of `MEM` reads as before. -/
def SameBytes (s t : State) : Prop := ∀ a, memRead t.mem a = memRead s.mem a

/-- Every byte outside `[addr, addr + k)` reads as before. -/
def SameBytesOutside (s t : State) (addr k : Nat) : Prop :=
  ∀ a, (a < addr ∨ addr + k ≤ a) → memRead t.mem a = memRead s.mem a

/-- Every register is as before. -/
def SameRegs (s t : State) : Prop := ∀ i, t.reg i = s.reg i

/-- Every register but `rd` is as before. -/
def SameRegsBut (s t : State) (rd : RegIdx) : Prop := ∀ i, i ≠ rd → t.reg i = s.reg i

/-! ## What a command does -/

/-- The command completes: `rd` holds `r`, the response is `(OK, absent)`, all else is as before. -/
def Writes (i : Instr) (s : State) (rd : RegIdx) (r : Reg) : Prop :=
  ∃ t, exec i s = .next t ∧ t.reg rd = r ∧ t.response = some ⟨.ok, none⟩ ∧
    SameRegsBut s t rd ∧ SameBytes s t ∧ SameSurroundings s t

/-- The command completes with the response `(OK, out)`, and nothing else changes. -/
def Answers (i : Instr) (s : State) (out : Out) : Prop :=
  ∃ t, exec i s = .next t ∧ t.response = some ⟨.ok, some out⟩ ∧
    SameRegs s t ∧ SameBytes s t ∧ SameSurroundings s t

/-- The command completes and stores these bytes from `addr` upward, and nothing else changes. -/
def Stores (i : Instr) (s : State) (addr : Nat) (bytes : List Byte) : Prop :=
  ∃ t, exec i s = .next t ∧ t.response = some ⟨.ok, none⟩ ∧
    (∀ j b, bytes[j]? = some b → memRead t.mem (addr + j) = b) ∧
    SameRegs s t ∧ SameBytesOutside s t addr bytes.length ∧ SameSurroundings s t

/-- The command takes a fault: the response is `(f, absent)`, and nothing else changes (R370, R371). -/
def TakesFault (i : Instr) (s : State) (f : Status) : Prop :=
  ∃ t, exec i s = .next t ∧ t.response = some ⟨f, none⟩ ∧
    SameRegs s t ∧ t.mem = s.mem ∧ SameSurroundings s t

/-! ## Values -/

/-- A pattern that is neither an infinity nor a NaN. -/
def f64Finite (b : F64) : Prop := f64Exp b ≠ 2047

/-- `(-1)^neg`. -/
def signFactor (neg : Bool) : ℚ := if neg then -1 else 1

/-- `val(b)` of a finite pattern (R21). -/
def f64Value (b : F64) : ℚ :=
  signFactor (f64Dyadic b).neg * (f64Dyadic b).man * (2 : ℚ) ^ (f64Dyadic b).exp

/-- The exponent of a container's value, in the source's words (R291):
`-(2^(e-1)-2) + (denormalized ? 0 : exponent_field - 1)`. -/
def FltC.exponent (x : FltC) : ℤ := -((2 : ℤ) ^ (x.e - 1) - 2) + (if x.E = 0 then 0 else (x.E : ℤ) - 1)

/-- The mantissa of a container's value (R291): `(denormalized ? 0 : 1) + Σ_{i=1}^{m} bit(m-i) * 2^-i`. -/
def FltC.mantissa (x : FltC) : ℚ :=
  (if x.E = 0 then 0 else 1)
    + ∑ i ∈ Finset.Icc 1 x.m, (slice x.M (x.m - i) (x.m - i) : ℚ) * (2 : ℚ) ^ (-(i : ℤ))

/-- The value of a container that is neither an infinity nor a NaN (R291):
`(-1)^sign * mantissa * 2^exp`. -/
def FltC.value (x : FltC) : ℚ := signFactor x.sg * x.mantissa * (2 : ℚ) ^ x.exponent

/-- A NaN container (R38). -/
def FltC.isNan (x : FltC) : Bool := x.E == allOnes x.e && x.M != 0

/-- A denormal container (R38). -/
def FltC.isDenormal (x : FltC) : Bool := x.E == 0 && x.M != 0

/-! ## When a command faults (60_exceptions.md R374 to R385) -/

/-- The registers a command reads as operands (R375): RS1 and RS2 where its format has them, and the RD of
ISET and FSET, which is read for its shape. -/
def Instr.operands : Instr → List RegIdx
  | .inew _ _ _ => []
  | .icvt _ rs1 _ _ => [rs1]
  | .iset rd => [rd]
  | .ineg _ rs1 => [rs1]
  | .iabs _ rs1 => [rs1]
  | .inot _ rs1 => [rs1]
  | .iadd _ rs1 rs2 => [rs1, rs2]
  | .iaddIp rs1 rs2 => [rs1, rs2]
  | .isub _ rs1 rs2 => [rs1, rs2]
  | .isubIp rs1 rs2 => [rs1, rs2]
  | .imul _ rs1 rs2 => [rs1, rs2]
  | .imulIp rs1 rs2 => [rs1, rs2]
  | .idiv _ rs1 rs2 => [rs1, rs2]
  | .idivIp rs1 rs2 => [rs1, rs2]
  | .ifdiv _ rs1 rs2 => [rs1, rs2]
  | .ifdivIp rs1 rs2 => [rs1, rs2]
  | .imod _ rs1 rs2 => [rs1, rs2]
  | .imodIp rs1 rs2 => [rs1, rs2]
  | .ipow _ rs1 rs2 => [rs1, rs2]
  | .ipowIp rs1 rs2 => [rs1, rs2]
  | .iand _ rs1 rs2 => [rs1, rs2]
  | .iandIp rs1 rs2 => [rs1, rs2]
  | .ior _ rs1 rs2 => [rs1, rs2]
  | .iorIp rs1 rs2 => [rs1, rs2]
  | .ixor _ rs1 rs2 => [rs1, rs2]
  | .ixorIp rs1 rs2 => [rs1, rs2]
  | .ishl _ rs1 rs2 => [rs1, rs2]
  | .ishlIp rs1 rs2 => [rs1, rs2]
  | .ishr _ rs1 rs2 => [rs1, rs2]
  | .ishrIp rs1 rs2 => [rs1, rs2]
  | .ieq rs1 rs2 => [rs1, rs2]
  | .ine rs1 rs2 => [rs1, rs2]
  | .ilt rs1 rs2 => [rs1, rs2]
  | .ile rs1 rs2 => [rs1, rs2]
  | .igt rs1 rs2 => [rs1, rs2]
  | .ige rs1 rs2 => [rs1, rs2]
  | .ibit rs1 _ => [rs1]
  | .islice _ rs1 _ _ => [rs1]
  | .iread rs1 => [rs1]
  | .imin rs1 => [rs1]
  | .imax rs1 => [rs1]
  | .itob rs1 _ _ => [rs1]
  | .ifromb _ _ _ _ _ => []
  | .fnew _ _ _ => []
  | .fset rd => [rd]
  | .fneg _ rs1 => [rs1]
  | .fabs _ rs1 => [rs1]
  | .fpos _ rs1 => [rs1]
  | .fadd _ rs1 rs2 => [rs1, rs2]
  | .faddIp rs1 rs2 => [rs1, rs2]
  | .fsub _ rs1 rs2 => [rs1, rs2]
  | .fsubIp rs1 rs2 => [rs1, rs2]
  | .fmul _ rs1 rs2 => [rs1, rs2]
  | .fmulIp rs1 rs2 => [rs1, rs2]
  | .fdiv _ rs1 rs2 => [rs1, rs2]
  | .fdivIp rs1 rs2 => [rs1, rs2]
  | .ffdiv _ rs1 rs2 => [rs1, rs2]
  | .ffdivIp rs1 rs2 => [rs1, rs2]
  | .fmod _ rs1 rs2 => [rs1, rs2]
  | .fmodIp rs1 rs2 => [rs1, rs2]
  | .fpow _ rs1 rs2 => [rs1, rs2]
  | .fpowIp rs1 rs2 => [rs1, rs2]
  | .feq rs1 rs2 => [rs1, rs2]
  | .fne rs1 rs2 => [rs1, rs2]
  | .flt rs1 rs2 => [rs1, rs2]
  | .fle rs1 rs2 => [rs1, rs2]
  | .fgt rs1 rs2 => [rs1, rs2]
  | .fge rs1 rs2 => [rs1, rs2]
  | .fread rs1 => [rs1]
  | .ftob rs1 _ _ => [rs1]
  | .ffromb _ _ _ _ _ => []

/-- The command is of the float unit: bit 6 of its opcode (30_encoding.md R107). -/
def Instr.isFloat (i : Instr) : Bool := i.opcode.number / 2 ^ 6 % 2 == 1

/-- The condition of each fault, on the command and the state alone, whatever other fault holds. A HOST_IN operand
of the wrong kind counts as missing (log 6). -/
def FaultCondition (i : Instr) (s : State) : Status → Prop
  | .ok => False
  | .illegalCommand =>
    match i.hostInKind with
    | .none => False
    | .integer => ∀ x, s.hostIn ≠ some (.int x)
    | .pattern => ∀ b, s.hostIn ≠ some (.f64 b)
  | .unwritten => ∃ r ∈ Instr.operands i, s.reg r = .unwritten
  | .typeMismatch =>
    ∃ r ∈ Instr.operands i, if Instr.isFloat i then ∃ a, s.reg r = .int a else ∃ x, s.reg r = .flt x
  | .invalidWidth =>
    (∃ rd sg, i = .inew rd sg 0) ∨ (∃ rd rs1 sg, i = .icvt rd rs1 sg 0) ∨
    (∃ rd sg bo addr, i = .ifromb rd sg bo 0 addr) ∨
    (∃ rd ew mw, i = .fnew rd ew mw ∧ (ew = 0 ∨ 11 < ew ∨ mw = 0 ∨ 52 < mw)) ∨
    (∃ rd bo ew mw addr, i = .ffromb rd bo ew mw addr ∧ (ew = 0 ∨ 11 < ew ∨ mw = 0 ∨ 52 < mw))
  | .indexOutOfRange =>
    (∃ rs1 index a, i = .ibit rs1 index ∧ s.reg rs1 = .int a ∧ a.n ≤ index) ∨
    (∃ rd rs1 start stop a, i = .islice rd rs1 start stop ∧ s.reg rs1 = .int a ∧ (stop ≤ start ∨ a.n < stop))
  | .bufferRange =>
    (∃ rs1 bo addr a, i = .itob rs1 bo addr ∧ s.reg rs1 = .int a ∧ 65536 < addr + (a.n + 7) / 8) ∨
    (∃ rs1 bo addr x, i = .ftob rs1 bo addr ∧ s.reg rs1 = .flt x ∧ 65536 < addr + (1 + x.e + x.m + 7) / 8) ∨
    (∃ rd sg bo w addr, i = .ifromb rd sg bo w addr ∧ 65536 < addr + (w + 7) / 8) ∨
    (∃ rd bo ew mw addr, i = .ffromb rd bo ew mw addr ∧ 65536 < addr + (1 + ew + mw + 7) / 8)
  | .divideByZero =>
    (i.opcode ∈ [.idiv, .ifdiv, .imod] ∧ ∃ a b, (Instr.operands i).map s.reg = [.int a, .int b] ∧
      mask (max a.n b.n) (a.s && b.s) b.v = 0) ∨
    (i.opcode ∈ [.fdiv, .ffdiv, .fmod] ∧ ∃ x y, (Instr.operands i).map s.reg = [.flt x, .flt y] ∧
      (fdec y = 0x0000000000000000#64 ∨ fdec y = 0x8000000000000000#64))
  | .negativeShift =>
    i.opcode ∈ [.ishl, .ishr] ∧ ∃ a c, (Instr.operands i).map s.reg = [.int a, .int c] ∧ c.v < 0
  | .negativeExponent =>
    i.opcode = .ipow ∧ ∃ a b, (Instr.operands i).map s.reg = [.int a, .int b] ∧
      mask (max a.n b.n) (a.s && b.s) b.v < 0
  | .hostFloatFault =>
    ∃ x y, (Instr.operands i).map s.reg = [.flt x, .flt y] ∧
      ((i.opcode = .fpow ∧ hostPower s.host (fdec x) (fdec y) = none) ∨
       (i.opcode = .ffdiv ∧ s.host.floordiv (fdec x) (fdec y) = none) ∨
       (i.opcode = .fmod ∧ s.host.mod (fdec x) (fdec y) = none))

/-! ## Rounding (10_state.md R45) -/

/-- `r` is the exact value `q` rounded to binary64, to nearest with ties to even: an infinity from
`2^1024 - 2^970` on, half a unit above the largest finite value; below it the nearest finite value, of even
mantissa when another is as near; the sign is that of `q` when `q` is not 0. -/
def RoundsTo (q : ℚ) (r : F64) : Prop :=
  f64IsNan r = false ∧ (q ≠ 0 → f64Sign r = decide (q < 0)) ∧
  (f64IsInf r = true ↔ 2 ^ 1024 - 2 ^ 970 ≤ |q|) ∧
  (f64Finite r → ∀ c, f64Finite c → |f64Value r - q| ≤ |f64Value c - q| ∧
    (|f64Value r - q| = |f64Value c - q| → f64Value c ≠ f64Value r → f64Man r % 2 = 0))

end Sys2Proof.Machine
end

