-- ==== Sys2Proof/Certificates/Slice0/Obligations.lean ====
section
/-! DEFINITION. The statements about this model, one `def Obligations.<Name> : Prop` each. Each docstring names
the rules of spec/ it formalises or rests on; OBLIGATIONS.json lists them. -/

open Sys2Proof Sys2Proof.Machine

/-! ## Encoding -/

/-- The words of 95_test_vectors.md 2.1, and two of its S9, written out from the formats of 30_encoding.md R93 to
R105 with the decode procedure of R108. -/
def Obligations.SpecWordsDecode : Prop :=
  decode 0x1031200000000000#64 = .ok (.iadd 3 1 2) ∧
  decode 0x1011480000000000#64 = .ok (.iaddIp 1 4) ∧
  decode 0x1031180000000000#64 = .error .receiverMismatch ∧
  decode 0x1041100000000001#64 = .error .reservedBit ∧
  decode 0x0000000000000000#64 = .error .unassignedOpcode ∧
  decode 0x8000000000000000#64 = .error .unassignedOpcode ∧
  decode 0x0400000000000000#64 = .error .unassignedOpcode ∧
  decode 0x2213200000000000#64 = .error .reservedBit ∧
  decode 0x2203200000000000#64 = .ok (.ilt 3 2) ∧
  decode 0x0110040000080001#64 = .error .reservedBit ∧
  decode 0x0110040000000000#64 = .ok (.inew 1 true 0) ∧
  decode 0x41A0018B80000000#64 = .ok (.fnew 10 12 23) ∧
  decode 0x4A10000000000000#64 = .ok (.fpos 1 0) ∧
  decode 0x31200400000C0000#64 = .ok (.ifromb 2 true .big 12 0) ∧
  decode 0x7120030B80000000#64 = .ok (.ffromb 2 .little 8 23 0) ∧
  decode 0x7001000000010000#64 = .error .reservedBit

/-- Decoding the word of a well-formed command gives the command back, with every operand at every value its
field can hold (30_encoding.md R91, R106, R107). -/
def Obligations.DecodeEncode : Prop := ∀ i : Instr, i.wf = true → decode (encode i) = .ok i

/-- A word that decodes is the word of its command, so no bit of it is dropped and no two words mean the same
command (30_encoding.md R92, R108). -/
def Obligations.EncodeDecode : Prop :=
  ∀ (w : Word) (i : Instr), decode w = .ok i → i.wf = true ∧ encode i = w

/-- 30_encoding.md R108, the whole decode procedure, as the block applies it to the host's next word. That the word
is taken from a list of events and its operand put on the port is the model's choice (log 1, log 13). -/
def Obligations.DecodeProcedure : Prop :=
  ∀ (s : State) (w : Word) (h : Option HostIn) (rest : List HostEvent),
    s.pending = .command w h :: rest →
    let legal := ∃ op : Opcode, op.number = fOp w ∧ w &&& op.format.zeroMask = 0#64 ∧
      ¬(op.format = .R ∧ w.getLsbD 43 = true ∧ bits w 55 52 ≠ bits w 51 48)
    (legal → ∃ i, decode w = .ok i ∧ i.opcode.number = fOp w ∧ encode i = w ∧
      step s = exec i (takeCommand s rest h)) ∧
    (¬legal → ∃ t, step s = .next t ∧ t.response = some ⟨.illegalCommand, none⟩ ∧
      SameRegs s t ∧ t.mem = s.mem ∧ t.config = s.config ∧ t.pending = rest)

/-- 10_state.md R43 and 60_exceptions.md R374 on HOST_IN: which commands take one, that a missing one is
IllegalCommand, and that one given to any other command is ignored. That an operand of the other kind counts
as missing is log 6. -/
def Obligations.HostInUse : Prop :=
  (∀ i : Instr, (i.hostInKind = .integer ↔ i.opcode = .inew ∨ i.opcode = .iset) ∧
    (i.hostInKind = .pattern ↔ i.opcode = .fnew ∨ i.opcode = .fset)) ∧
  (∀ (i : Instr) (s : State), i.hostInKind = .integer → (∀ x, s.hostIn ≠ some (.int x)) →
    TakesFault i s .illegalCommand) ∧
  (∀ (i : Instr) (s : State), i.hostInKind = .pattern → (∀ b, s.hostIn ≠ some (.f64 b)) →
    TakesFault i s .illegalCommand) ∧
  (∀ (i : Instr) (s : State) (h : Option HostIn), i.hostInKind = .none → ∀ t, exec i s = .next t →
    exec i { s with hostIn := h } = .next { t with hostIn := h })

/-! ## Steps, reset, responses and faults -/

/-- A step performs the command that the host's next word decodes to, in the state with the word taken and its
operand on HOST_IN (70_reset_and_hazards.md R403; 10_state.md R43; log 1, log 13). -/
def Obligations.StepRunsDecodedCommand : Prop :=
  ∀ (s : State) (w : Word) (h : Option HostIn) (rest : List HostEvent) (i : Instr),
    s.pending = .command w h :: rest → decode w = .ok i →
    step s = exec i { s with pending := rest, hostIn := h }

/-- The state after reset: the spec's values (10_state.md R48; 70_reset_and_hazards.md R401), the defaults of
00_scope.md R13 (log 7), and the model's choices of log 1, log 4 and log 13. -/
def Obligations.ResetStateValues : Prop :=
  (∀ i, State.reset.reg i = .unwritten) ∧ State.reset.response = none ∧
  State.reset.config = ⟨.propagate, .floor, .reference, .positive⟩ ∧
  (∀ a, memRead State.reset.mem a = 0#8) ∧ State.reset.pending = [] ∧ State.reset.hostIn = none

/-- The invariant holds after reset. -/
def Obligations.InvHoldsAtReset : Prop := State.reset.Inv

/-- Every step keeps the invariant: each register holds Unwritten or a container of 10_state.md R33 or R37, and
`MEM` is in canonical form. -/
def Obligations.StepKeepsInv : Prop := ∀ s t : State, s.Inv → step s = .next t → t.Inv

/-- 10_state.md R48 and 70_reset_and_hazards.md R400, R401 for a reset that the host asserts: every register
Unwritten, no response, the parameters as they were, and `MEM` at contents that can be any bytes at all. That the
event names them as a list of cells is log 14, that it is taken from a list of events log 1. -/
def Obligations.ResetEvent : Prop :=
  (∀ (s : State) (cs : List Host.Cell) (rest : List HostEvent), s.pending = .reset cs :: rest →
    ∃ t, step s = .next t ∧ (∀ i, t.reg i = .unwritten) ∧ t.response = none ∧ t.config = s.config ∧
      t.pending = rest ∧ t.mem.wf = true ∧ ∀ a, a < 65536 → memRead t.mem a = memRead cs a) ∧
  (∀ f : Nat → Byte, ∃ cs : List Host.Cell, ∀ a, a < 65536 → memRead cs a = f a)

/-- Every step answers with a next state, takes the oldest event and leaves the parameters alone (10_state.md
R42; 60_exceptions.md R373; 70_reset_and_hazards.md R403; log 3); with no event pending it holds the whole
state unchanged (60_exceptions.md R397; log 2). -/
def Obligations.StepTakesOneEvent : Prop :=
  ∀ s : State, (∃ t, step s = .next t ∧ t.pending = s.pending.tail ∧ t.config = s.config) ∧
    (s.pending = [] → step s = .next s)

/-- 10_state.md R44: every command returns one response, its `out` of the kind of the command, absent on a
fault; a boolean is the bit 1 or 0. -/
def Obligations.ResponseShape : Prop :=
  (∀ (s : State) (w : Word) (h : Option HostIn) (rest : List HostEvent), s.pending = .command w h :: rest →
    ∃ t r, step s = .next t ∧ t.response = some r ∧ (r.status ≠ .ok → r.out = none) ∧
      (r.status = .ok → ∃ i, decode w = .ok i ∧
        ((∃ b, r.out = some (.bit b)) ↔
          i.opcode ∈ [.ieq, .ine, .ilt, .ile, .igt, .ige, .feq, .fne, .flt, .fle, .fgt, .fge, .ibit]) ∧
        ((∃ x, r.out = some (.int x)) ↔ i.opcode ∈ [.iread, .imin, .imax]) ∧
        ((∃ b, r.out = some (.f64 b)) ↔ i.opcode = .fread))) ∧
  Out.bitValue true = 1#1 ∧ Out.bitValue false = 0#1

/-- 60_exceptions.md R371: a command whose response is a fault has changed nothing else, and its `out` is
absent; words that do not decode are commands too. The host's event is taken and its operand is on the port
(log 1, log 13). -/
def Obligations.FaultHasNoEffect : Prop :=
  ∀ (s t : State) (w : Word) (h : Option HostIn) (rest : List HostEvent) (r : Response),
    s.pending = .command w h :: rest → step s = .next t → t.response = some r → r.status ≠ .ok →
    r.out = none ∧ t = { s with pending := rest, hostIn := h, response := some r }

/-- 60_exceptions.md R385: of all the fault conditions a decoded command meets, the one of the lowest code is
reported; with none met the status is OK. The conditions are those of R374 to R383, but for one choice of the
model: a HOST_IN operand of the wrong kind counts as missing (log 6). -/
def Obligations.FaultPriority : Prop :=
  ∀ (i : Instr) (s : State), ∃ t r, exec i s = .next t ∧ t.response = some r ∧
    (r.status = .ok ↔ ∀ f, ¬FaultCondition i s f) ∧
    (r.status ≠ .ok → FaultCondition i s r.status ∧
      ∀ f, FaultCondition i s f → r.status.code.toNat ≤ f.code.toNat)

/-- The codes of 60_exceptions.md R372, and which commands raise each. -/
def Obligations.StatusCodes : Prop :=
  ([.ok, .illegalCommand, .unwritten, .typeMismatch, .invalidWidth, .indexOutOfRange, .bufferRange,
    .divideByZero, .negativeShift, .negativeExponent, .hostFloatFault].map Status.code
      = [0#4, 1#4, 2#4, 3#4, 4#4, 5#4, 6#4, 7#4, 8#4, 9#4, 10#4]) ∧
  (∀ f : Status, f.code.toNat ≤ 10) ∧
  ∀ (i : Instr) (s t : State) (r : Response), exec i s = .next t → t.response = some r →
    (r.status = .unwritten → Instr.operands i ≠ []) ∧
    (r.status = .typeMismatch → Instr.operands i ≠ []) ∧
    (r.status = .invalidWidth → i.opcode ∈ [.inew, .icvt, .ifromb, .fnew, .ffromb]) ∧
    (r.status = .indexOutOfRange → i.opcode ∈ [.ibit, .islice]) ∧
    (r.status = .bufferRange → i.opcode ∈ [.itob, .ifromb, .ftob, .ffromb]) ∧
    (r.status = .divideByZero → i.opcode ∈ [.idiv, .ifdiv, .imod, .fdiv, .ffdiv, .fmod]) ∧
    (r.status = .negativeShift → i.opcode ∈ [.ishl, .ishr]) ∧
    (r.status = .negativeExponent → i.opcode = .ipow) ∧
    (r.status = .hostFloatFault → s.config.host = .reference → i.opcode = .fpow)

/-- 20_memory.md R61: only ITOB and FTOB write `MEM`, and what any command but IFROMB and FFROMB does is the
same whatever `MEM` holds. -/
def Obligations.MemOnlyByByteCommands : Prop :=
  (∀ (i : Instr) (s t : State), i.opcode ≠ .itob → i.opcode ≠ .ftob → exec i s = .next t → t.mem = s.mem) ∧
  (∀ (i : Instr) (s t : State) (m : Memory), i.opcode ≠ .ifromb → i.opcode ≠ .ffromb → exec i s = .next t →
    ∃ u, exec i { s with mem := m } = .next u ∧ SameRegs t u ∧ u.response = t.response ∧ SameSurroundings t u)

/-- 10_state.md R32: no command writes Unwritten. -/
def Obligations.NoCommandWritesUnwritten : Prop :=
  ∀ (i : Instr) (s t : State) (r : RegIdx), exec i s = .next t → s.reg r ≠ .unwritten → t.reg r ≠ .unwritten

/-- 10_state.md R35: an in-place command, and ISET, rewrite a container's value and keep its width and
signedness; the in-place float commands and FSET keep the widths (46_fp_arith.md R334). -/
def Obligations.InPlaceKeepsShape : Prop :=
  (∀ (rs1 rs2 : RegIdx) (s t : State) (a : IntC), s.reg rs1 = .int a →
    ∀ i ∈ [Instr.iaddIp rs1 rs2, .isubIp rs1 rs2, .imulIp rs1 rs2, .idivIp rs1 rs2, .ifdivIp rs1 rs2,
      .imodIp rs1 rs2, .ipowIp rs1 rs2, .iandIp rs1 rs2, .iorIp rs1 rs2, .ixorIp rs1 rs2, .ishlIp rs1 rs2,
      .ishrIp rs1 rs2, .iset rs1],
    exec i s = .next t → ∃ b, t.reg rs1 = .int b ∧ b.n = a.n ∧ b.s = a.s) ∧
  (∀ (rs1 rs2 : RegIdx) (s t : State) (x : FltC), s.reg rs1 = .flt x →
    ∀ i ∈ [Instr.faddIp rs1 rs2, .fsubIp rs1 rs2, .fmulIp rs1 rs2, .fdivIp rs1 rs2, .ffdivIp rs1 rs2,
      .fmodIp rs1 rs2, .fpowIp rs1 rs2, .fset rs1],
    exec i s = .next t → ∃ y, t.reg rs1 = .flt y ∧ y.e = x.e ∧ y.m = x.m)

/-! ## Integer commands -/

/-- 40_int_construct.md R133: `mask` is reduction modulo `2^n` into the range of the shape; so `max + 1` wraps
to `min` and `min - 1` to `max`, and a canonical value is its own mask. -/
def Obligations.MaskIsModularReduction : Prop :=
  ∀ (n : Nat) (s : Bool) (x : Int), 1 ≤ n →
    let lo : Int := if s then -(2 ^ (n - 1)) else 0
    let hi : Int := if s then 2 ^ (n - 1) - 1 else 2 ^ n - 1
    (∀ k : Int, mask n s (x + k * 2 ^ n) = mask n s x) ∧
    (lo ≤ mask n s x ∧ mask n s x ≤ hi ∧ (2 : Int) ^ n ∣ mask n s x - x) ∧
    (∀ y : Int, lo ≤ y → y ≤ hi → (2 : Int) ^ n ∣ y - x → y = mask n s x) ∧
    mask n s (hi + 1) = lo ∧ mask n s (lo - 1) = hi ∧ mask n s (mask n s x) = mask n s x

/-- 40_int_construct.md R138: exchanging the operands of a commutative command changes nothing, and the promoted
shape never depends on the order. -/
def Obligations.CommutativeCommands : Prop :=
  (∀ a b : IntC, promN a b = promN b a ∧ promS a b = promS b a) ∧
  ∀ (rd i j : RegIdx) (s : State),
    exec (.iadd rd i j) s = exec (.iadd rd j i) s ∧ exec (.imul rd i j) s = exec (.imul rd j i) s ∧
    exec (.iand rd i j) s = exec (.iand rd j i) s ∧ exec (.ior rd i j) s = exec (.ior rd j i) s ∧
    exec (.ixor rd i j) s = exec (.ixor rd j i) s ∧ exec (.ieq i j) s = exec (.ieq j i) s ∧
    exec (.ine i j) s = exec (.ine j i) s

/-- INEW, ICVT and ISET: the container they write, and InvalidWidth for W = 0 (40_int_construct.md R140 to
R142). -/
def Obligations.ConstructInt : Prop :=
  (∀ (rd : RegIdx) (sg : Bool) (w : Nat) (x : Int) (s : State), s.hostIn = some (.int x) →
    (1 ≤ w → Writes (.inew rd sg w) s rd (.int ⟨w, sg, mask w sg x⟩)) ∧
    TakesFault (.inew rd sg 0) s .invalidWidth) ∧
  (∀ (rd rs1 : RegIdx) (sg : Bool) (w : Nat) (c : IntC) (s : State), s.reg rs1 = .int c →
    (1 ≤ w → Writes (.icvt rd rs1 sg w) s rd (.int ⟨w, sg, mask w sg c.v⟩)) ∧
    TakesFault (.icvt rd rs1 sg 0) s .invalidWidth) ∧
  (∀ (rd : RegIdx) (x : Int) (c : IntC) (s : State), s.hostIn = some (.int x) → s.reg rd = .int c →
    Writes (.iset rd) s rd (.int ⟨c.n, c.s, mask c.n c.s x⟩))

/-- INEG, IABS and INOT (41_int_arith.md R160 to R163); INOT inverts every bit of the two's-complement form. -/
def Obligations.IntUnary : Prop :=
  ∀ (rd rs1 : RegIdx) (a : IntC) (s : State), s.reg rs1 = .int a →
    Writes (.ineg rd rs1) s rd (.int ⟨a.n, a.s, mask a.n a.s (-a.v)⟩) ∧
    Writes (.iabs rd rs1) s rd (.int ⟨a.n, a.s, mask a.n a.s |a.v|⟩) ∧
    ∃ r : Int, (∀ k, r.testBit k = !a.v.testBit k) ∧
      Writes (.inot rd rs1) s rd (.int ⟨a.n, a.s, mask a.n a.s r⟩)

/-- IADD, ISUB and IMUL (41_int_arith.md R164 to R167): promotion, reinterpretation, the exact result, and the
final mask. -/
def Obligations.IntAddSubMul : Prop :=
  ∀ (rd rs1 rs2 : RegIdx) (a b : IntC) (s : State), s.reg rs1 = .int a → s.reg rs2 = .int b →
    let n := max a.n b.n
    let g := a.s && b.s
    let A := mask n g a.v
    let B := mask n g b.v
    Writes (.iadd rd rs1 rs2) s rd (.int ⟨n, g, mask n g (A + B)⟩) ∧
    Writes (.isub rd rs1 rs2) s rd (.int ⟨n, g, mask n g (A - B)⟩) ∧
    Writes (.imul rd rs1 rs2) s rd (.int ⟨n, g, mask n g (A * B)⟩)

/-- IADD.IP, ISUB.IP and IMUL.IP (40_int_construct.md R139; 41_int_arith.md R180 to R182): the promoted result
masked into the receiver's shape, which is the receiver's own wrap-around arithmetic. -/
def Obligations.IntAddSubMulInPlace : Prop :=
  ∀ (rs1 rs2 : RegIdx) (a b : IntC) (s : State), s.reg rs1 = .int a → s.reg rs2 = .int b →
    let n := max a.n b.n
    let g := a.s && b.s
    let A := mask n g a.v
    let B := mask n g b.v
    (Writes (.iaddIp rs1 rs2) s rs1 (.int ⟨a.n, a.s, mask a.n a.s (mask n g (A + B))⟩) ∧
      mask a.n a.s (mask n g (A + B)) = mask a.n a.s (a.v + b.v)) ∧
    (Writes (.isubIp rs1 rs2) s rs1 (.int ⟨a.n, a.s, mask a.n a.s (mask n g (A - B))⟩) ∧
      mask a.n a.s (mask n g (A - B)) = mask a.n a.s (a.v - b.v)) ∧
    (Writes (.imulIp rs1 rs2) s rs1 (.int ⟨a.n, a.s, mask a.n a.s (mask n g (A * B))⟩) ∧
      mask a.n a.s (mask n g (A * B)) = mask a.n a.s (a.v * b.v))

/-- IDIV, IFDIV and IMOD for a divisor that is not 0 after reinterpretation (41_int_arith.md R168 to R170): the
exact quotient rounded toward zero, or toward minus infinity, and the remainder of the block's `mod_kind`. -/
def Obligations.IntDivision : Prop :=
  ∀ (rd rs1 rs2 : RegIdx) (a b : IntC) (s : State), s.reg rs1 = .int a → s.reg rs2 = .int b →
    let n := max a.n b.n
    let g := a.s && b.s
    let A := mask n g a.v
    let B := mask n g b.v
    let down : Int := ⌊(A : ℚ) / B⌋
    let toZero : Int := if (0 : ℚ) ≤ (A : ℚ) / B then ⌊(A : ℚ) / B⌋ else ⌈(A : ℚ) / B⌉
    B ≠ 0 →
    Writes (.idiv rd rs1 rs2) s rd (.int ⟨n, g, mask n g toZero⟩) ∧
    Writes (.ifdiv rd rs1 rs2) s rd (.int ⟨n, g, mask n g down⟩) ∧
    (s.config.modKind = .floor → Writes (.imod rd rs1 rs2) s rd (.int ⟨n, g, mask n g (A - B * down)⟩)) ∧
    (s.config.modKind = .trunc → Writes (.imod rd rs1 rs2) s rd (.int ⟨n, g, mask n g (A - B * toZero)⟩))

/-- IDIV.IP, IFDIV.IP and IMOD.IP (40_int_construct.md R139; 41_int_arith.md R183 to R185). -/
def Obligations.IntDivisionInPlace : Prop :=
  ∀ (rs1 rs2 : RegIdx) (a b : IntC) (s : State), s.reg rs1 = .int a → s.reg rs2 = .int b →
    let n := max a.n b.n
    let g := a.s && b.s
    let A := mask n g a.v
    let B := mask n g b.v
    let down : Int := ⌊(A : ℚ) / B⌋
    let toZero : Int := if (0 : ℚ) ≤ (A : ℚ) / B then ⌊(A : ℚ) / B⌋ else ⌈(A : ℚ) / B⌉
    let own := fun r : Int => Reg.int ⟨a.n, a.s, mask a.n a.s (mask n g r)⟩
    B ≠ 0 →
    Writes (.idivIp rs1 rs2) s rs1 (own toZero) ∧
    Writes (.ifdivIp rs1 rs2) s rs1 (own down) ∧
    (s.config.modKind = .floor → Writes (.imodIp rs1 rs2) s rs1 (own (A - B * down))) ∧
    (s.config.modKind = .trunc → Writes (.imodIp rs1 rs2) s rs1 (own (A - B * toZero)))

/-- The remainder of containers of the spec is in range before the final mask, so the mask changes nothing
(41_int_arith.md R170); under `floor` it has the divisor's sign, under `trunc` the dividend's. -/
def Obligations.ModuloInRange : Prop :=
  ∀ (a b : IntC), a.wf = true → b.wf = true →
    let n := max a.n b.n
    let g := a.s && b.s
    let A := mask n g a.v
    let B := mask n g b.v
    B ≠ 0 →
    (∀ k, mask n g (modBy k A B) = modBy k A B) ∧ (∀ k, |modBy k A B| < |B|) ∧
    (0 ≤ modBy .floor A B * B) ∧ (0 ≤ modBy .trunc A B * A)

/-- IPOW and IPOW.IP (41_int_arith.md R171, R186): the exact power, masked; `A^0 = 1`; a negative exponent is
NegativeExponent (60_exceptions.md R382). -/
def Obligations.IntPower : Prop :=
  ∀ (rd rs1 rs2 : RegIdx) (a b : IntC) (s : State), s.reg rs1 = .int a → s.reg rs2 = .int b →
    let n := max a.n b.n
    let g := a.s && b.s
    let A := mask n g a.v
    let B := mask n g b.v
    (0 ≤ B →
      Writes (.ipow rd rs1 rs2) s rd (.int ⟨n, g, mask n g (A ^ B.toNat)⟩) ∧
      Writes (.ipowIp rs1 rs2) s rs1 (.int ⟨a.n, a.s, mask a.n a.s (mask n g (A ^ B.toNat))⟩)) ∧
    (B < 0 → TakesFault (.ipow rd rs1 rs2) s .negativeExponent ∧
      TakesFault (.ipowIp rs1 rs2) s .negativeExponent)

/-- IAND, IOR, IXOR and their in-place forms (42_int_bitwise_shift.md R200 to R202, R210 to R212): bit by bit on
the infinite two's-complement forms of the reinterpreted operands (00_scope.md R16). -/
def Obligations.IntBitwise : Prop :=
  ∀ (rd rs1 rs2 : RegIdx) (a b : IntC) (s : State), s.reg rs1 = .int a → s.reg rs2 = .int b →
    let n := max a.n b.n
    let g := a.s && b.s
    let A := mask n g a.v
    let B := mask n g b.v
    ∃ rAnd rOr rXor : Int,
      (∀ k, rAnd.testBit k = (A.testBit k && B.testBit k)) ∧
      (∀ k, rOr.testBit k = (A.testBit k || B.testBit k)) ∧
      (∀ k, rXor.testBit k = (A.testBit k ^^ B.testBit k)) ∧
      Writes (.iand rd rs1 rs2) s rd (.int ⟨n, g, mask n g rAnd⟩) ∧
      Writes (.ior rd rs1 rs2) s rd (.int ⟨n, g, mask n g rOr⟩) ∧
      Writes (.ixor rd rs1 rs2) s rd (.int ⟨n, g, mask n g rXor⟩) ∧
      Writes (.iandIp rs1 rs2) s rs1 (.int ⟨a.n, a.s, mask a.n a.s (mask n g rAnd)⟩) ∧
      Writes (.iorIp rs1 rs2) s rs1 (.int ⟨a.n, a.s, mask a.n a.s (mask n g rOr)⟩) ∧
      Writes (.ixorIp rs1 rs2) s rs1 (.int ⟨a.n, a.s, mask a.n a.s (mask n g rXor)⟩)

/-- ISHL, ISHR and their in-place forms (42_int_bitwise_shift.md R203 to R206, R213, R214): the exact shift of
the left operand's own value by an amount of any size, in the left operand's shape; a negative amount is
NegativeShift (60_exceptions.md R381). -/
def Obligations.IntShift : Prop :=
  ∀ (rd rs1 rs2 : RegIdx) (a c : IntC) (s : State), s.reg rs1 = .int a → s.reg rs2 = .int c →
    (0 ≤ c.v →
      let left := Reg.int ⟨a.n, a.s, mask a.n a.s (a.v * 2 ^ c.v.toNat)⟩
      let right := Reg.int ⟨a.n, a.s, mask a.n a.s ⌊(a.v : ℚ) / 2 ^ c.v.toNat⌋⟩
      Writes (.ishl rd rs1 rs2) s rd left ∧ Writes (.ishlIp rs1 rs2) s rs1 left ∧
      Writes (.ishr rd rs1 rs2) s rd right ∧ Writes (.ishrIp rs1 rs2) s rs1 right) ∧
    (c.v < 0 →
      ∀ i ∈ [Instr.ishl rd rs1 rs2, .ishlIp rs1 rs2, .ishr rd rs1 rs2, .ishrIp rs1 rs2],
        TakesFault i s .negativeShift)

/-- DivideByZero, in both forms of every division and modulo (60_exceptions.md R380): an integer divisor that is
0 after reinterpretation; a float divisor that decodes to `+0.0` or `-0.0`, whatever the dividend is
(46_fp_arith.md R332). -/
def Obligations.DivideByZero : Prop :=
  (∀ (rd rs1 rs2 : RegIdx) (a b : IntC) (s : State), s.reg rs1 = .int a → s.reg rs2 = .int b →
    mask (max a.n b.n) (a.s && b.s) b.v = 0 →
    ∀ i ∈ [Instr.idiv rd rs1 rs2, .idivIp rs1 rs2, .ifdiv rd rs1 rs2, .ifdivIp rs1 rs2, .imod rd rs1 rs2,
      .imodIp rs1 rs2], TakesFault i s .divideByZero) ∧
  (∀ (rd rs1 rs2 : RegIdx) (a b : FltC) (s : State), s.reg rs1 = .flt a → s.reg rs2 = .flt b →
    (fdec b = 0x0000000000000000#64 ∨ fdec b = 0x8000000000000000#64) →
    ∀ i ∈ [Instr.fdiv rd rs1 rs2, .fdivIp rs1 rs2, .ffdiv rd rs1 rs2, .ffdivIp rs1 rs2, .fmod rd rs1 rs2,
      .fmodIp rs1 rs2], TakesFault i s .divideByZero)

/-- The six integer comparisons, on the reinterpreted operands (43_int_compare.md R230 to R236). -/
def Obligations.IntCompare : Prop :=
  ∀ (rs1 rs2 : RegIdx) (a b : IntC) (s : State), s.reg rs1 = .int a → s.reg rs2 = .int b →
    let n := max a.n b.n
    let g := a.s && b.s
    let A := mask n g a.v
    let B := mask n g b.v
    Answers (.ieq rs1 rs2) s (.bit (decide (A = B))) ∧ Answers (.ine rs1 rs2) s (.bit (decide (A ≠ B))) ∧
    Answers (.ilt rs1 rs2) s (.bit (decide (A < B))) ∧ Answers (.ile rs1 rs2) s (.bit (decide (A ≤ B))) ∧
    Answers (.igt rs1 rs2) s (.bit (decide (A > B))) ∧ Answers (.ige rs1 rs2) s (.bit (decide (A ≥ B)))

/-- IBIT and ISLICE (44_int_bits_bytes.md R250 to R252; 10_state.md R34): the bits of the two's-complement form,
in range; outside it IndexOutOfRange (60_exceptions.md R378). -/
def Obligations.BitAccess : Prop :=
  ∀ (rd rs1 : RegIdx) (a : IntC) (s : State), s.reg rs1 = .int a →
    (∀ i, i < a.n → Answers (.ibit rs1 i) s (.bit (a.v.testBit i))) ∧
    (∀ i, a.n ≤ i → TakesFault (.ibit rs1 i) s .indexOutOfRange) ∧
    (∀ lo hi, lo < hi → hi ≤ a.n →
      ∃ x : Nat, x < 2 ^ (hi - lo) ∧ (∀ j, j < hi - lo → x.testBit j = a.v.testBit (lo + j)) ∧
        Writes (.islice rd rs1 lo hi) s rd (.int ⟨hi - lo, false, x⟩)) ∧
    (∀ lo hi, (hi ≤ lo ∨ a.n < hi) → TakesFault (.islice rd rs1 lo hi) s .indexOutOfRange)

/-- IREAD, IMIN and IMAX (44_int_bits_bytes.md R262, R264, R265). -/
def Obligations.IntReadouts : Prop :=
  ∀ (rs1 : RegIdx) (a : IntC) (s : State), s.reg rs1 = .int a →
    Answers (.iread rs1) s (.int a.v) ∧
    Answers (.imin rs1) s (.int (if a.s then -(2 ^ (a.n - 1)) else 0)) ∧
    Answers (.imax rs1) s (.int (2 ^ (a.n - a.s.toNat) - 1))

/-- 44_int_bits_bytes.md R266: the answers of IMIN and IMAX bound every canonical value of the shape, and one
beyond either end wraps to the other. -/
def Obligations.ShapeBounds : Prop :=
  ∀ a : IntC, a.wf = true →
    let lo : Int := if a.s then -(2 ^ (a.n - 1)) else 0
    let hi : Int := 2 ^ (a.n - a.s.toNat) - 1
    lo ≤ a.v ∧ a.v ≤ hi ∧ mask a.n a.s (hi + 1) = lo ∧ mask a.n a.s (lo - 1) = hi ∧
    ∀ (rs1 : RegIdx) (s : State), s.reg rs1 = .int a →
      Answers (.imin rs1) s (.int lo) ∧ Answers (.imax rs1) s (.int hi)

/-! ## Bytes -/

/-- ITOB (44_int_bits_bytes.md R270; 20_memory.md R63 to R65, R68): `ceil(n / 8)` bytes of the pattern at `addr`,
in the order the command names, nothing else of `MEM`; BufferRange when they do not fit. -/
def Obligations.StoreInt : Prop :=
  ∀ (rs1 : RegIdx) (addr : Nat) (a : IntC) (s : State), s.mem.wf = true → s.reg rs1 = .int a →
    let k := (a.n + 7) / 8
    let P := (a.v % 2 ^ a.n).toNat
    (addr + k ≤ 65536 →
      Stores (.itob rs1 .big addr) s addr
        ((List.range k).map fun j => BitVec.ofNat 8 (P / 2 ^ (8 * (k - 1 - j)))) ∧
      Stores (.itob rs1 .little addr) s addr ((List.range k).map fun j => BitVec.ofNat 8 (P / 2 ^ (8 * j)))) ∧
    (65536 < addr + k → ∀ bo, TakesFault (.itob rs1 bo addr) s .bufferRange)

/-- FTOB (45_fp_pack_unpack.md R310), in the same words. -/
def Obligations.StoreFlt : Prop :=
  ∀ (rs1 : RegIdx) (addr : Nat) (x : FltC) (s : State), s.mem.wf = true → s.reg rs1 = .flt x →
    let k := (1 + x.e + x.m + 7) / 8
    let P := x.sg.toNat * 2 ^ (x.e + x.m) + x.E * 2 ^ x.m + x.M
    (addr + k ≤ 65536 →
      Stores (.ftob rs1 .big addr) s addr
        ((List.range k).map fun j => BitVec.ofNat 8 (P / 2 ^ (8 * (k - 1 - j)))) ∧
      Stores (.ftob rs1 .little addr) s addr ((List.range k).map fun j => BitVec.ofNat 8 (P / 2 ^ (8 * j)))) ∧
    (65536 < addr + k → ∀ bo, TakesFault (.ftob rs1 bo addr) s .bufferRange)

/-- IFROMB (44_int_bits_bytes.md R272; 20_memory.md R62, R64, R65): the unsigned magnitude of the bytes, masked
into the shape; InvalidWidth for W = 0, BufferRange past the end of `MEM`. -/
def Obligations.LoadInt : Prop :=
  ∀ (rd : RegIdx) (sg : Bool) (w addr : Nat) (s : State),
    let k := (w + 7) / 8
    let big := ∑ j ∈ Finset.range k, (memRead s.mem (addr + j)).toNat * 256 ^ (k - 1 - j)
    let little := ∑ j ∈ Finset.range k, (memRead s.mem (addr + j)).toNat * 256 ^ j
    (1 ≤ w → addr + k ≤ 65536 →
      Writes (.ifromb rd sg .big w addr) s rd (.int ⟨w, sg, mask w sg big⟩) ∧
      Writes (.ifromb rd sg .little w addr) s rd (.int ⟨w, sg, mask w sg little⟩)) ∧
    (∀ bo, TakesFault (.ifromb rd sg bo 0 addr) s .invalidWidth) ∧
    (1 ≤ w → 65536 < addr + k → ∀ bo, TakesFault (.ifromb rd sg bo w addr) s .bufferRange)

/-- FFROMB (45_fp_pack_unpack.md R312): the three fields straight from the bytes, the bits above them ignored. -/
def Obligations.LoadFlt : Prop :=
  ∀ (rd : RegIdx) (ew mw addr : Nat) (s : State),
    let k := (1 + ew + mw + 7) / 8
    let big := ∑ j ∈ Finset.range k, (memRead s.mem (addr + j)).toNat * 256 ^ (k - 1 - j)
    let little := ∑ j ∈ Finset.range k, (memRead s.mem (addr + j)).toNat * 256 ^ j
    let flt := fun U : Nat =>
      Reg.flt ⟨ew, mw, U.testBit (ew + mw), U / 2 ^ mw % 2 ^ ew, U % 2 ^ mw⟩
    let widths := 1 ≤ ew ∧ ew ≤ 11 ∧ 1 ≤ mw ∧ mw ≤ 52
    (widths → addr + k ≤ 65536 →
      Writes (.ffromb rd .big ew mw addr) s rd (flt big) ∧
      Writes (.ffromb rd .little ew mw addr) s rd (flt little)) ∧
    (¬widths → ∀ bo, TakesFault (.ffromb rd bo ew mw addr) s .invalidWidth) ∧
    (widths → 65536 < addr + k → ∀ bo, TakesFault (.ffromb rd bo ew mw addr) s .bufferRange)

/-- 44_int_bits_bytes.md R273 and 45_fp_pack_unpack.md R313: a store, then a load of the same shape, place and
order, gives the container back, bit for bit. -/
def Obligations.ByteRoundTrips : Prop :=
  (∀ (rd rs1 : RegIdx) (bo : ByteOrder) (addr : Nat) (a : IntC) (s : State), s.Inv → s.reg rs1 = .int a →
    addr + (a.n + 7) / 8 ≤ 65536 →
    ∃ t u, exec (.itob rs1 bo addr) s = .next t ∧ exec (.ifromb rd a.s bo a.n addr) t = .next u ∧
      u.reg rd = .int a ∧ u.response = some ⟨.ok, none⟩) ∧
  (∀ (rd rs1 : RegIdx) (bo : ByteOrder) (addr : Nat) (x : FltC) (s : State), s.Inv → s.reg rs1 = .flt x →
    addr + (1 + x.e + x.m + 7) / 8 ≤ 65536 →
    ∃ t u, exec (.ftob rs1 bo addr) s = .next t ∧ exec (.ffromb rd bo x.e x.m addr) t = .next u ∧
      u.reg rd = .flt x ∧ u.response = some ⟨.ok, none⟩)

/-- 20_memory.md R66: the bytes of a float container read as an unsigned integer of its total width are its
pattern, and that integer's bytes read as a float container of its widths are the container again. -/
def Obligations.Reinterpretation : Prop :=
  ∀ (rd re rs1 : RegIdx) (bo : ByteOrder) (addr : Nat) (x : FltC) (s : State), s.Inv → s.reg rs1 = .flt x →
    let w := 1 + x.e + x.m
    addr + (w + 7) / 8 ≤ 65536 →
    ∃ t u v z, exec (.ftob rs1 bo addr) s = .next t ∧ exec (.ifromb rd false bo w addr) t = .next u ∧
      u.reg rd = .int ⟨w, false, ((x.sg.toNat * 2 ^ (x.e + x.m) + x.E * 2 ^ x.m + x.M : Nat) : Int)⟩ ∧
      exec (.itob rd bo addr) u = .next v ∧ exec (.ffromb re bo x.e x.m addr) v = .next z ∧
      z.reg re = .flt x

/-! ## Float packing and unpacking -/

/-- FNEW and FSET (45_fp_pack_unpack.md R300, R302): the container `fenc` gives, under the block's carry policy;
InvalidWidth for widths outside 1 to 11 and 1 to 52 (60_exceptions.md R377). -/
def Obligations.ConstructFlt : Prop :=
  ∀ (rd : RegIdx) (b : F64) (s : State), s.hostIn = some (.f64 b) →
    (∀ ew mw, 1 ≤ ew → ew ≤ 11 → 1 ≤ mw → mw ≤ 52 →
      Writes (.fnew rd ew mw) s rd (.flt (fenc s.config.carryPolicy b ew mw))) ∧
    (∀ ew mw, (ew = 0 ∨ 11 < ew ∨ mw = 0 ∨ 52 < mw) → TakesFault (.fnew rd ew mw) s .invalidWidth) ∧
    (∀ x, s.reg rd = .flt x → Writes (.fset rd) s rd (.flt (fenc s.config.carryPolicy b x.e x.m)))

/-- 45_fp_pack_unpack.md R288 with the carry rule of R287, field by field of the pattern. -/
def Obligations.EncodeFormula : Prop :=
  ∀ (p : CarryPolicy) (b : F64) (e m : Nat), 1 ≤ e → e ≤ 11 → 1 ≤ m → m ≤ 52 →
    let ne := (b.extractLsb' 52 11).toNat
    let N := (b.extractLsb' 0 52).toNat
    let E : Int := if ne = 0 then 0
      else min (max ((ne : Int) - 1023) (-(2 ^ (e - 1) - 2))) (2 ^ (e - 1)) + 2 ^ (e - 1) - 1
    let M' := N / 2 ^ (52 - m) + (if m < 52 then (N.testBit (51 - m)).toNat else 0)
    let x := fenc p b e m
    x.wf = true ∧ x.e = e ∧ x.m = m ∧ x.sg = b.getLsbD 63 ∧
    (M' < 2 ^ m → (x.E : Int) = E ∧ x.M = M') ∧
    (M' = 2 ^ m → p = .propagate → E < 2 ^ e - 1 → (x.E : Int) = E + 1 ∧ x.M = 0) ∧
    (M' = 2 ^ m → p = .propagate → E = 2 ^ e - 1 → (x.E : Int) = E ∧ x.M = 2 ^ m - 1) ∧
    (M' = 2 ^ m → p = .drop → (x.E : Int) = E ∧ x.M = 0) ∧ M' ≤ 2 ^ m

/-- The consequences of 45_fp_pack_unpack.md R289, `M'` being the rounded mantissa before the carry rule. -/
def Obligations.EncodeConsequences : Prop :=
  (∀ (p : CarryPolicy) (b : F64) (e m : Nat), 1 ≤ e → e ≤ 11 → 1 ≤ m → m ≤ 52 →
    let M' := encTruncated m (f64Man b) + encRoundBit m (f64Man b)
    let x := fenc p b e m
    M' < 2 ^ m →
    (f64Finite b → (bias e : Int) < (f64Exp b : Int) - 1023 → x.E = allOnes e ∧ x.M = M') ∧
    (f64Exp b ≠ 0 → (f64Exp b : Int) - 1023 < 1 - bias e → x.E = 1 ∧ x.M = M') ∧
    (f64Exp b = 0 → x.E = 0 ∧ x.M = M') ∧
    (f64IsNan b = true → M' = 0 → x.E = allOnes e ∧ x.M = 0) ∧
    (e = 1 → f64Exp b ≠ 0 → x.E = 1)) ∧
  (∀ (p : CarryPolicy) (b : F64), fenc p b 11 52 = ⟨11, 52, f64Sign b, f64Exp b, f64Man b⟩) ∧
  (∀ p : CarryPolicy, (fenc p 0x47F0000000000000#64 8 23).pattern = 0x7F800000 ∧
    (fenc p 0x47F8000000000000#64 8 23).pattern = 0x7FC00000 ∧
    (fenc p 0x37D0000000000000#64 8 23).pattern = 0x00800000 ∧
    (fenc p 0x0008000000000000#64 8 23).pattern = 0x00400000 ∧
    (fenc p 0x7FF0000000000001#64 8 23).pattern = 0x7F800000)

/-- What 45_fp_pack_unpack.md R286 says of values: where the exponent is in the normal range of the widths and
the result is finite, `fenc` rounds the value to a multiple of its last place, half up in magnitude. This is so
under `propagate`, and under `drop` where the rounded mantissa does not carry; where it does, `drop` leaves the
power of two of the exponent (R287). -/
def Obligations.EncodeRoundsHalfUp : Prop :=
  ∀ (p : CarryPolicy) (b : F64) (e m : Nat), 1 ≤ e → e ≤ 11 → 1 ≤ m → m ≤ 52 → f64Exp b ≠ 0 →
    let u : Int := (f64Exp b : Int) - 1023
    let M' := encTruncated m (f64Man b) + encRoundBit m (f64Man b)
    let x := fenc p b e m
    1 - bias e ≤ u → u ≤ bias e → x.E ≠ allOnes e →
    (p = .propagate ∨ M' < 2 ^ m → x.value
      = signFactor (f64Sign b) * (⌊|f64Value b| / (2 : ℚ) ^ (u - m) + 1 / 2⌋ : ℚ) * (2 : ℚ) ^ (u - m)) ∧
    (p = .drop → M' = 2 ^ m → x.value = signFactor (f64Sign b) * (2 : ℚ) ^ u)

/-- FREAD (45_fp_pack_unpack.md R305), and `fdec` as R290 and R291 define it: infinities and NaNs by the field, every
other container its exact value, by the source's own formula and by its two closed forms. -/
def Obligations.DecodeValue : Prop :=
  (∀ (rs1 : RegIdx) (x : FltC) (s : State), s.reg rs1 = .flt x → Answers (.fread rs1) s (.f64 (fdec x))) ∧
  ∀ x : FltC, x.wf = true →
    (x.E = 2 ^ x.e - 1 → x.M = 0 →
      fdec x = if x.sg then 0xFFF0000000000000#64 else 0x7FF0000000000000#64) ∧
    (x.E = 2 ^ x.e - 1 → x.M ≠ 0 → fdec x = 0x7FF8000000000000#64) ∧
    (x.E ≠ 2 ^ x.e - 1 → f64Finite (fdec x) ∧ f64Sign (fdec x) = x.sg ∧ f64Value (fdec x) = x.value) ∧
    (0 < x.E → x.E < 2 ^ x.e - 1 → x.value
      = signFactor x.sg * (1 + x.M / 2 ^ x.m) * (2 : ℚ) ^ ((x.E : ℤ) - (2 ^ (x.e - 1) - 1))) ∧
    (x.E = 0 → x.value
      = signFactor x.sg * (x.M / 2 ^ x.m) * (2 : ℚ) ^ (1 - ((2 : ℤ) ^ (x.e - 1) - 1))) ∧
    (x.E = 0 → x.M = 0 →
      fdec x = if x.sg then 0x8000000000000000#64 else 0x0000000000000000#64)

/-- 45_fp_pack_unpack.md R293: which containers survive decoding and encoding. -/
def Obligations.DecodeEncodeRoundTrips : Prop :=
  ∀ (p : CarryPolicy) (x : FltC), x.wf = true →
    (((0 < x.E ∧ x.E < 2 ^ x.e - 1) ∨ x.M = 0) → fenc p (fdec x) x.e x.m = x) ∧
    (x.E = 2 ^ x.e - 1 → x.M ≠ 0 → fenc p (fdec x) x.e x.m = ⟨x.e, x.m, false, 2 ^ x.e - 1, 2 ^ (x.m - 1)⟩) ∧
    (x.E = 0 → x.M ≠ 0 → x.e < 11 → f64Exp (fdec x) ≠ 0 ∧ f64Finite (fdec x) ∧ (fenc p (fdec x) x.e x.m).E = 1 ∧
      fenc p (fdec x) x.e x.m ≠ x) ∧
    (x.E = 0 → x.M ≠ 0 → x.e = 11 → fenc p (fdec x) x.e x.m = x)

/-! ## Float arithmetic -/

/-- FNEG, FABS and FPOS for any host (46_fp_arith.md R335 to R337): decode, the host function, encode in the
operand's widths, with no NaN draw (R333). -/
def Obligations.FltUnary : Prop :=
  ∀ (rd rs1 : RegIdx) (a : FltC) (s : State), s.reg rs1 = .flt a →
    let put := fun r : F64 => Reg.flt (fenc s.config.carryPolicy r a.e a.m)
    Writes (.fneg rd rs1) s rd (put (s.host.neg (fdec a))) ∧
    Writes (.fabs rd rs1) s rd (put (s.host.abs (fdec a))) ∧
    Writes (.fpos rd rs1) s rd (put (s.host.pos (fdec a)))

/-- FNEG, FABS and FPOS with the default host (46_fp_arith.md R335 to R337; log 9): on normal numbers, zeros and
infinities, and on denormals of `e = 11`, they act on the sign alone; a denormal of `e < 11` gets the smallest
normal exponent and keeps the mantissa bits below its leading one (45_fp_pack_unpack.md R289, R293); a NaN becomes
the one NaN of the corner cases. -/
def Obligations.FltUnaryDefaultHost : Prop :=
  ∀ (rd rs1 : RegIdx) (a : FltC) (s : State), s.reg rs1 = .flt a → a.wf = true → s.config.host = .reference →
    (((0 < a.E ∧ a.E < 2 ^ a.e - 1) ∨ a.M = 0 ∨ (a.E = 0 ∧ a.e = 11)) →
      Writes (.fneg rd rs1) s rd (.flt { a with sg := !a.sg }) ∧
      Writes (.fabs rd rs1) s rd (.flt { a with sg := false }) ∧
      Writes (.fpos rd rs1) s rd (.flt a)) ∧
    (a.E = 0 → a.M ≠ 0 → a.e < 11 →
      let M := (a.M - 2 ^ Nat.log2 a.M) * 2 ^ (a.m - Nat.log2 a.M)
      Writes (.fneg rd rs1) s rd (.flt ⟨a.e, a.m, !a.sg, 1, M⟩) ∧
      Writes (.fabs rd rs1) s rd (.flt ⟨a.e, a.m, false, 1, M⟩) ∧
      Writes (.fpos rd rs1) s rd (.flt ⟨a.e, a.m, a.sg, 1, M⟩)) ∧
    (a.E = 2 ^ a.e - 1 → a.M ≠ 0 →
      Writes (.fneg rd rs1) s rd (.flt ⟨a.e, a.m, true, 2 ^ a.e - 1, 2 ^ (a.m - 1)⟩) ∧
      Writes (.fabs rd rs1) s rd (.flt ⟨a.e, a.m, false, 2 ^ a.e - 1, 2 ^ (a.m - 1)⟩) ∧
      Writes (.fpos rd rs1) s rd (.flt ⟨a.e, a.m, false, 2 ^ a.e - 1, 2 ^ (a.m - 1)⟩))

/-- FADD, FSUB and FMUL for any host (46_fp_arith.md R330, R331, R333, R340 to R342): the promoted widths in the
copying form, the receiver's in the in-place form (R334, R350 to R352). -/
def Obligations.FltAddSubMul : Prop :=
  ∀ (rd rs1 rs2 : RegIdx) (a b : FltC) (s : State), s.reg rs1 = .flt a → s.reg rs2 = .flt b →
    let drawn := fun r : F64 => if f64IsNan r then nanPattern s.config.nanDraw else r
    let put := fun r : F64 => Reg.flt (fenc s.config.carryPolicy (drawn r) (max a.e b.e) (max a.m b.m))
    let own := fun r : F64 => Reg.flt (fenc s.config.carryPolicy (drawn r) a.e a.m)
    Writes (.fadd rd rs1 rs2) s rd (put (s.host.add (fdec a) (fdec b))) ∧
    Writes (.fsub rd rs1 rs2) s rd (put (s.host.sub (fdec a) (fdec b))) ∧
    Writes (.fmul rd rs1 rs2) s rd (put (s.host.mul (fdec a) (fdec b))) ∧
    Writes (.faddIp rs1 rs2) s rs1 (own (s.host.add (fdec a) (fdec b))) ∧
    Writes (.fsubIp rs1 rs2) s rs1 (own (s.host.sub (fdec a) (fdec b))) ∧
    Writes (.fmulIp rs1 rs2) s rs1 (own (s.host.mul (fdec a) (fdec b)))

/-- FDIV, FFDIV and FMOD for any host and a divisor that is not ±0 (46_fp_arith.md R343 to R345, R353 to R355);
the default host's floor division and modulo never fail (60_exceptions.md R383; log 9). -/
def Obligations.FltDivision : Prop :=
  (∀ (rd rs1 rs2 : RegIdx) (a b : FltC) (s : State), s.reg rs1 = .flt a → s.reg rs2 = .flt b →
    fdec b ≠ 0x0000000000000000#64 → fdec b ≠ 0x8000000000000000#64 →
    let drawn := fun r : F64 => if f64IsNan r then nanPattern s.config.nanDraw else r
    let put := fun r : F64 => Reg.flt (fenc s.config.carryPolicy (drawn r) (max a.e b.e) (max a.m b.m))
    let own := fun r : F64 => Reg.flt (fenc s.config.carryPolicy (drawn r) a.e a.m)
    (Writes (.fdiv rd rs1 rs2) s rd (put (s.host.div (fdec a) (fdec b))) ∧
      Writes (.fdivIp rs1 rs2) s rs1 (own (s.host.div (fdec a) (fdec b)))) ∧
    (∀ r, s.host.floordiv (fdec a) (fdec b) = some r →
      Writes (.ffdiv rd rs1 rs2) s rd (put r) ∧ Writes (.ffdivIp rs1 rs2) s rs1 (own r)) ∧
    (∀ r, s.host.mod (fdec a) (fdec b) = some r →
      Writes (.fmod rd rs1 rs2) s rd (put r) ∧ Writes (.fmodIp rs1 rs2) s rs1 (own r))) ∧
  ∀ x y, (∃ r, referenceHost.floordiv x y = some r) ∧ ∃ r, referenceHost.mod x y = some r

/-- FPOW and FPOW.IP for any host (46_fp_arith.md R346, R356): the power, or HostFloatFault where it fails
(60_exceptions.md R383). -/
def Obligations.FltPower : Prop :=
  ∀ (rd rs1 rs2 : RegIdx) (a b : FltC) (s : State), s.reg rs1 = .flt a → s.reg rs2 = .flt b →
    let drawn := fun r : F64 => if f64IsNan r then nanPattern s.config.nanDraw else r
    (∀ r, hostPower s.host (fdec a) (fdec b) = some r →
      Writes (.fpow rd rs1 rs2) s rd
        (.flt (fenc s.config.carryPolicy (drawn r) (max a.e b.e) (max a.m b.m))) ∧
      Writes (.fpowIp rs1 rs2) s rs1 (.flt (fenc s.config.carryPolicy (drawn r) a.e a.m))) ∧
    (hostPower s.host (fdec a) (fdec b) = none →
      TakesFault (.fpow rd rs1 rs2) s .hostFloatFault ∧ TakesFault (.fpowIp rs1 rs2) s .hostFloatFault)

/-- The special cases of `pow`, in the order of 46_fp_arith.md R346, for every host (log 12); "integer" and "odd" are said
of the exponent's value. In the remaining case the host's own result is taken where neither exactness nor overflow
decides (log 11), and an infinite one fails; so no power of finite operands is an infinity. -/
def Obligations.PowerSpecialCases : Prop :=
  ∀ (h : HostF64) (x y : F64),
    let isInt := ∃ k : Int, f64Value y = k
    let odd := ∃ k : Int, f64Value y = 2 * k + 1
    let pos := f64Sign y = false
    let mag := f64Mag x
    let one := 0x3FF0000000000000
    (f64IsZero y = true → hostPower h x y = some 0x3FF0000000000000#64) ∧
    (f64IsZero y = false →
      (f64IsNan x = true → hostPower h x y = some x) ∧
      (f64IsNan x = false → f64IsNan y = true →
        hostPower h x y = some (if x = 0x3FF0000000000000#64 then 0x3FF0000000000000#64 else y)) ∧
      (f64IsNan x = false → f64IsInf y = true →
        (mag = one → hostPower h x y = some 0x3FF0000000000000#64) ∧
        (mag ≠ one → (pos ↔ one < mag) → hostPower h x y = some 0x7FF0000000000000#64) ∧
        (mag ≠ one → ¬(pos ↔ one < mag) → hostPower h x y = some 0x0000000000000000#64)) ∧
      (f64IsInf x = true → f64Finite y →
        (pos → odd → hostPower h x y = some x) ∧
        (pos → ¬odd → hostPower h x y = some 0x7FF0000000000000#64) ∧
        (¬pos → odd → hostPower h x y = some (f64Zero (f64Sign x))) ∧
        (¬pos → ¬odd → hostPower h x y = some 0x0000000000000000#64)) ∧
      (f64IsZero x = true → f64Finite y →
        (¬pos → hostPower h x y = none) ∧
        (pos → odd → hostPower h x y = some x) ∧
        (pos → ¬odd → hostPower h x y = some 0x0000000000000000#64)) ∧
      (f64Finite x → f64IsZero x = false → f64Sign x = true → f64Finite y →
        (¬isInt → hostPower h x y = none) ∧
        (isInt → ¬odd → hostPower h x y = hostPower h (refNeg x) y) ∧
        (odd → hostPower h x y = (hostPower h (refNeg x) y).map refNeg)) ∧
      (x = 0x3FF0000000000000#64 → hostPower h x y = some 0x3FF0000000000000#64) ∧
      (f64Finite x → f64IsZero x = false → f64Sign x = false → x ≠ 0x3FF0000000000000#64 → f64Finite y →
        (exactPow x y = none → powOverflows x y = true → hostPower h x y = none) ∧
        (exactPow x y = none → powOverflows x y = false →
          hostPower h x y = if f64IsInf (h.pow x y) then none else some (h.pow x y)))) ∧
    (f64Finite x → f64Finite y → ∀ r, hostPower h x y = some r → f64IsInf r = false)

/-- 93_implementation_defined.md I21 (log 12): for every host the power of a finite `x > 0` is exact where it is a
binary64 value. `x^y = c` is said without roots: `y` is `n / 2^d` and `c^(2^d) = x^n`. -/
def Obligations.PowerExact : Prop :=
  ∀ (h : HostF64) (x y c : F64) (n : Int) (d : Nat),
    f64Finite x → f64Finite y → f64Finite c → f64Sign x = false → f64Sign c = false →
    f64IsZero x = false → f64IsZero c = false →
    f64Value y = n / 2 ^ d → f64Value c ^ (2 ^ d) = f64Value x ^ n →
    hostPower h x y = some c

/-- The six float comparisons for any host (46_fp_arith.md R361 to R366). -/
def Obligations.FltCompare : Prop :=
  ∀ (rs1 rs2 : RegIdx) (a b : FltC) (s : State), s.reg rs1 = .flt a → s.reg rs2 = .flt b →
    let x := fdec a
    let y := fdec b
    Answers (.feq rs1 rs2) s (.bit (s.host.eq x y)) ∧ Answers (.fne rs1 rs2) s (.bit (!s.host.eq x y)) ∧
    Answers (.flt rs1 rs2) s (.bit (s.host.lt x y)) ∧
    Answers (.fle rs1 rs2) s (.bit (s.host.lt x y || s.host.eq x y)) ∧
    Answers (.fgt rs1 rs2) s (.bit (s.host.lt y x)) ∧
    Answers (.fge rs1 rs2) s (.bit (s.host.lt y x || s.host.eq x y))

/-- 46_fp_arith.md R360 with the default host (log 9), for containers of any widths: a NaN makes every comparison false
but FNE; otherwise the values are compared as extended reals, the two zeros equal. -/
def Obligations.FltCompareValues : Prop :=
  ∀ (rs1 rs2 : RegIdx) (a b : FltC) (s : State), s.reg rs1 = .flt a → s.reg rs2 = .flt b →
    a.wf = true → b.wf = true → s.config.host = .reference →
    ((a.isNan = true ∨ b.isNan = true) →
      Answers (.fne rs1 rs2) s (.bit true) ∧
      ∀ i ∈ [Instr.feq rs1 rs2, .flt rs1 rs2, .fle rs1 rs2, .fgt rs1 rs2, .fge rs1 rs2],
        Answers i s (.bit false)) ∧
    (a.isNan = false → b.isNan = false →
      let val := fun c : FltC => if c.E = 2 ^ c.e - 1
        then (if c.sg then (⊥ : WithBot (WithTop ℚ)) else ((⊤ : WithTop ℚ) : WithBot (WithTop ℚ)))
        else ((c.value : WithTop ℚ) : WithBot (WithTop ℚ))
      Answers (.feq rs1 rs2) s (.bit (decide (val a = val b))) ∧
      Answers (.fne rs1 rs2) s (.bit (decide (val a ≠ val b))) ∧
      Answers (.flt rs1 rs2) s (.bit (decide (val a < val b))) ∧
      Answers (.fle rs1 rs2) s (.bit (decide (val a ≤ val b))) ∧
      Answers (.fgt rs1 rs2) s (.bit (decide (val a > val b))) ∧
      Answers (.fge rs1 rs2) s (.bit (decide (val a ≥ val b))))

/-- 46_fp_arith.md R333: whichever pattern `nan_draw` is, the encoded NaN result differs in its sign alone, under
both carry policies. -/
def Obligations.NanResult : Prop :=
  ∀ (p : CarryPolicy) (d : NanDraw) (e m : Nat), 1 ≤ e → e ≤ 11 → 1 ≤ m → m ≤ 52 →
    fenc p (nanPattern d) e m = ⟨e, m, (nanPattern d).getLsbD 63, 2 ^ e - 1, 2 ^ (m - 1)⟩ ∧
    (d = .positive → nanPattern d = 0x7FF8000000000000#64) ∧
    (d = .negative → nanPattern d = 0xFFF8000000000000#64)

/-- The default host's add, sub, mul and div of finite values are the exact results rounded to nearest, ties to
even (10_state.md R45: from general knowledge; log 9). -/
def Obligations.DefaultHostRounds : Prop :=
  ∀ x y : F64, f64Finite x → f64Finite y →
    RoundsTo (f64Value x + f64Value y) (refAdd x y) ∧ RoundsTo (f64Value x - f64Value y) (refSub x y) ∧
    RoundsTo (f64Value x * f64Value y) (refMul x y) ∧
    (f64IsZero y = false → RoundsTo (f64Value x / f64Value y) (refDiv x y))

/-- The corner cases of the default host that 46_fp_arith.md R340 to R343 name (log 9): invalid operations give
a NaN, `x - x` is `+0`, a NaN operand gives a NaN, division by an infinity a signed zero. -/
def Obligations.DefaultHostCorners : Prop :=
  let inf := 0x7FF0000000000000#64
  let negInf := 0xFFF0000000000000#64
  (f64IsNan (refAdd inf negInf) = true ∧ f64IsNan (refAdd negInf inf) = true) ∧
  (f64IsNan (refSub inf inf) = true ∧ f64IsNan (refSub negInf negInf) = true) ∧
  (∀ x y, f64IsZero x = true → f64IsInf y = true →
    f64IsNan (refMul x y) = true ∧ f64IsNan (refMul y x) = true) ∧
  (∀ x y, f64IsInf x = true → f64IsInf y = true → f64IsNan (refDiv x y) = true) ∧
  (∀ x, f64Finite x → refSub x x = 0x0000000000000000#64) ∧
  (∀ x y, f64Finite x → f64IsInf y = true →
    refDiv x y = if f64Sign x = f64Sign y then 0x0000000000000000#64 else 0x8000000000000000#64) ∧
  (∀ x y, (f64IsNan x = true ∨ f64IsNan y = true) →
    f64IsNan (refAdd x y) = true ∧ f64IsNan (refSub x y) = true ∧ f64IsNan (refMul x y) = true ∧
      f64IsNan (refDiv x y) = true)

/-- The default host's `fmod`, `mod` and `floordiv` (46_fp_arith.md R344, R345; log 9). `fmod` is the exact
remainder of truncating division, with the sign of `x`. `mod` is that remainder, or its rounded sum with `y` where
the signs differ, and a zero has the sign of `y`. `floordiv` is the algorithm of R344 said of values, each of its
operations rounded; by an infinity it is `-1.0` where the signs differ, else a signed zero (`1 // -∞` is `-1.0`).
An infinite `x`, or a NaN, gives a NaN. -/
def Obligations.DefaultHostModulo : Prop :=
  (∀ x y : F64, f64Finite x → f64IsNan y = false → f64IsZero y = false →
    let md := fmod x y
    let adjust := !f64IsZero md && (f64Sign md != f64Sign y)
    (f64Finite y →
      let q := f64Value x / f64Value y
      let n : Int := if 0 ≤ q then ⌊q⌋ else ⌈q⌉
      f64Finite md ∧ f64Sign md = f64Sign x ∧ f64Value md = f64Value x - f64Value y * n) ∧
    (f64IsInf y = true → md = x) ∧
    (f64IsZero md = true → refMod x y = f64Zero (f64Sign y)) ∧
    (f64IsZero md = false → adjust = false → refMod x y = md) ∧
    (adjust = true → f64Finite y → RoundsTo (f64Value md + f64Value y) (refMod x y)) ∧
    (adjust = true → f64IsInf y = true → refMod x y = y) ∧
    (f64IsNan (refMod x y) = false ∧ f64Sign (refMod x y) = f64Sign y) ∧
    (f64IsInf y = true →
      refFloordiv x y = if adjust then 0xBFF0000000000000#64 else f64Zero (f64Sign x != f64Sign y)) ∧
    (f64Finite y → ∃ a b d : F64,
      RoundsTo (f64Value x - f64Value md) a ∧ RoundsTo (f64Value a / f64Value y) b ∧
      (adjust = true → f64Finite b → RoundsTo (f64Value b - 1) d) ∧
      (adjust = false ∨ f64IsInf b = true → d = b) ∧
      (f64IsZero d = true → refFloordiv x y = f64Zero (f64Sign x != f64Sign y)) ∧
      (f64IsInf d = true → refFloordiv x y = d) ∧
      (f64Finite d → f64IsZero d = false → ∃ f g : F64,
        f64Finite f ∧ f64Value f = ⌊f64Value d⌋ ∧ f64Sign f = f64Sign d ∧ RoundsTo (f64Value d - f64Value f) g ∧
        (1 / 2 < f64Value g → RoundsTo (f64Value f + 1) (refFloordiv x y)) ∧
        (f64Value g ≤ 1 / 2 → refFloordiv x y = f)))) ∧
  (∀ x y : F64, (f64IsInf x = true ∨ f64IsNan x = true ∨ f64IsNan y = true) →
    f64IsNan (fmod x y) = true ∧ f64IsNan (refMod x y) = true ∧ f64IsNan (refFloordiv x y) = true)
end

