-- ==== Sys2Proof/Laws/Mask.lean ====
section
/-! SUPPORT. Masking as modular reduction (40_int_construct.md R132, R133): range, congruence, uniqueness. -/

namespace Sys2Proof.Machine

theorem two_pow_pos_int (n : Nat) : (0 : Int) < 2 ^ n := by positivity

theorem two_pow_pred (n : Nat) (h : 1 ≤ n) : (2 : Int) ^ n = 2 * 2 ^ (n - 1) := by
  obtain ⟨k, rfl⟩ : ∃ k, n = k + 1 := ⟨n - 1, by omega⟩
  simp [pow_succ, mul_comm]

theorem zext_nonneg (n : Nat) (x : Int) : 0 ≤ zext n x :=
  Int.emod_nonneg _ (two_pow_pos_int n).ne'

theorem zext_lt (n : Nat) (x : Int) : zext n x < 2 ^ n := Int.emod_lt_of_pos _ (two_pow_pos_int n)

theorem zext_congr {n : Nat} {x y : Int} (h : x % 2 ^ n = y % 2 ^ n) : zext n x = zext n y := h

/-- R132 with the reduced value written out. -/
theorem mask_eq (n : Nat) (s : Bool) (x : Int) :
    mask n s x = if s = true ∧ 2 ^ (n - 1) ≤ x % 2 ^ n then x % 2 ^ n - 2 ^ n else x % 2 ^ n := rfl

/-- The mask depends only on the value modulo `2^n` (R133). -/
theorem mask_congr {n : Nat} {x y : Int} (s : Bool) (h : x % 2 ^ n = y % 2 ^ n) : mask n s x = mask n s y := by
  simp only [mask_eq, h]

/-- The mask is congruent to its argument (R133). -/
theorem mask_emod (n : Nat) (s : Bool) (x : Int) : mask n s x % 2 ^ n = x % 2 ^ n := by
  rw [mask_eq]
  split
  · rw [Int.sub_emod_right, Int.emod_emod_of_dvd _ (dvd_refl _)]
  · exact Int.emod_emod_of_dvd _ (dvd_refl _)

@[simp] theorem zext_mask (n : Nat) (s : Bool) (x : Int) : zext n (mask n s x) = zext n x := mask_emod n s x

/-- Masking a masked value changes nothing (R133). -/
@[simp] theorem mask_mask (n : Nat) (s : Bool) (x : Int) : mask n s (mask n s x) = mask n s x :=
  mask_congr s (mask_emod n s x)

/-- Adding a multiple of `2^n` changes nothing (R133). -/
theorem mask_add_mul (n : Nat) (s : Bool) (x k : Int) : mask n s (x + k * 2 ^ n) = mask n s x :=
  mask_congr s (by simp)

/-- The range of an unsigned shape (10_state.md R33). -/
theorem mask_unsigned (n : Nat) (x : Int) : mask n false x = zext n x := by simp [mask_eq, zext]

theorem mask_unsigned_range (n : Nat) (x : Int) : 0 ≤ mask n false x ∧ mask n false x < 2 ^ n := by
  rw [mask_unsigned]
  exact ⟨zext_nonneg n x, zext_lt n x⟩

/-- The range of a signed shape (10_state.md R33). -/
theorem mask_signed_range (n : Nat) (h : 1 ≤ n) (x : Int) :
    -(2 ^ (n - 1)) ≤ mask n true x ∧ mask n true x < 2 ^ (n - 1) := by
  have h2 := two_pow_pred n h
  have h0 := zext_nonneg n x
  have h1 := zext_lt n x
  rw [mask_eq]
  unfold zext at h0 h1
  simp only [true_and]
  split <;> constructor <;> omega

/-- A value in the range of its shape is its own mask (10_state.md R33). -/
theorem mask_eq_self_unsigned {n : Nat} {x : Int} (h0 : 0 ≤ x) (h1 : x < 2 ^ n) : mask n false x = x := by
  rw [mask_unsigned]
  exact Int.emod_eq_of_lt h0 h1

theorem mask_eq_self_signed {n : Nat} (hn : 1 ≤ n) {x : Int} (h0 : -(2 ^ (n - 1)) ≤ x) (h1 : x < 2 ^ (n - 1)) :
    mask n true x = x := by
  have h2 := two_pow_pred n hn
  have hp := two_pow_pos_int (n - 1)
  simp only [mask_eq, true_and]
  rcases lt_or_ge x 0 with hx | hx
  · have : x % 2 ^ n = x + 2 ^ n := by
      rw [← Int.add_emod_right]
      exact Int.emod_eq_of_lt (by omega) (by omega)
    rw [this, if_pos (by omega)]
    omega
  · rw [Int.emod_eq_of_lt hx (by omega), if_neg (by omega)]

/-- A constructed container is one of R33. -/
theorem mkInt_wf {n : Nat} {s : Bool} (h1 : 1 ≤ n) (h2 : n ≤ wMax) (x : Int) : (mkInt n s x).wf = true := by
  simp [IntC.wf, mkInt, h1, h2]

theorem IntC.wf_iff (c : IntC) : c.wf = true ↔ 1 ≤ c.n ∧ c.n ≤ wMax ∧ c.v = mask c.n c.s c.v := by
  simp [IntC.wf, and_assoc]

/-- The pattern of a container, as an integer (10_state.md R34). -/
theorem pattern_cast (a : IntC) : (a.pattern : Int) = zext a.n a.v := Int.toNat_of_nonneg (zext_nonneg _ _)

theorem pattern_lt (a : IntC) : a.pattern < 2 ^ a.n := by
  have h := zext_lt a.n a.v
  rw [← pattern_cast] at h
  exact_mod_cast h

/-- A container's value is the mask of its pattern (R273). -/
theorem mask_pattern (a : IntC) (h : a.wf = true) : mask a.n a.s a.pattern = a.v := by
  rw [pattern_cast]
  have := (IntC.wf_iff a).1 h
  rw [mask_congr (y := a.v) a.s (by simp [zext])]
  exact this.2.2.symm

theorem slice_lt (x hi lo : Nat) : slice x hi lo < 2 ^ (hi + 1 - lo) := Nat.mod_lt _ (by positivity)

end Sys2Proof.Machine
end

