-- ==== Sys2Proof/Laws/Arith.lean ====
section
/-! SUPPORT. The computed forms of IPOW, ISHL, ISHR and the bitwise commands agree with the exact ones of
the spec (00_scope.md R16; 41_int_arith.md R171; 42_int_bitwise_shift.md R205, R206; log 15). -/

namespace Sys2Proof.Machine

/-! ## Powers -/

theorem powMod_eq (m fuel b k : Nat) (h : k < 2 ^ fuel) : powMod m fuel b k = b ^ k % m := by
  induction fuel generalizing b k with
  | zero =>
    obtain rfl : k = 0 := by simpa using h
    simp [powMod]
  | succ f ih =>
    simp only [powMod]
    split <;> rename_i hk
    · simp [hk]
    · rw [ih _ _ (by rw [Nat.pow_succ] at h; omega)]
      have hsq : (b * b % m) ^ (k / 2) % m = b ^ (2 * (k / 2)) % m := by
        rw [← Nat.pow_mod, Nat.pow_mul, Nat.pow_two]
      split <;> rename_i hodd
      · rw [hsq, Nat.mod_mul_mod, ← Nat.pow_succ]
        congr 2
        omega
      · rw [hsq]
        congr 2
        omega

/-- The computed power is congruent to the exact one modulo `2^n` (R171). -/
theorem powMasked_emod (n : Nat) (A : Int) (k : Nat) : powMasked n A k % 2 ^ n = A ^ k % 2 ^ n := by
  have hk : k < 2 ^ (Nat.log2 k + 1) := Nat.lt_log2_self
  have hz : (((zext n A).toNat : Nat) : Int) = A % 2 ^ n := Int.toNat_of_nonneg (zext_nonneg n A)
  simp only [powMasked, powMod_eq _ _ _ _ hk]
  push_cast
  rw [hz, Int.emod_emod_of_dvd _ (dvd_refl _)]
  exact ((Int.mod_modEq A (2 ^ n)).pow k)

theorem mask_powMasked (n : Nat) (s : Bool) (A : Int) (k : Nat) :
    mask n s (powMasked n A k) = mask n s (A ^ k) := mask_congr s (powMasked_emod n A k)

/-! ## Shifts -/

/-- A left shift by a bounded amount is the exact one, modulo `2^n` (R205). -/
theorem mask_shiftLeft (n : Nat) (s : Bool) (v : Int) (k : Nat) :
    mask n s (shiftLeft n v k) = mask n s (v * 2 ^ k) := by
  apply mask_congr
  unfold shiftLeft
  rcases Nat.le_total k n with h | h
  · rw [Nat.min_eq_left h]
  · rw [Nat.min_eq_right h]
    obtain ⟨j, rfl⟩ := Nat.exists_eq_add_of_le h
    rw [pow_add, ← mul_assoc, mul_right_comm]
    simp

/-- A right shift by a bounded amount is the exact one (R206). -/
theorem shiftRight_eq (v : Int) (k : Nat) : shiftRight v k = v / 2 ^ k := by
  unfold shiftRight
  rcases Nat.le_total k (Nat.log2 v.natAbs + 1) with h | h
  · rw [Nat.min_eq_left h]
  · rw [Nat.min_eq_right h]
    have hv : v.natAbs < 2 ^ (Nat.log2 v.natAbs + 1) := Nat.lt_log2_self
    have hp : (2 : Nat) ^ (Nat.log2 v.natAbs + 1) ≤ 2 ^ k := Nat.pow_le_pow_right (by decide) h
    generalize Nat.log2 v.natAbs + 1 = l at *
    have hv' : (v.natAbs : Int) < (2 : Int) ^ l := by exact_mod_cast hv
    have hp' : (2 : Int) ^ l ≤ 2 ^ k := by exact_mod_cast hp
    rcases lt_or_ge v 0 with hneg | hpos
    · have e : ∀ j : Nat, (v.natAbs : Int) ≤ 2 ^ j → v / 2 ^ j = -1 := fun j hj => by
        rw [Int.ediv_eq_iff_of_pos (two_pow_pos_int j)]
        constructor <;> omega
      rw [e l (by omega), e k (by omega)]
    · rw [Int.ediv_eq_zero_of_lt hpos (by omega), Int.ediv_eq_zero_of_lt hpos (by omega)]

/-! ## Bitwise operators: each bit is the operation on the operands' bits -/

theorem add_eq_or_of_disjoint {a b : Nat} (h : a &&& b = 0) : a + b = a ||| b := by
  have hw : a + b < 2 ^ (a + b) := Nat.lt_two_pow_self
  have hv := BitVec.add_eq_or_of_and_eq_zero (BitVec.ofNat (a + b) a) (BitVec.ofNat (a + b) b)
    (by rw [← BitVec.ofNat_and, h])
  have := congrArg BitVec.toNat hv
  rwa [← BitVec.ofNat_add, ← BitVec.ofNat_or, BitVec.toNat_ofNat, BitVec.toNat_ofNat,
    Nat.mod_eq_of_lt hw, Nat.mod_eq_of_lt (Nat.or_lt_two_pow (by omega) (by omega))] at this

theorem sub_land_eq_ldiff (m n : Nat) : m - (m &&& n) = Nat.ldiff m n := by
  have h : m = Nat.ldiff m n + (m &&& n) := by
    have hd : Nat.ldiff m n &&& (m &&& n) = 0 := by
      apply Nat.eq_of_testBit_eq
      intro i
      simp only [Nat.testBit_land, Nat.testBit_ldiff, Nat.zero_testBit]
      cases m.testBit i <;> cases n.testBit i <;> rfl
    rw [add_eq_or_of_disjoint hd]
    apply Nat.eq_of_testBit_eq
    intro i
    simp only [Nat.testBit_or, Nat.testBit_land, Nat.testBit_ldiff]
    cases m.testBit i <;> cases n.testBit i <;> rfl
  omega

theorem intAnd_eq_land (a b : Int) : intAnd a b = Int.land a b := by
  cases a <;> cases b <;> simp [intAnd, Int.land, sub_land_eq_ldiff]

theorem intOr_eq_lor (a b : Int) : intOr a b = Int.lor a b := by
  cases a <;> cases b <;> simp [intOr, Int.lor, sub_land_eq_ldiff]

theorem intXor_eq_xor (a b : Int) : intXor a b = Int.xor a b := by
  cases a <;> cases b <;> simp [intXor, Int.xor]

theorem intAnd_testBit (a b : Int) (i : Nat) : (intAnd a b).testBit i = (a.testBit i && b.testBit i) := by
  rw [intAnd_eq_land, Int.testBit_land]

theorem intOr_testBit (a b : Int) (i : Nat) : (intOr a b).testBit i = (a.testBit i || b.testBit i) := by
  rw [intOr_eq_lor, Int.testBit_lor]

theorem intXor_testBit (a b : Int) (i : Nat) : (intXor a b).testBit i = (a.testBit i ^^ b.testBit i) := by
  rw [intXor_eq_xor, Int.testBit_lxor]

end Sys2Proof.Machine
end

