-- ==== Sys2Proof/Laws/State.lean ====
section
/-! SUPPORT. One lemma per field per update of State, and what a register reads after a write. -/

namespace Sys2Proof.Machine

variable (s : State) (i : RegIdx) (r : Reg) (st : Status) (out : Option Out) (m : Memory)
  (rest : List HostEvent) (h : Option HostIn) (cs : List Host.Cell) (w : Word)

@[simp] theorem setReg_mem : (s.setReg i r).mem = s.mem := rfl
@[simp] theorem setReg_config : (s.setReg i r).config = s.config := rfl
@[simp] theorem setReg_pending : (s.setReg i r).pending = s.pending := rfl
@[simp] theorem setReg_hostIn : (s.setReg i r).hostIn = s.hostIn := rfl
@[simp] theorem setReg_response : (s.setReg i r).response = s.response := rfl

@[simp] theorem respond_regs : (s.respond st out).regs = s.regs := rfl
@[simp] theorem respond_mem : (s.respond st out).mem = s.mem := rfl
@[simp] theorem respond_config : (s.respond st out).config = s.config := rfl
@[simp] theorem respond_pending : (s.respond st out).pending = s.pending := rfl
@[simp] theorem respond_hostIn : (s.respond st out).hostIn = s.hostIn := rfl
@[simp] theorem respond_response : (s.respond st out).response = some ⟨st, out⟩ := rfl
@[simp] theorem respond_reg : (s.respond st out).reg i = s.reg i := rfl

@[simp] theorem withMem_reg : ({ s with mem := m } : State).reg i = s.reg i := rfl

@[simp] theorem takeCommand_reg : (takeCommand s rest h).reg i = s.reg i := rfl
@[simp] theorem takeCommand_mem : (takeCommand s rest h).mem = s.mem := rfl
@[simp] theorem takeCommand_config : (takeCommand s rest h).config = s.config := rfl
@[simp] theorem takeCommand_pending : (takeCommand s rest h).pending = rest := rfl
@[simp] theorem takeCommand_hostIn : (takeCommand s rest h).hostIn = h := rfl
@[simp] theorem takeCommand_response : (takeCommand s rest h).response = s.response := rfl

@[simp] theorem resetTo_mem : (resetTo s cs).mem = memOfCells cs := rfl
@[simp] theorem resetTo_config : (resetTo s cs).config = s.config := rfl
@[simp] theorem resetTo_pending : (resetTo s cs).pending = s.pending := rfl
@[simp] theorem resetTo_hostIn : (resetTo s cs).hostIn = none := rfl
@[simp] theorem resetTo_response : (resetTo s cs).response = none := rfl

@[simp] theorem issue_pending : (s.issue w h).pending = .command w h :: s.pending := rfl

/-- What a register reads after a write of a register. -/
theorem setReg_reg (j : RegIdx) : (s.setReg i r).reg j = if j = i then r else s.reg j := by
  simp only [State.setReg, State.reg, Vector.get_eq_getElem, Vector.getElem_set, Fin.ext_iff]
  split <;> rename_i h
  · simp [h]
  · rw [if_neg fun e => h e.symm]

@[simp] theorem setReg_reg_self : (s.setReg i r).reg i = r := by simp [setReg_reg]

theorem setReg_reg_ne {j : RegIdx} (h : j ≠ i) : (s.setReg i r).reg j = s.reg j := by
  simp [setReg_reg, h]

/-- Every register is Unwritten after reset. -/
@[simp] theorem reset_reg : State.reset.reg i = .unwritten := by
  simp [State.reset, State.reg, Vector.get_eq_getElem]

@[simp] theorem resetTo_reg : (resetTo s cs).reg i = .unwritten := reset_reg i

end Sys2Proof.Machine
end

