-- ==== Sys2Proof/Laws/Memory.lean ====
section
/-! SUPPORT. MEM: what a read gives after a write, and that every operation keeps the canonical form. -/

namespace Sys2Proof.Machine

/-! ## Reading -/

theorem memRead_memCell (a : Nat) (b : Byte) (m : Memory) (h : memRead m a = memDefault a) (x : Nat) :
    memRead (memCell a b m) x = if x = a then b else memRead m x := by
  unfold memCell
  split <;> rename_i hb
  · split <;> simp_all
  · simp only [memRead, eq_comm]

/-- Below the first listed address, every address reads as unlisted. -/
theorem memRead_below {lo : Nat} {m : Memory} (h : m.wfFrom lo = true) {x : Nat} (hx : x < lo) :
    memRead m x = memDefault x := by
  induction m generalizing lo with
  | nil => rfl
  | cons c m ih =>
    simp only [Memory.wfFrom, Bool.and_eq_true, decide_eq_true_eq] at h
    simp only [memRead]
    rw [if_neg (by omega), ih h.2 (by omega)]

/-- A write changes what its address reads as and no other. -/
theorem memRead_memWrite_from {lo : Nat} {m : Memory} (h : m.wfFrom lo = true) (a : Nat) (b : Byte) (x : Nat) :
    memRead (memWrite m a b) x = if x = a then b else memRead m x := by
  induction m generalizing lo with
  | nil => exact memRead_memCell a b [] rfl x
  | cons c m ih =>
    simp only [Memory.wfFrom, Bool.and_eq_true, decide_eq_true_eq] at h
    unfold memWrite
    split
    · refine memRead_memCell a b _ ?_ x
      exact memRead_below (lo := c.1) (by simp [Memory.wfFrom, h]) (by omega)
    · split <;> rename_i hne hca
      · rw [memRead_memCell a b m (memRead_below h.2 (by omega))]
        simp only [memRead]
        split <;> rename_i hx
        · rfl
        · rw [if_neg (by omega)]
      · simp only [memRead, ih h.2]
        by_cases hx : c.1 = x
        · simp [hx, show x ≠ a by omega]
        · simp [hx]

theorem memRead_memWrite {m : Memory} (h : m.wf = true) (a : Nat) (b : Byte) (x : Nat) :
    memRead (memWrite m a b) x = if x = a then b else memRead m x :=
  memRead_memWrite_from h a b x

/-! ## The canonical form is kept -/

theorem Memory.wfFrom_mono {lo lo' : Nat} {m : Memory} (h : m.wfFrom lo = true) (hl : lo' ≤ lo) :
    m.wfFrom lo' = true := by
  cases m with
  | nil => rfl
  | cons c m =>
    simp only [Memory.wfFrom, Bool.and_eq_true, decide_eq_true_eq] at h ⊢
    exact ⟨⟨⟨by omega, h.1.1.2⟩, h.1.2⟩, h.2⟩

theorem memCell_wfFrom {lo a : Nat} {b : Byte} {m : Memory} (hlo : lo ≤ a) (ha : a < memSize)
    (h : m.wfFrom (a + 1) = true) : (memCell a b m).wfFrom lo = true := by
  unfold memCell
  split <;> rename_i hb
  · exact Memory.wfFrom_mono h (by omega)
  · simp [Memory.wfFrom, hlo, ha, hb, h]

theorem memWrite_wfFrom {lo : Nat} {m : Memory} (h : m.wfFrom lo = true) {a : Nat} (hlo : lo ≤ a)
    (ha : a < memSize) (b : Byte) : (memWrite m a b).wfFrom lo = true := by
  induction m generalizing lo with
  | nil => exact memCell_wfFrom hlo ha rfl
  | cons c m ih =>
    have hc := h
    simp only [Memory.wfFrom, Bool.and_eq_true, decide_eq_true_eq] at h
    unfold memWrite
    split
    · refine memCell_wfFrom hlo ha ?_
      simp only [Memory.wfFrom, Bool.and_eq_true, decide_eq_true_eq]
      exact ⟨⟨⟨by omega, h.1.1.2⟩, h.1.2⟩, h.2⟩
    · split
      · exact memCell_wfFrom hlo ha (Memory.wfFrom_mono h.2 (by omega))
      · simp only [Memory.wfFrom, Bool.and_eq_true, decide_eq_true_eq]
        exact ⟨h.1, ih h.2 (by omega)⟩

theorem memWrite_wf {m : Memory} (h : m.wf = true) {a : Nat} (ha : a < memSize) (b : Byte) :
    (memWrite m a b).wf = true := memWrite_wfFrom h (Nat.zero_le a) ha b

theorem memWriteBytes_wf {m : Memory} (h : m.wf = true) (bs : List Byte) {a : Nat}
    (ha : a + bs.length ≤ memSize) : (memWriteBytes m a bs).wf = true := by
  induction bs generalizing m a with
  | nil => exact h
  | cons b bs ih =>
    simp only [List.length_cons] at ha
    exact ih (memWrite_wf h (by omega) b) (by omega)

theorem memOfCells_wf (cs : List Host.Cell) : (memOfCells cs).wf = true := by
  induction cs with
  | nil => rfl
  | cons c cs ih =>
    simp only [memOfCells]
    split
    · exact memWrite_wf ih ‹_› c.2
    · exact ih

/-! ## Byte ranges -/

/-- What an address reads as after a range is written. -/
theorem memRead_memWriteBytes {m : Memory} (h : m.wf = true) (bs : List Byte) {a : Nat}
    (ha : a + bs.length ≤ memSize) (x : Nat) :
    memRead (memWriteBytes m a bs) x =
      if a ≤ x then (bs[x - a]?).getD (memRead m x) else memRead m x := by
  induction bs generalizing m a with
  | nil => simp [memWriteBytes]
  | cons b bs ih =>
    simp only [List.length_cons] at ha
    simp only [memWriteBytes]
    rw [ih (memWrite_wf h (by omega) b) (by omega), memRead_memWrite h]
    rcases Nat.lt_trichotomy x a with hx | hx | hx
    · simp [show ¬ a + 1 ≤ x by omega, show ¬ a ≤ x by omega, show x ≠ a by omega]
    · subst hx; simp
    · obtain ⟨k, rfl⟩ : ∃ k, x = a + 1 + k := ⟨x - a - 1, by omega⟩
      simp [show a + 1 + k - a = k + 1 by omega, show a ≤ a + 1 + k by omega,
        show a + 1 + k ≠ a by omega]

theorem memReadBytes_length (m : Memory) (a k : Nat) : (memReadBytes m a k).length = k := by
  induction k generalizing a with
  | zero => rfl
  | succ k ih => simp [memReadBytes, ih]

theorem memReadBytes_getElem? (m : Memory) (a k j : Nat) :
    (memReadBytes m a k)[j]? = if j < k then some (memRead m (a + j)) else none := by
  induction k generalizing a j with
  | zero => simp [memReadBytes]
  | succ k ih =>
    cases j with
    | zero => simp [memReadBytes]
    | succ j => simp [memReadBytes, ih, Nat.add_assoc, Nat.add_comm 1 j]

/-- A load right after a store of the same range reads the stored bytes (70_reset_and_hazards.md R405). -/
theorem memReadBytes_memWriteBytes {m : Memory} (h : m.wf = true) (bs : List Byte) {a : Nat}
    (ha : a + bs.length ≤ memSize) : memReadBytes (memWriteBytes m a bs) a bs.length = bs := by
  apply List.ext_getElem?
  intro j
  rw [memReadBytes_getElem?]
  split <;> rename_i hj
  · rw [memRead_memWriteBytes h bs ha]
    simp [hj]
  · simp only [Nat.not_lt] at hj
    simp [hj]

/-- What an address reads as in the contents that a list of cells names: the first cell of the address. -/
theorem memRead_memOfCells (cs : List Host.Cell) {x : Nat} (hx : x < memSize) :
    memRead (memOfCells cs) x = memRead cs x := by
  induction cs with
  | nil => rfl
  | cons c cs ih =>
    simp only [memOfCells]
    split <;> rename_i hc
    · rw [memRead_memWrite (memOfCells_wf cs), ih]
      simp only [memRead, eq_comm]
    · rw [ih]
      simp [memRead, show c.1 ≠ x by omega]

/-- Two memories in canonical form that read alike are equal. -/
theorem Memory.ext_wf {lo : Nat} {m m' : Memory} (h : m.wfFrom lo = true) (h' : m'.wfFrom lo = true)
    (hr : ∀ x, memRead m x = memRead m' x) : m = m' := by
  induction m generalizing lo m' with
  | nil =>
    cases m' with
    | nil => rfl
    | cons c m' =>
      simp only [Memory.wfFrom, Bool.and_eq_true, decide_eq_true_eq] at h'
      exact absurd (by simpa [memRead] using (hr c.1).symm) h'.1.2
  | cons c m ih =>
    simp only [Memory.wfFrom, Bool.and_eq_true, decide_eq_true_eq] at h
    cases m' with
    | nil => exact absurd (by simpa [memRead] using hr c.1) h.1.2
    | cons c' m' =>
      simp only [Memory.wfFrom, Bool.and_eq_true, decide_eq_true_eq] at h'
      have hadr : c.1 = c'.1 := by
        rcases Nat.lt_trichotomy c.1 c'.1 with hl | hl | hl
        · have := hr c.1
          simp only [memRead, if_true, if_neg (show c'.1 ≠ c.1 by omega)] at this
          exact absurd (this.trans (memRead_below h'.2 (by omega))) h.1.2
        · exact hl
        · have := (hr c'.1).symm
          simp only [memRead, if_true, if_neg (show c.1 ≠ c'.1 by omega)] at this
          exact absurd (this.trans (memRead_below h.2 (by omega))) h'.1.2
      have hb : c.2 = c'.2 := by simpa [memRead, hadr] using hr c.1
      obtain ⟨a, b⟩ := c
      obtain ⟨a', b'⟩ := c'
      obtain rfl : a = a' := hadr
      obtain rfl : b = b' := hb
      congr 1
      refine ih h.2 h'.2 fun x => ?_
      by_cases hx : a = x
      · subst hx
        rw [memRead_below h.2 (by simp), memRead_below h'.2 (by simp)]
      · simpa [memRead, hx] using hr x

end Sys2Proof.Machine
end

