-- ==== Sys2Proof/Laws/Bytes.lean ====
section
/-! SUPPORT. Byte order (20_memory.md R65): each byte of a pattern, and that the two directions agree. -/

namespace Sys2Proof.Machine

@[simp] theorem leBytes_length (P k : Nat) : (leBytes P k).length = k := by
  induction k generalizing P with
  | zero => rfl
  | succ k ih => simp [leBytes, ih]

@[simp] theorem bytesOf_length (P k : Nat) (bo : ByteOrder) : (bytesOf P k bo).length = k := by
  cases bo <;> simp [bytesOf]

/-- Byte `j` in little-endian order is `P[8j+7 : 8j]` (R65). -/
theorem leBytes_getElem? (P k j : Nat) :
    (leBytes P k)[j]? = if j < k then some (BitVec.ofNat 8 (P / 256 ^ j)) else none := by
  induction k generalizing P j with
  | zero => simp [leBytes]
  | succ k ih =>
    cases j with
    | zero => simp [leBytes]
    | succ j => simp [leBytes, ih, Nat.div_div_eq_div_mul, Nat.pow_succ, Nat.mul_comm]

/-- Byte `j` in either order (R65). -/
theorem bytesOf_getElem? (P k j : Nat) (bo : ByteOrder) :
    (bytesOf P k bo)[j]? =
      if j < k then some (BitVec.ofNat 8 (P / 256 ^ (match bo with | .little => j | .big => k - 1 - j)))
      else none := by
  cases bo with
  | little => exact leBytes_getElem? P k j
  | big =>
    simp only [bytesOf]
    by_cases hj : j < k
    · rw [List.getElem?_reverse (by simpa using hj), leBytes_length, leBytes_getElem?, if_pos hj,
        if_pos (by omega)]
    · simp [hj]

theorem leNat_leBytes (P k : Nat) : leNat (leBytes P k) = P % 256 ^ k := by
  induction k generalizing P with
  | zero => simp [leBytes, leNat, Nat.mod_one]
  | succ k ih =>
    simp only [leBytes, leNat, ih, BitVec.toNat_ofNat]
    rw [show (256 : Nat) ^ (k + 1) = 256 * 256 ^ k by ring, Nat.mod_mul]

/-- Decoding what was encoded in the same order gives it back, modulo the bytes' range. -/
theorem integerOf_bytesOf (P k : Nat) (bo : ByteOrder) : integerOf (bytesOf P k bo) bo = P % 256 ^ k := by
  cases bo <;> simp [integerOf, bytesOf, leNat_leBytes]

theorem leNat_lt (bs : List Byte) : leNat bs < 256 ^ bs.length := by
  induction bs with
  | nil => simp [leNat]
  | cons b bs ih =>
    simp only [leNat, List.length_cons, Nat.pow_succ]
    have := b.isLt
    omega

/-- A pattern of `w` bits fits its `ceil(w / 8)` bytes (R68). -/
theorem lt_byteLen {P w : Nat} (h : P < 2 ^ w) : P < 256 ^ byteLen w := by
  refine Nat.lt_of_lt_of_le h ?_
  rw [show (256 : Nat) = 2 ^ 8 by rfl, ← Nat.pow_mul]
  exact Nat.pow_le_pow_right (by decide) (by unfold byteLen; omega)

/-- A store and a load of a pattern that fits, at the same place and in the same order (R66). -/
theorem integerOf_stored {m : Memory} (hm : m.wf = true) {P w addr : Nat} (hP : P < 2 ^ w)
    (ha : addr + byteLen w ≤ memSize) (bo : ByteOrder) :
    integerOf (memReadBytes (memWriteBytes m addr (bytesOf P (byteLen w) bo)) addr (byteLen w)) bo = P := by
  have h := memReadBytes_memWriteBytes hm (bytesOf P (byteLen w) bo) (a := addr) (by simpa using ha)
  rw [bytesOf_length] at h
  rw [h, integerOf_bytesOf, Nat.mod_eq_of_lt (lt_byteLen hP)]

end Sys2Proof.Machine
end

