-- ==== Sys2Proof/Laws/Ops.lean ====
section
/-! SUPPORT. What each shared operation can do, said once. `Effect s r`: the ways in which a command that
starts in `s` can end; every meaning ends in one of them (Laws/Effect.lean). -/

namespace Sys2Proof.Machine

/-! ## Outcomes -/

@[simp] theorem raise_eq_next {s t : State} {f : Status} : raise s f = .next t ↔ t = s.respond f none := by
  simp [raise, eq_comm]

@[simp] theorem complete_eq_next {s t : State} {out : Option Out} :
    complete s out = .next t ↔ t = s.respond .ok out := by
  simp [complete, eq_comm]

/-- How a command ends: a fault, a value on HOST_OUT, a container in a register, or bytes in `MEM`. Under
`G` (the invariant, and the command well formed) the container is one of the spec's. -/
inductive Effect (s : State) (G : Prop) : Result → Prop
  | fault (f : Status) (hf : f ≠ .ok) : Effect s G (raise s f)
  | answer (out : Out) : Effect s G (complete s (some out))
  | writeInt (rd : RegIdx) (c : IntC) (hc : G → c.wf = true) : Effect s G (writeInt s rd c)
  | writeFlt (rd : RegIdx) (x : FltC) (hx : G → x.wf = true) : Effect s G (writeFlt s rd x)
  | store (addr : Nat) (bytes : List Byte) (h : addr + bytes.length ≤ memSize) :
      Effect s G (complete { s with mem := memWriteBytes s.mem addr bytes } none)

/-- Every way of ending is a next state (60_exceptions.md R370). -/
theorem Effect.next {s : State} {G : Prop} {r : Result} (h : Effect s G r) : ∃ t, r = .next t := by
  cases h <;> exact ⟨_, rfl⟩

/-! ## Operand fetches -/

section
variable {s : State} {i j : RegIdx} {a b : IntC} {x y : FltC}

@[simp] theorem withInt_int {k : IntC → Result} (h : s.reg i = .int a) : withInt s i k = k a := by
  simp [withInt, h]

@[simp] theorem withFlt_flt {k : FltC → Result} (h : s.reg i = .flt x) : withFlt s i k = k x := by
  simp [withFlt, h]

@[simp] theorem withInt2_int {k : IntC → IntC → Result} (h : s.reg i = .int a) (h' : s.reg j = .int b) :
    withInt2 s i j k = k a b := by
  simp [withInt2, h, h']

@[simp] theorem withFlt2_flt {k : FltC → FltC → Result} (h : s.reg i = .flt x) (h' : s.reg j = .flt y) :
    withFlt2 s i j k = k x y := by
  simp [withFlt2, h, h']

/-- An integer operand fetch: the operand is there and the command goes on, or one of its two faults. -/
theorem withInt_cases (s : State) (i : RegIdx) (k : IntC → Result) :
    (∃ a, s.reg i = .int a ∧ withInt s i k = k a) ∨
    withInt s i k = raise s .unwritten ∨ withInt s i k = raise s .typeMismatch := by
  cases h : s.reg i <;> simp [withInt, h]

theorem withFlt_cases (s : State) (i : RegIdx) (k : FltC → Result) :
    (∃ x, s.reg i = .flt x ∧ withFlt s i k = k x) ∨
    withFlt s i k = raise s .unwritten ∨ withFlt s i k = raise s .typeMismatch := by
  cases h : s.reg i <;> simp [withFlt, h]

theorem withInt2_cases (s : State) (i j : RegIdx) (k : IntC → IntC → Result) :
    (∃ a b, s.reg i = .int a ∧ s.reg j = .int b ∧ withInt2 s i j k = k a b) ∨
    withInt2 s i j k = raise s .unwritten ∨ withInt2 s i j k = raise s .typeMismatch := by
  cases h : s.reg i <;> cases h' : s.reg j <;> simp [withInt2, h, h']

theorem withFlt2_cases (s : State) (i j : RegIdx) (k : FltC → FltC → Result) :
    (∃ x y, s.reg i = .flt x ∧ s.reg j = .flt y ∧ withFlt2 s i j k = k x y) ∨
    withFlt2 s i j k = raise s .unwritten ∨ withFlt2 s i j k = raise s .typeMismatch := by
  cases h : s.reg i <;> cases h' : s.reg j <;> simp [withFlt2, h, h']

end

/-- HOST_IN, an integer: the operand is there, or IllegalCommand (R374). -/
theorem withHostInt_cases (s : State) (k : Int → Result) :
    (∃ x, s.hostIn = some (.int x) ∧ withHostInt s k = k x) ∨ withHostInt s k = raise s .illegalCommand := by
  unfold withHostInt
  split <;> simp_all

theorem withHostF64_cases (s : State) (k : F64 → Result) :
    (∃ b, s.hostIn = some (.f64 b) ∧ withHostF64 s k = k b) ∨ withHostF64 s k = raise s .illegalCommand := by
  unfold withHostF64
  split <;> simp_all

@[simp] theorem withHostInt_int {s : State} {k : Int → Result} {x : Int} (h : s.hostIn = some (.int x)) :
    withHostInt s k = k x := by simp [withHostInt, h]

@[simp] theorem withHostF64_f64 {s : State} {k : F64 → Result} {b : F64} (h : s.hostIn = some (.f64 b)) :
    withHostF64 s k = k b := by simp [withHostF64, h]

/-! ## Effects of the shared shapes -/

section
variable (s : State) {G : Prop}

theorem effect_withInt (i : RegIdx) {k : IntC → Result} (h : ∀ a, s.reg i = .int a → Effect s G (k a)) :
    Effect s G (withInt s i k) := by
  obtain ⟨a, ha, e⟩ | e | e := withInt_cases s i k <;> rw [e]
  · exact h a ha
  · exact .fault _ (by decide)
  · exact .fault _ (by decide)

theorem effect_withFlt (i : RegIdx) {k : FltC → Result} (h : ∀ x, s.reg i = .flt x → Effect s G (k x)) :
    Effect s G (withFlt s i k) := by
  obtain ⟨x, hx, e⟩ | e | e := withFlt_cases s i k <;> rw [e]
  · exact h x hx
  · exact .fault _ (by decide)
  · exact .fault _ (by decide)

theorem effect_withInt2 (i j : RegIdx) {k : IntC → IntC → Result}
    (h : ∀ a b, s.reg i = .int a → s.reg j = .int b → Effect s G (k a b)) : Effect s G (withInt2 s i j k) := by
  obtain ⟨a, b, ha, hb, e⟩ | e | e := withInt2_cases s i j k <;> rw [e]
  · exact h a b ha hb
  · exact .fault _ (by decide)
  · exact .fault _ (by decide)

theorem effect_withFlt2 (i j : RegIdx) {k : FltC → FltC → Result}
    (h : ∀ x y, s.reg i = .flt x → s.reg j = .flt y → Effect s G (k x y)) : Effect s G (withFlt2 s i j k) := by
  obtain ⟨x, y, hx, hy, e⟩ | e | e := withFlt2_cases s i j k <;> rw [e]
  · exact h x y hx hy
  · exact .fault _ (by decide)
  · exact .fault _ (by decide)

theorem effect_withHostInt {k : Int → Result} (h : ∀ x, Effect s G (k x)) : Effect s G (withHostInt s k) := by
  obtain ⟨x, -, e⟩ | e := withHostInt_cases s k <;> rw [e]
  · exact h x
  · exact .fault _ (by decide)

theorem effect_withHostF64 {k : F64 → Result} (h : ∀ b, Effect s G (k b)) : Effect s G (withHostF64 s k) := by
  obtain ⟨x, -, e⟩ | e := withHostF64_cases s k <;> rw [e]
  · exact h x
  · exact .fault _ (by decide)

theorem effect_storePattern (P w addr : Nat) (bo : ByteOrder) : Effect s G (storePattern s P w addr bo) := by
  unfold storePattern inRange
  split <;> rename_i h
  · exact .store addr _ (by simpa using h)
  · exact .fault _ (by decide)

theorem effect_loadPattern (w addr : Nat) (bo : ByteOrder) {k : Nat → Result} (h : ∀ U, Effect s G (k U)) :
    Effect s G (loadPattern s w addr bo k) := by
  unfold loadPattern
  split
  · exact h _
  · exact .fault _ (by decide)

end

/-! ## Copying results -/

/-- A promoted result is a masked container, or a fault that is not OK. -/
theorem promoted_ok {op : Int → Int → Except Status Int} {a b r : IntC} (h : promoted op a b = .ok r) :
    ∃ x, op (promA a b) (promB a b) = .ok x ∧ r = mkInt (promN a b) (promS a b) x := by
  unfold promoted at h
  split at h <;> rename_i e
  · exact ⟨_, e, by simpa using h.symm⟩
  · cases h

theorem promoted_error {op : Int → Int → Except Status Int} {a b : IntC} {f : Status}
    (h : promoted op a b = .error f) : op (promA a b) (promB a b) = .error f := by
  unfold promoted at h
  split at h <;> rename_i e
  · cases h
  · simpa [e] using h

end Sys2Proof.Machine
end

