-- ==== Sys2Proof/Laws/Effect.lean ====
section
/-! SUPPORT. What a command can do, said once (exec_effect), and with it what a step can do (step_cases):
later proofs about every command cite these. -/

namespace Sys2Proof.Machine

/-! ## Containers that commands make are the spec's -/

theorem Inv.int {s : State} (h : s.Inv) {i : RegIdx} {a : IntC} (e : s.reg i = .int a) : a.wf = true := by
  have := h.1 i
  rwa [e] at this

theorem Inv.flt {s : State} (h : s.Inv) {i : RegIdx} {x : FltC} (e : s.reg i = .flt x) : x.wf = true := by
  have := h.1 i
  rwa [e] at this

theorem widthOk_iff (w : Nat) : widthOk w = true ↔ 1 ≤ w := decide_eq_true_iff

theorem floatWidthsOk_iff (e m : Nat) : floatWidthsOk e m = true ↔ 1 ≤ e ∧ e ≤ 11 ∧ 1 ≤ m ∧ m ≤ 52 := by
  rw [floatWidthsOk, Bool.and_eq_true, Bool.and_eq_true, Bool.and_eq_true, decide_eq_true_iff,
    decide_eq_true_iff, decide_eq_true_iff, decide_eq_true_iff, and_assoc, and_assoc]
  exact Iff.rfl

theorem FltC.wf_iff (x : FltC) :
    x.wf = true ↔ 1 ≤ x.e ∧ x.e ≤ 11 ∧ 1 ≤ x.m ∧ x.m ≤ 52 ∧ x.E < 2 ^ x.e ∧ x.M < 2 ^ x.m := by
  rw [FltC.wf, Bool.and_eq_true, Bool.and_eq_true, floatWidthsOk_iff, decide_eq_true_iff, decide_eq_true_iff]
  tauto

theorem mkInt_same_wf {a : IntC} (h : a.wf = true) (x : Int) : (mkInt a.n a.s x).wf = true := by
  have := (IntC.wf_iff a).1 h
  exact mkInt_wf this.1 this.2.1 x

theorem mkInt_prom_wf {a b : IntC} (ha : a.wf = true) (hb : b.wf = true) (x : Int) :
    (mkInt (promN a b) (promS a b) x).wf = true := by
  have ha := (IntC.wf_iff a).1 ha
  have hb := (IntC.wf_iff b).1 hb
  exact mkInt_wf (by unfold promN; omega) (by unfold promN; omega) x

theorem slice_wf {a : IntC} (h : a.wf = true) {start stop : Nat} (h1 : start < stop) (h2 : stop ≤ a.n) :
    IntC.wf ⟨stop - start, false, slice a.pattern (stop - 1) start⟩ = true := by
  have ha := (IntC.wf_iff a).1 h
  have hs := slice_lt a.pattern (stop - 1) start
  rw [show stop - 1 + 1 - start = stop - start by omega] at hs
  rw [IntC.wf_iff]
  have hz : (slice a.pattern (stop - 1) start : Int) < 2 ^ (stop - start) := by exact_mod_cast hs
  exact ⟨by simp only; omega, by simp only; omega, (mask_eq_self_unsigned (Int.natCast_nonneg _) hz).symm⟩

theorem encExponent_lt {e : Nat} (he : 1 ≤ e) (ne : Nat) : encExponent e ne < 2 ^ e := by
  unfold encExponent
  split
  · positivity
  · have h2 : (2 : Nat) ^ e = 2 * 2 ^ (e - 1) := by
      obtain ⟨k, rfl⟩ : ∃ k, e = k + 1 := ⟨e - 1, by omega⟩
      simp [pow_succ, mul_comm]
    have hp : 1 ≤ (2 : Nat) ^ (e - 1) := Nat.one_le_two_pow
    have hb : ((bias e : Nat) : Int) = (2 : Int) ^ (e - 1) - 1 := by
      unfold bias
      push_cast [Nat.cast_sub hp]
      rfl
    have hq : ((2 ^ (e - 1) : Nat) : Int) = (2 : Int) ^ (e - 1) := by push_cast; rfl
    simp only [hb]
    omega

theorem f64Man_lt (b : F64) : f64Man b < 2 ^ 52 := Nat.mod_lt _ (by positivity)

theorem encTruncated_lt {m N : Nat} (hm : m ≤ 52) (hN : N < 2 ^ 52) : encTruncated m N < 2 ^ m := by
  unfold encTruncated
  rw [Nat.div_lt_iff_lt_mul (by positivity), ← pow_add, show m + (52 - m) = 52 by omega]
  exact hN

theorem encRoundBit_le (m N : Nat) : encRoundBit m N ≤ 1 := by
  unfold encRoundBit
  split <;> omega

theorem encCarry_lt {p : CarryPolicy} {e m E M' : Nat} (hE : E < 2 ^ e) (hM : M' ≤ 2 ^ m) :
    (encCarry p e m E M').1 < 2 ^ e ∧ (encCarry p e m E M').2 < 2 ^ m := by
  have hp : 1 ≤ 2 ^ m := Nat.one_le_two_pow
  unfold encCarry allOnes
  split
  · cases p
    · simp only
      split <;> simp only <;> omega
    · simp only; omega
  · simp only; omega

/-- `fenc` gives a container of R37 (45_fp_pack_unpack.md R288). -/
theorem fenc_wf (p : CarryPolicy) (b : F64) {e m : Nat} (h : floatWidthsOk e m = true) :
    (fenc p b e m).wf = true := by
  obtain ⟨h1, h2, h3, h4⟩ := (floatWidthsOk_iff e m).1 h
  have ht := encTruncated_lt (N := f64Man b) h4 (f64Man_lt b)
  have hr := encRoundBit_le m (f64Man b)
  have hc := encCarry_lt (p := p) (encExponent_lt h1 (f64Exp b))
    (show encTruncated m (f64Man b) + encRoundBit m (f64Man b) ≤ 2 ^ m by omega)
  rw [FltC.wf_iff]
  exact ⟨h1, h2, h3, h4, hc⟩

theorem fltOfPattern_wf {e m : Nat} (h : floatWidthsOk e m = true) (U : Nat) :
    (fltOfPattern e m U).wf = true := by
  obtain ⟨h3, h4, h5, h6⟩ := (floatWidthsOk_iff e m).1 h
  have h1 := slice_lt U (e + m - 1) m
  have h2 := slice_lt U (m - 1) 0
  rw [show e + m - 1 + 1 - m = e by omega] at h1
  rw [show m - 1 + 1 - 0 = m by omega] at h2
  rw [FltC.wf_iff]
  exact ⟨h3, h4, h5, h6, h1, h2⟩

theorem widths_of_wf {x : FltC} (h : x.wf = true) : floatWidthsOk x.e x.m = true := by
  rw [FltC.wf, Bool.and_eq_true, Bool.and_eq_true] at h
  exact h.1.1

theorem widths_max {x y : FltC} (hx : x.wf = true) (hy : y.wf = true) :
    floatWidthsOk (max x.e y.e) (max x.m y.m) = true := by
  have hx := (FltC.wf_iff x).1 hx
  have hy := (FltC.wf_iff y).1 hy
  rw [floatWidthsOk_iff]
  omega

/-! ## Copying results -/

/-- The containers a copying result gives are the spec's, and its faults are faults. -/
def GoodResult (f : IntC → IntC → Except Status IntC) : Prop :=
  (∀ a b r, f a b = .ok r → a.wf = true → b.wf = true → r.wf = true) ∧
  ∀ a b e, f a b = .error e → e ≠ .ok

theorem promoted_good {op : Int → Int → Except Status Int} (h : ∀ A B e, op A B = .error e → e ≠ .ok) :
    GoodResult (promoted op) := by
  refine ⟨fun a b r hr ha hb => ?_, fun a b e he => h _ _ e (promoted_error he)⟩
  obtain ⟨x, -, rfl⟩ := promoted_ok hr
  exact mkInt_prom_wf ha hb x

/-- An operation with no fault of its own. -/
theorem promotedOk_good (op : Int → Int → Int) : GoodResult (promoted fun A B => .ok (op A B)) :=
  promoted_good fun _ _ _ h => by cases h

theorem guardDivisor_error {op : Int → Int → Int} {A B : Int} {e : Status}
    (h : guardDivisor op A B = .error e) : B = 0 ∧ e = .divideByZero := by
  unfold guardDivisor at h
  split at h
  · exact ⟨‹_›, by simpa using h.symm⟩
  · cases h

theorem guardDivisor_good (op : Int → Int → Int) : GoodResult (promoted (guardDivisor op)) :=
  promoted_good fun A B e h => by rw [(guardDivisor_error h).2]; decide

theorem ipowResult_good : GoodResult ipowResult := by
  refine ⟨fun a b r hr ha hb => ?_, fun a b e he => ?_⟩
  · obtain ⟨x, -, rfl⟩ := promoted_ok hr
    exact mkInt_prom_wf ha hb x
  · have := promoted_error he
    split at this
    · obtain rfl : Status.negativeExponent = e := by simpa using this
      decide
    · cases this

theorem shift_good {f : IntC → IntC → Int} :
    GoodResult fun a c => if c.v < 0 then .error .negativeShift else .ok (mkInt a.n a.s (f a c)) := by
  refine ⟨fun a b r hr ha _ => ?_, fun a b e he => ?_⟩ <;> dsimp only at *
  · split at hr
    · cases hr
    · obtain rfl : mkInt a.n a.s (f a b) = r := by simpa using hr
      exact mkInt_same_wf ha _
  · split at he
    · obtain rfl : Status.negativeShift = e := by simpa using he
      decide
    · cases he

/-! ## Effects of the command shapes -/

section
variable {s : State} {w : Prop}

theorem effect_intUnary (op : Int → Int) (rd rs1 : RegIdx) :
    Effect s (s.Inv ∧ w) (intUnary op rd rs1 s) :=
  effect_withInt s rs1 fun _ ha => .writeInt rd _ fun h => mkInt_same_wf (Inv.int h.1 ha) _

theorem effect_intCopy {f : IntC → IntC → Except Status IntC} (hf : GoodResult f) (rd rs1 rs2 : RegIdx) :
    Effect s (s.Inv ∧ w) (intCopy f rd rs1 rs2 s) := by
  refine effect_withInt2 s rs1 rs2 fun a b ha hb => ?_
  split <;> rename_i e
  · exact .writeInt rd _ fun h => hf.1 a b _ e (Inv.int h.1 ha) (Inv.int h.1 hb)
  · exact .fault _ (hf.2 a b _ e)

theorem effect_intInPlace {f : IntC → IntC → Except Status IntC} (hf : GoodResult f) (rs1 rs2 : RegIdx) :
    Effect s (s.Inv ∧ w) (intInPlace f rs1 rs2 s) := by
  refine effect_withInt2 s rs1 rs2 fun a b ha hb => ?_
  split <;> rename_i e
  · exact .writeInt rs1 _ fun h => mkInt_same_wf (Inv.int h.1 ha) _
  · exact .fault _ (hf.2 a b _ e)

theorem effect_intCompare (rel : Int → Int → Bool) (rs1 rs2 : RegIdx) :
    Effect s (s.Inv ∧ w) (intCompare rel rs1 rs2 s) :=
  effect_withInt2 s rs1 rs2 fun _ _ _ _ => .answer _

theorem effect_fltUnary (op : F64 → F64) (rd rs1 : RegIdx) :
    Effect s (s.Inv ∧ w) (fltUnary op rd rs1 s) :=
  effect_withFlt s rs1 fun _ ha => .writeFlt rd _ fun h => fenc_wf _ _ (widths_of_wf (Inv.flt h.1 ha))

/-- The faults of a float value are faults. -/
def GoodValue (f : F64 → F64 → Except Status F64) : Prop := ∀ x y e, f x y = .error e → e ≠ .ok

theorem hostValue_error {d : NanDraw} {r : Option F64} {e : Status} (h : hostValue d r = .error e) :
    r = none ∧ e = .hostFloatFault := by
  cases r
  · exact ⟨rfl, by simpa [hostValue] using h.symm⟩
  · cases h

theorem hostValue_good (d : NanDraw) (op : F64 → F64 → Option F64) : GoodValue fun x y => hostValue d (op x y) :=
  fun x y e h => by rw [(hostValue_error h).2]; decide

theorem guardZero_good (d : NanDraw) (op : F64 → F64 → Option F64) : GoodValue (guardZero d op) := by
  intro x y e h
  unfold guardZero at h
  split at h
  · obtain rfl : Status.divideByZero = e := by simpa using h
    decide
  · rw [(hostValue_error h).2]; decide

theorem effect_fltCopy {f : F64 → F64 → Except Status F64} (hf : GoodValue f) (rd rs1 rs2 : RegIdx) :
    Effect s (s.Inv ∧ w) (fltCopy f rd rs1 rs2 s) := by
  refine effect_withFlt2 s rs1 rs2 fun a b ha hb => ?_
  split <;> rename_i e
  · exact .writeFlt rd _ fun h => fenc_wf _ _ (widths_max (Inv.flt h.1 ha) (Inv.flt h.1 hb))
  · exact .fault _ (hf _ _ _ e)

theorem effect_fltInPlace {f : F64 → F64 → Except Status F64} (hf : GoodValue f) (rs1 rs2 : RegIdx) :
    Effect s (s.Inv ∧ w) (fltInPlace f rs1 rs2 s) := by
  refine effect_withFlt2 s rs1 rs2 fun a b ha hb => ?_
  split <;> rename_i e
  · exact .writeFlt rs1 _ fun h => fenc_wf _ _ (widths_of_wf (Inv.flt h.1 ha))
  · exact .fault _ (hf _ _ _ e)

theorem effect_fltCompare (rel : F64 → F64 → Bool) (rs1 rs2 : RegIdx) :
    Effect s (s.Inv ∧ w) (fltCompare rel rs1 rs2 s) :=
  effect_withFlt2 s rs1 rs2 fun _ _ _ _ => .answer _

end

/-! ## Every command, and a step -/

/-- WHAT A COMMAND CAN DO: it takes a fault, or answers on HOST_OUT, or writes one container to one
register, or stores bytes inside `MEM`. -/
theorem exec_effect (i : Instr) (s : State) : Effect s (s.Inv ∧ i.wf = true) (exec i s) := by
  cases i with
  | inew rd sg w =>
    refine effect_withHostInt s fun x => ?_
    split <;> rename_i hw
    · refine .writeInt rd _ fun h => mkInt_wf ((widthOk_iff w).1 hw) ?_ x
      have := h.2
      simp only [Instr.wf, fitsX, decide_eq_true_eq] at this
      unfold wMax
      omega
    · exact .fault _ (by decide)
  | icvt rd rs1 sg w =>
    refine effect_withInt s rs1 fun c _ => ?_
    split <;> rename_i hw
    · refine .writeInt rd _ fun h => mkInt_wf ((widthOk_iff w).1 hw) ?_ _
      have := h.2
      simp only [Instr.wf, fitsX, decide_eq_true_eq] at this
      unfold wMax
      omega
    · exact .fault _ (by decide)
  | iset rd =>
    exact effect_withHostInt s fun x => effect_withInt s rd fun c hc =>
      .writeInt rd _ fun h => mkInt_same_wf (Inv.int h.1 hc) x
  | ineg rd rs1 => exact effect_intUnary _ rd rs1
  | iabs rd rs1 => exact effect_intUnary (fun v => (v.natAbs : Int)) rd rs1
  | inot rd rs1 => exact effect_intUnary (fun v => -v - 1) rd rs1
  | iadd rd rs1 rs2 => exact effect_intCopy (promotedOk_good fun A B => A + B) rd rs1 rs2
  | iaddIp rs1 rs2 => exact effect_intInPlace (promotedOk_good fun A B => A + B) rs1 rs2
  | isub rd rs1 rs2 => exact effect_intCopy (promotedOk_good fun A B => A - B) rd rs1 rs2
  | isubIp rs1 rs2 => exact effect_intInPlace (promotedOk_good fun A B => A - B) rs1 rs2
  | imul rd rs1 rs2 => exact effect_intCopy (promotedOk_good fun A B => A * B) rd rs1 rs2
  | imulIp rs1 rs2 => exact effect_intInPlace (promotedOk_good fun A B => A * B) rs1 rs2
  | idiv rd rs1 rs2 => exact effect_intCopy (guardDivisor_good _) rd rs1 rs2
  | idivIp rs1 rs2 => exact effect_intInPlace (guardDivisor_good _) rs1 rs2
  | ifdiv rd rs1 rs2 => exact effect_intCopy (guardDivisor_good _) rd rs1 rs2
  | ifdivIp rs1 rs2 => exact effect_intInPlace (guardDivisor_good _) rs1 rs2
  | imod rd rs1 rs2 => exact effect_intCopy (guardDivisor_good _) rd rs1 rs2
  | imodIp rs1 rs2 => exact effect_intInPlace (guardDivisor_good _) rs1 rs2
  | ipow rd rs1 rs2 => exact effect_intCopy ipowResult_good rd rs1 rs2
  | ipowIp rs1 rs2 => exact effect_intInPlace ipowResult_good rs1 rs2
  | iand rd rs1 rs2 => exact effect_intCopy (promotedOk_good fun A B => intAnd A B) rd rs1 rs2
  | iandIp rs1 rs2 => exact effect_intInPlace (promotedOk_good fun A B => intAnd A B) rs1 rs2
  | ior rd rs1 rs2 => exact effect_intCopy (promotedOk_good fun A B => intOr A B) rd rs1 rs2
  | iorIp rs1 rs2 => exact effect_intInPlace (promotedOk_good fun A B => intOr A B) rs1 rs2
  | ixor rd rs1 rs2 => exact effect_intCopy (promotedOk_good fun A B => intXor A B) rd rs1 rs2
  | ixorIp rs1 rs2 => exact effect_intInPlace (promotedOk_good fun A B => intXor A B) rs1 rs2
  | ishl rd rs1 rs2 => exact effect_intCopy shift_good rd rs1 rs2
  | ishlIp rs1 rs2 => exact effect_intInPlace shift_good rs1 rs2
  | ishr rd rs1 rs2 => exact effect_intCopy shift_good rd rs1 rs2
  | ishrIp rs1 rs2 => exact effect_intInPlace shift_good rs1 rs2
  | ieq rs1 rs2 => exact effect_intCompare _ rs1 rs2
  | ine rs1 rs2 => exact effect_intCompare _ rs1 rs2
  | ilt rs1 rs2 => exact effect_intCompare _ rs1 rs2
  | ile rs1 rs2 => exact effect_intCompare _ rs1 rs2
  | igt rs1 rs2 => exact effect_intCompare _ rs1 rs2
  | ige rs1 rs2 => exact effect_intCompare _ rs1 rs2
  | ibit rs1 index =>
    refine effect_withInt s rs1 fun a _ => ?_
    split
    · exact .answer _
    · exact .fault _ (by decide)
  | islice rd rs1 start stop =>
    refine effect_withInt s rs1 fun a ha => ?_
    split <;> rename_i hr
    · exact .writeInt rd _ fun h => slice_wf (Inv.int h.1 ha) hr.1 hr.2
    · exact .fault _ (by decide)
  | iread rs1 => exact effect_withInt s rs1 fun _ _ => .answer _
  | imin rs1 => exact effect_withInt s rs1 fun _ _ => .answer _
  | imax rs1 => exact effect_withInt s rs1 fun _ _ => .answer _
  | itob rs1 bo addr => exact effect_withInt s rs1 fun _ _ => effect_storePattern s _ _ addr bo
  | ifromb rd sg bo w addr =>
    change Effect s _ (execIfromb rd sg bo w addr s)
    unfold execIfromb
    split <;> rename_i hw
    · refine effect_loadPattern s w addr bo fun U => .writeInt rd _ fun h => mkInt_wf ((widthOk_iff w).1 hw) ?_ _
      have := h.2
      simp only [Instr.wf, fitsX, Bool.and_eq_true, decide_eq_true_eq] at this
      unfold wMax
      omega
    · exact .fault _ (by decide)
  | fnew rd ew mw =>
    refine effect_withHostF64 s fun b => ?_
    split <;> rename_i hw
    · exact .writeFlt rd _ fun _ => fenc_wf _ b hw
    · exact .fault _ (by decide)
  | fset rd =>
    exact effect_withHostF64 s fun b => effect_withFlt s rd fun x hx =>
      .writeFlt rd _ fun h => fenc_wf _ b (widths_of_wf (Inv.flt h.1 hx))
  | fneg rd rs1 => exact effect_fltUnary _ rd rs1
  | fabs rd rs1 => exact effect_fltUnary _ rd rs1
  | fpos rd rs1 => exact effect_fltUnary _ rd rs1
  | fadd rd rs1 rs2 => exact effect_fltCopy (hostValue_good _ fun x y => some ((hostOf s.config.host).add x y)) rd rs1 rs2
  | faddIp rs1 rs2 => exact effect_fltInPlace (hostValue_good _ fun x y => some ((hostOf s.config.host).add x y)) rs1 rs2
  | fsub rd rs1 rs2 => exact effect_fltCopy (hostValue_good _ fun x y => some ((hostOf s.config.host).sub x y)) rd rs1 rs2
  | fsubIp rs1 rs2 => exact effect_fltInPlace (hostValue_good _ fun x y => some ((hostOf s.config.host).sub x y)) rs1 rs2
  | fmul rd rs1 rs2 => exact effect_fltCopy (hostValue_good _ fun x y => some ((hostOf s.config.host).mul x y)) rd rs1 rs2
  | fmulIp rs1 rs2 => exact effect_fltInPlace (hostValue_good _ fun x y => some ((hostOf s.config.host).mul x y)) rs1 rs2
  | fdiv rd rs1 rs2 => exact effect_fltCopy (guardZero_good _ _) rd rs1 rs2
  | fdivIp rs1 rs2 => exact effect_fltInPlace (guardZero_good _ _) rs1 rs2
  | ffdiv rd rs1 rs2 => exact effect_fltCopy (guardZero_good _ _) rd rs1 rs2
  | ffdivIp rs1 rs2 => exact effect_fltInPlace (guardZero_good _ _) rs1 rs2
  | fmod rd rs1 rs2 => exact effect_fltCopy (guardZero_good _ _) rd rs1 rs2
  | fmodIp rs1 rs2 => exact effect_fltInPlace (guardZero_good _ _) rs1 rs2
  | fpow rd rs1 rs2 => exact effect_fltCopy (hostValue_good _ _) rd rs1 rs2
  | fpowIp rs1 rs2 => exact effect_fltInPlace (hostValue_good _ _) rs1 rs2
  | feq rs1 rs2 => exact effect_fltCompare _ rs1 rs2
  | fne rs1 rs2 => exact effect_fltCompare (fun x y => !s.host.eq x y) rs1 rs2
  | flt rs1 rs2 => exact effect_fltCompare _ rs1 rs2
  | fle rs1 rs2 => exact effect_fltCompare (fun x y => s.host.lt x y || s.host.eq x y) rs1 rs2
  | fgt rs1 rs2 => exact effect_fltCompare (fun x y => s.host.lt y x) rs1 rs2
  | fge rs1 rs2 => exact effect_fltCompare (fun x y => s.host.lt y x || s.host.eq x y) rs1 rs2
  | fread rs1 => exact effect_withFlt s rs1 fun _ _ => .answer _
  | ftob rs1 bo addr => exact effect_withFlt s rs1 fun _ _ => effect_storePattern s _ _ addr bo
  | ffromb rd bo ew mw addr =>
    change Effect s _ (execFfromb rd bo ew mw addr s)
    unfold execFfromb
    split <;> rename_i hw
    · exact effect_loadPattern s _ addr bo fun U => .writeFlt rd _ fun _ => fltOfPattern_wf hw U
    · exact .fault _ (by decide)

/-- WHAT A STEP CAN DO: it waits, resets, rejects a word, or performs the command it decodes. -/
theorem step_cases (s : State) :
    (s.pending = [] ∧ step s = .next s) ∨
    (∃ cs rest, s.pending = .reset cs :: rest ∧ step s = .next (resetTo { s with pending := rest } cs)) ∨
    (∃ w h rest e, s.pending = .command w h :: rest ∧ decode w = .error e ∧
      step s = raise (takeCommand s rest h) .illegalCommand) ∨
    (∃ w h rest i, s.pending = .command w h :: rest ∧ decode w = .ok i ∧
      step s = exec i (takeCommand s rest h)) := by
  unfold step
  split
  · exact .inl ⟨‹_›, rfl⟩
  · exact .inr (.inl ⟨_, _, ‹_›, rfl⟩)
  · split <;> rename_i hd
    · exact .inr (.inr (.inr ⟨_, _, _, _, ‹_›, hd, rfl⟩))
    · exact .inr (.inr (.inl ⟨_, _, _, _, ‹_›, hd, rfl⟩))

end Sys2Proof.Machine
end

