-- ==== Sys2Proof/Laws/Claims.lean ====
section
/-! SUPPORT. From what a meaning ends in to the terms of Safety.lean: Writes, Answers, Stores, TakesFault. -/

namespace Sys2Proof.Machine

variable {i : Instr} {s : State} {rd : RegIdx}

theorem writes_of_writeInt {c : IntC} (h : exec i s = writeInt s rd c) : Writes i s rd (.int c) :=
  ⟨_, h, by simp, rfl, fun j hj => by simp [setReg_reg_ne, hj], fun _ => rfl, rfl, rfl, rfl⟩

theorem writes_of_writeFlt {x : FltC} (h : exec i s = writeFlt s rd x) : Writes i s rd (.flt x) :=
  ⟨_, h, by simp, rfl, fun j hj => by simp [setReg_reg_ne, hj], fun _ => rfl, rfl, rfl, rfl⟩

theorem answers_of_complete {out : Out} (h : exec i s = complete s (some out)) : Answers i s out :=
  ⟨_, h, rfl, fun _ => rfl, fun _ => rfl, rfl, rfl, rfl⟩

theorem takesFault_of_raise {f : Status} (h : exec i s = raise s f) : TakesFault i s f :=
  ⟨_, h, rfl, fun _ => rfl, rfl, rfl, rfl, rfl⟩

theorem stores_of_storePattern {P w addr : Nat} {bo : ByteOrder} (hm : s.mem.wf = true)
    (hr : addr + byteLen w ≤ memSize) (h : exec i s = storePattern s P w addr bo) :
    Stores i s addr (bytesOf P (byteLen w) bo) := by
  have hl : addr + (bytesOf P (byteLen w) bo).length ≤ memSize := by simpa using hr
  refine ⟨_, h.trans (if_pos (by simpa [inRange] using hr)), rfl, fun j b hj => ?_, fun _ => rfl,
    fun a ha => ?_, rfl, rfl, rfl⟩
  · rw [respond_mem, memRead_memWriteBytes hm _ hl, if_pos (by omega), show addr + j - addr = j by omega, hj]
    rfl
  · rw [respond_mem, memRead_memWriteBytes hm _ hl]
    split <;> rename_i h1
    · rw [List.getElem?_eq_none (by omega)]
      rfl
    · rfl

theorem takesFault_of_storePattern {P w addr : Nat} {bo : ByteOrder} (hr : memSize < addr + byteLen w)
    (h : exec i s = storePattern s P w addr bo) : TakesFault i s .bufferRange :=
  takesFault_of_raise (h.trans (if_neg (by simpa [inRange] using hr)))

theorem loadPattern_in {w addr : Nat} (hr : addr + byteLen w ≤ memSize) (bo : ByteOrder) (k : Nat → Result) :
    loadPattern s w addr bo k = k (integerOf (memReadBytes s.mem addr (byteLen w)) bo) :=
  if_pos (by simpa [inRange] using hr)

theorem loadPattern_out {w addr : Nat} (hr : memSize < addr + byteLen w) (bo : ByteOrder) (k : Nat → Result) :
    loadPattern s w addr bo k = raise s .bufferRange :=
  if_neg (by simpa [inRange] using hr)

end Sys2Proof.Machine
end

