-- ==== Sys2Proof/Laws/Encoding.lean ====
section
/-! SUPPORT. The encoding: the reserved ranges and the zero masks of the spec are the same bits
(30_encoding.md R92 to R105), and each field of a packed word reads back. -/

namespace Sys2Proof

/-! ## Reserved bits -/

theorem bits_eq_zero_iff (w : Word) (hi lo : Nat) :
    bits w hi lo = 0 ↔ ∀ i, lo ≤ i → i ≤ hi → w.getLsbD i = false := by
  have key : bits w hi lo = 0 ↔ ∀ j, (bits w hi lo).testBit j = false :=
    ⟨fun h j => by simp [h], fun h => Nat.eq_of_testBit_eq fun j => by simp [h j]⟩
  rw [key]
  simp only [bits, Nat.testBit_mod_two_pow, Nat.testBit_div_two_pow, Bool.and_eq_false_iff,
    decide_eq_false_iff_not, ← BitVec.testBit_toNat]
  constructor
  · intro h i h1 h2
    rcases h (i - lo) with h | h
    · omega
    · rwa [show i - lo + lo = i by omega] at h
  · intro h j
    by_cases hj : j < hi + 1 - lo
    · exact .inr (h (j + lo) (by omega) (by omega))
    · exact .inl hj

/-- The bits of a zero mask are the reserved bits (R93 to R105). -/
theorem zeroMask_bits (f : Format) (i : Fin 64) :
    f.zeroMask.getLsbD i = f.reserved.any fun r => decide (r.2 ≤ i.val) && decide (i.val ≤ r.1) := by
  revert i
  cases f <;> decide

/-- The reserved bits lie in the word. -/
theorem reserved_lt (f : Format) : ∀ r ∈ f.reserved, r.1 < 64 := by cases f <;> decide

/-- The reserved-zero rule of R92, by ranges and by mask (R108). -/
theorem clear_iff (f : Format) (w : Word) : f.clear w = true ↔ w &&& f.zeroMask = 0#64 := by
  simp only [Format.clear, List.all_eq_true, beq_iff_eq, bits_eq_zero_iff]
  constructor
  · intro h
    apply BitVec.eq_of_getLsbD_eq
    intro i hi
    have hm := zeroMask_bits f ⟨i, hi⟩
    simp only [BitVec.getLsbD_and, BitVec.getLsbD_zero]
    cases hz : f.zeroMask.getLsbD i
    · simp
    · rw [hz] at hm
      obtain ⟨r, hr, hb⟩ := List.any_eq_true.1 hm.symm
      simp only [Bool.and_eq_true, decide_eq_true_eq] at hb
      simp [h r hr i hb.1 hb.2]
  · intro h r hr i h1 h2
    have hi : i < 64 := Nat.lt_of_le_of_lt h2 (reserved_lt f r hr)
    have hm := zeroMask_bits f ⟨i, hi⟩
    have hz : f.zeroMask.getLsbD i = true := by
      rw [hm]
      exact List.any_eq_true.2 ⟨r, hr, by simp [h1, h2]⟩
    have := congrArg (fun x => x.getLsbD i) h
    simpa [hz] using this

/-! ## The opcode map (R107) -/

@[simp] theorem ofNumber_number (op : Opcode) : Opcode.ofNumber op.number = some op := by cases op <;> rfl

theorem number_lt (op : Opcode) : op.number < 256 := by cases op <;> decide

theorem number_of_ofNumber {n : Nat} {op : Opcode} (h : Opcode.ofNumber n = some op) : op.number = n := by
  unfold Opcode.ofNumber at h
  split at h <;> first | (cases h; rfl) | cases h

/-! ## Packed words -/

/-- The field values fit their places (R91, R106). -/
structure Fits (op rd rs1 rs2 ip sg bo ew mw x y : Nat) : Prop where
  op : op < 256
  rd : rd < 16
  rs1 : rs1 < 16
  rs2 : rs2 < 16
  ip : ip < 2
  sg : sg < 2
  bo : bo < 2
  ew : ew < 16
  mw : mw < 64
  x : x < 32768
  y : y < 65536

section
variable {op rd rs1 rs2 ip sg bo ew mw x y : Nat} (h : Fits op rd rs1 rs2 ip sg bo ew mw x y)
include h

theorem pack_toNat : (pack op rd rs1 rs2 ip sg bo ew mw x y).toNat =
    op * 2 ^ 56 + rd * 2 ^ 52 + rs1 * 2 ^ 48 + rs2 * 2 ^ 44 + ip * 2 ^ 43 + sg * 2 ^ 42 + bo * 2 ^ 41
      + ew * 2 ^ 37 + mw * 2 ^ 31 + x * 2 ^ 16 + y := by
  obtain ⟨h0, h1, h2, h3, h4, h5, h6, h7, h8, h9, h10⟩ := h
  simp only [pack, BitVec.toNat_ofNat]
  apply Nat.mod_eq_of_lt
  norm_num
  omega

theorem pack_op : bits (pack op rd rs1 rs2 ip sg bo ew mw x y) 63 56 = op := by
  rw [bits, pack_toNat h]
  obtain ⟨h0, h1, h2, h3, h4, h5, h6, h7, h8, h9, h10⟩ := h
  norm_num
  omega

theorem pack_rd : bits (pack op rd rs1 rs2 ip sg bo ew mw x y) 55 52 = rd := by
  rw [bits, pack_toNat h]
  obtain ⟨h0, h1, h2, h3, h4, h5, h6, h7, h8, h9, h10⟩ := h
  norm_num
  omega

theorem pack_rs1 : bits (pack op rd rs1 rs2 ip sg bo ew mw x y) 51 48 = rs1 := by
  rw [bits, pack_toNat h]
  obtain ⟨h0, h1, h2, h3, h4, h5, h6, h7, h8, h9, h10⟩ := h
  norm_num
  omega

theorem pack_rs2 : bits (pack op rd rs1 rs2 ip sg bo ew mw x y) 47 44 = rs2 := by
  rw [bits, pack_toNat h]
  obtain ⟨h0, h1, h2, h3, h4, h5, h6, h7, h8, h9, h10⟩ := h
  norm_num
  omega

theorem pack_ip : bits (pack op rd rs1 rs2 ip sg bo ew mw x y) 43 43 = ip := by
  rw [bits, pack_toNat h]
  obtain ⟨h0, h1, h2, h3, h4, h5, h6, h7, h8, h9, h10⟩ := h
  norm_num
  omega

theorem pack_sg : bits (pack op rd rs1 rs2 ip sg bo ew mw x y) 42 42 = sg := by
  rw [bits, pack_toNat h]
  obtain ⟨h0, h1, h2, h3, h4, h5, h6, h7, h8, h9, h10⟩ := h
  norm_num
  omega

theorem pack_bo : bits (pack op rd rs1 rs2 ip sg bo ew mw x y) 41 41 = bo := by
  rw [bits, pack_toNat h]
  obtain ⟨h0, h1, h2, h3, h4, h5, h6, h7, h8, h9, h10⟩ := h
  norm_num
  omega

theorem pack_ew : bits (pack op rd rs1 rs2 ip sg bo ew mw x y) 40 37 = ew := by
  rw [bits, pack_toNat h]
  obtain ⟨h0, h1, h2, h3, h4, h5, h6, h7, h8, h9, h10⟩ := h
  norm_num
  omega

theorem pack_mw : bits (pack op rd rs1 rs2 ip sg bo ew mw x y) 36 31 = mw := by
  rw [bits, pack_toNat h]
  obtain ⟨h0, h1, h2, h3, h4, h5, h6, h7, h8, h9, h10⟩ := h
  norm_num
  omega

theorem pack_x : bits (pack op rd rs1 rs2 ip sg bo ew mw x y) 30 16 = x := by
  rw [bits, pack_toNat h]
  obtain ⟨h0, h1, h2, h3, h4, h5, h6, h7, h8, h9, h10⟩ := h
  norm_num
  omega

theorem pack_y : bits (pack op rd rs1 rs2 ip sg bo ew mw x y) 15 0 = y := by
  rw [bits, pack_toNat h]
  obtain ⟨h0, h1, h2, h3, h4, h5, h6, h7, h8, h9, h10⟩ := h
  norm_num
  omega

/-- The reserved bits of each format are clear when the fields it does not use are 0 (R92). -/
theorem pack_clear (f : Format)
    (hf : match f with
      | .R => sg = 0 ∧ bo = 0 ∧ ew = 0 ∧ mw = 0 ∧ x = 0 ∧ y = 0
      | .U => rs2 = 0 ∧ ip = 0 ∧ sg = 0 ∧ bo = 0 ∧ ew = 0 ∧ mw = 0 ∧ x = 0 ∧ y = 0
      | .C => rd = 0 ∧ ip = 0 ∧ sg = 0 ∧ bo = 0 ∧ ew = 0 ∧ mw = 0 ∧ x = 0 ∧ y = 0
      | .N => rs1 = 0 ∧ rs2 = 0 ∧ ip = 0 ∧ bo = 0 ∧ ew = 0 ∧ mw = 0 ∧ y = 0
      | .X => rs2 = 0 ∧ ip = 0 ∧ bo = 0 ∧ ew = 0 ∧ mw = 0 ∧ y = 0
      | .S => rs1 = 0 ∧ rs2 = 0 ∧ ip = 0 ∧ sg = 0 ∧ bo = 0 ∧ ew = 0 ∧ mw = 0 ∧ x = 0 ∧ y = 0
      | .B => rd = 0 ∧ rs2 = 0 ∧ ip = 0 ∧ sg = 0 ∧ bo = 0 ∧ ew = 0 ∧ mw = 0 ∧ y = 0
      | .L => rs2 = 0 ∧ ip = 0 ∧ sg = 0 ∧ bo = 0 ∧ ew = 0 ∧ mw = 0
      | .Q => rd = 0 ∧ rs2 = 0 ∧ ip = 0 ∧ sg = 0 ∧ bo = 0 ∧ ew = 0 ∧ mw = 0 ∧ x = 0 ∧ y = 0
      | .MS => rd = 0 ∧ rs2 = 0 ∧ ip = 0 ∧ sg = 0 ∧ ew = 0 ∧ mw = 0 ∧ x = 0
      | .MLI => rs1 = 0 ∧ rs2 = 0 ∧ ip = 0 ∧ ew = 0 ∧ mw = 0
      | .FN => rs1 = 0 ∧ rs2 = 0 ∧ ip = 0 ∧ sg = 0 ∧ bo = 0 ∧ x = 0 ∧ y = 0
      | .MLF => rs1 = 0 ∧ rs2 = 0 ∧ ip = 0 ∧ sg = 0 ∧ x = 0) :
    f.clear (pack op rd rs1 rs2 ip sg bo ew mw x y) = true := by
  have hp := pack_toNat h
  obtain ⟨h0, h1, h2, h3, h4, h5, h6, h7, h8, h9, h10⟩ := h
  cases f <;>
    · simp only [Format.clear, Format.reserved, List.all_cons, List.all_nil, Bool.and_true,
        Bool.and_eq_true, beq_iff_eq, bits, hp] at hf ⊢
      norm_num at hf ⊢
      omega

end

end Sys2Proof
end

