-- ==== Sys2Proof/Laws/Float.lean ====
section
/-! SUPPORT. Binary64 patterns as sign, exponent and mantissa (00_scope.md R21), and the fields of what `fdec`
gives (45_fp_pack_unpack.md R292). -/

namespace Sys2Proof.Machine

/-! ## Patterns -/

theorem f64Exp_lt (b : F64) : f64Exp b < 2048 := Nat.mod_lt _ (by positivity)

theorem f64Mag_eq (b : F64) : f64Mag b = f64Exp b * 2 ^ 52 + f64Man b := by
  unfold f64Mag f64Exp f64Man
  omega

theorem f64Sign_toNat (b : F64) : (f64Sign b).toNat = b.toNat / 2 ^ 63 := by
  have := b.isLt
  unfold f64Sign
  rcases Nat.lt_or_ge b.toNat (2 ^ 63) with h | h
  · rw [Nat.div_eq_of_lt h]
    rfl
  · rw [show b.toNat / 2 ^ 63 = 1 by omega]
    rfl

/-- A pattern is its sign and the rest. -/
theorem f64_toNat (b : F64) : b.toNat = (f64Sign b).toNat * 2 ^ 63 + f64Mag b := by
  rw [f64Sign_toNat]
  unfold f64Mag
  omega

theorem f64_ext {a b : F64} (h1 : f64Sign a = f64Sign b) (h2 : f64Exp a = f64Exp b) (h3 : f64Man a = f64Man b) :
    a = b := by
  apply BitVec.eq_of_toNat_eq
  rw [f64_toNat, f64_toNat, f64Mag_eq, f64Mag_eq, h1, h2, h3]

theorem f64OfMag_toNat (neg : Bool) {mag : Nat} (h : mag < 2 ^ 63) :
    (f64OfMag neg mag).toNat = neg.toNat * 2 ^ 63 + mag := by
  have : neg.toNat ≤ 1 := by cases neg <;> decide
  simp only [f64OfMag, BitVec.toNat_ofNat]
  omega

@[simp] theorem f64OfMag_mag (neg : Bool) {mag : Nat} (h : mag < 2 ^ 63) : f64Mag (f64OfMag neg mag) = mag := by
  rw [f64Mag, f64OfMag_toNat neg h]
  omega

@[simp] theorem f64OfMag_sign (neg : Bool) {mag : Nat} (h : mag < 2 ^ 63) : f64Sign (f64OfMag neg mag) = neg := by
  rw [f64Sign, f64OfMag_toNat neg h]
  cases neg <;> simp <;> omega

theorem f64OfMag_exp (neg : Bool) {mag : Nat} (h : mag < 2 ^ 63) : f64Exp (f64OfMag neg mag) = mag / 2 ^ 52 := by
  rw [f64Exp, f64OfMag_toNat neg h]
  omega

theorem f64OfMag_man (neg : Bool) {mag : Nat} (h : mag < 2 ^ 63) : f64Man (f64OfMag neg mag) = mag % 2 ^ 52 := by
  rw [f64Man, f64OfMag_toNat neg h]
  omega

/-- The fields of a pattern made of an exponent and a mantissa. -/
theorem f64OfMag_fields (neg : Bool) {E M : Nat} (hE : E < 2 ^ 11) (hM : M < 2 ^ 52) :
    f64Sign (f64OfMag neg (E * 2 ^ 52 + M)) = neg ∧ f64Exp (f64OfMag neg (E * 2 ^ 52 + M)) = E ∧
      f64Man (f64OfMag neg (E * 2 ^ 52 + M)) = M := by
  have h : E * 2 ^ 52 + M < 2 ^ 63 := by omega
  refine ⟨f64OfMag_sign neg h, ?_, ?_⟩
  · rw [f64OfMag_exp neg h]
    omega
  · rw [f64OfMag_man neg h]
    omega

/-! ## What `fdec` gives -/

/-- A mantissa of `m` bits in the top of 52 (45_fp_pack_unpack.md R292). -/
theorem shiftUp_lt {m M : Nat} (hm : m ≤ 52) (hM : M < 2 ^ m) : M * 2 ^ (52 - m) < 2 ^ 52 := by
  calc M * 2 ^ (52 - m) < 2 ^ m * 2 ^ (52 - m) := Nat.mul_lt_mul_of_pos_right hM (by positivity)
    _ = 2 ^ 52 := by rw [← pow_add, show m + (52 - m) = 52 by omega]

theorem bias_lt {e : Nat} (he : e ≤ 11) : bias e ≤ 1023 := by
  unfold bias
  have : 2 ^ (e - 1) ≤ 2 ^ 10 := Nat.pow_le_pow_right (by decide) (by omega)
  omega

theorem two_pow_bias {e : Nat} (he : 1 ≤ e) : 2 ^ e = 2 * (bias e + 1) := by
  unfold bias
  obtain ⟨k, rfl⟩ : ∃ k, e = k + 1 := ⟨e - 1, by omega⟩
  have : 1 ≤ 2 ^ k := Nat.one_le_two_pow
  simp [pow_succ]
  omega

/-- The fields of the pattern of a normal container. -/
theorem fdec_normal {x : FltC} (h : x.wf = true) (h0 : 0 < x.E) (h1 : x.E < allOnes x.e) :
    f64Sign (fdec x) = x.sg ∧ f64Exp (fdec x) = x.E + 1023 - bias x.e ∧
      f64Man (fdec x) = x.M * 2 ^ (52 - x.m) := by
  obtain ⟨he1, he2, hm1, hm2, hE, hM⟩ := (FltC.wf_iff x).1 h
  have hb := bias_lt he2
  have h2 := two_pow_bias he1
  have : x.E + 1023 - bias x.e < 2 ^ 11 := by unfold allOnes at h1; omega
  have key := f64OfMag_fields x.sg this (shiftUp_lt hm2 hM)
  rwa [show fdec x = f64OfMag x.sg ((x.E + 1023 - bias x.e) * 2 ^ 52 + x.M * 2 ^ (52 - x.m)) by
    simp only [fdec]
    rw [if_neg h1.ne, if_neg (by omega), if_pos h0]]

/-- The fields of the pattern of a denormal container with `e = 11`. -/
theorem fdec_native_denormal {x : FltC} (h : x.wf = true) (h0 : x.E = 0) (hM0 : x.M ≠ 0) (he : x.e = 11) :
    f64Sign (fdec x) = x.sg ∧ f64Exp (fdec x) = 0 ∧ f64Man (fdec x) = x.M * 2 ^ (52 - x.m) := by
  obtain ⟨-, -, hm1, hm2, hE, hM⟩ := (FltC.wf_iff x).1 h
  have key := f64OfMag_fields x.sg (show 0 < 2 ^ 11 by decide) (shiftUp_lt hm2 hM)
  rw [Nat.zero_mul, Nat.zero_add] at key
  rwa [show fdec x = f64OfMag x.sg (x.M * 2 ^ (52 - x.m)) by
    simp only [fdec]
    rw [if_neg (by rw [h0, he]; decide), if_neg (by omega), if_neg (by omega), if_pos he]]

/-- The fields of the pattern of a denormal container with `e < 11`: a normal binary64 value. -/
theorem fdec_denormal {x : FltC} (h : x.wf = true) (h0 : x.E = 0) (hM0 : x.M ≠ 0) (he : x.e < 11) :
    f64Sign (fdec x) = x.sg ∧ f64Exp (fdec x) = 1024 + Nat.log2 x.M - bias x.e - x.m ∧
      f64Man (fdec x) = (x.M - 2 ^ Nat.log2 x.M) * 2 ^ (52 - Nat.log2 x.M) := by
  obtain ⟨he1, -, hm1, hm2, hE, hM⟩ := (FltC.wf_iff x).1 h
  have hl : Nat.log2 x.M < x.m := (Nat.log2_lt hM0).2 hM
  have hlo : 2 ^ Nat.log2 x.M ≤ x.M := Nat.log2_self_le hM0
  have hhi : x.M < 2 ^ (Nat.log2 x.M + 1) := Nat.lt_log2_self
  have hlt := shiftUp_lt (m := Nat.log2 x.M) (M := x.M - 2 ^ Nat.log2 x.M) (by omega)
    (by rw [Nat.pow_succ] at hhi; omega)
  have hA : 1024 + Nat.log2 x.M - bias x.e - x.m < 2 ^ 11 := by omega
  have key := f64OfMag_fields x.sg hA hlt
  rwa [show fdec x = f64OfMag x.sg ((1024 + Nat.log2 x.M - bias x.e - x.m) * 2 ^ 52
      + (x.M - 2 ^ Nat.log2 x.M) * 2 ^ (52 - Nat.log2 x.M)) by
    have h2 := two_pow_bias he1
    simp only [fdec]
    rw [if_neg (by unfold allOnes; omega), if_neg (by omega), if_neg (by omega), if_neg (by omega)]]

theorem fdec_zero {x : FltC} (h : x.wf = true) (h0 : x.E = 0) (hM0 : x.M = 0) : fdec x = f64Zero x.sg := by
  have h2 := two_pow_bias ((FltC.wf_iff x).1 h).1
  simp only [fdec]
  rw [if_neg (by unfold allOnes; omega), if_pos ⟨h0, hM0⟩]

theorem fdec_inf {x : FltC} (h1 : x.E = allOnes x.e) (hM0 : x.M = 0) : fdec x = f64Inf x.sg := by
  simp only [fdec]
  rw [if_pos h1, if_pos hM0]

theorem fdec_nan {x : FltC} (h1 : x.E = allOnes x.e) (hM0 : x.M ≠ 0) : fdec x = f64Nan := by
  simp only [fdec]
  rw [if_pos h1, if_neg hM0]

end Sys2Proof.Machine
end

