-- ==== Sys2Proof/Laws/PerInstr.lean ====
section
/-! SUPPORT. Statements about commands as syntax, one lemma per constructor. EncodedFields: the word of a
well-formed command holds its opcode, and no reserved bit of its format is set (30_encoding.md R92, R107). -/

namespace Sys2Proof.Laws.EncodedFields

open Sys2Proof

/-- The word of a well-formed command has the command's opcode and a clear format. -/
def Statement (i : Instr) : Prop :=
  i.wf = true → fOp (encode i) = i.opcode.number ∧ i.opcode.format.clear (encode i) = true

theorem boolNat_lt (b : Bool) : b.toNat < 2 := by cases b <;> decide

theorem orderBit_lt (bo : ByteOrder) : bo.bit < 2 := by cases bo <;> decide

theorem encR_fields (op : Opcode) (hf : op.format = .R) (rd rs1 rs2 : RegIdx) (ip : Bool) :
    fOp (encR op rd rs1 rs2 ip) = op.number ∧ op.format.clear (encR op rd rs1 rs2 ip) = true := by
  have h : Fits op.number rd rs1 rs2 ip.toNat 0 0 0 0 0 0 :=
    ⟨number_lt op, rd.isLt, rs1.isLt, rs2.isLt, boolNat_lt ip, by decide, by decide, by decide, by decide,
      by decide, by decide⟩
  exact ⟨pack_op h, pack_clear h _ (by simp [hf])⟩

theorem encU_fields (op : Opcode) (hf : op.format = .U) (rd rs1 : RegIdx) :
    fOp (encU op rd rs1) = op.number ∧ op.format.clear (encU op rd rs1) = true := by
  have h : Fits op.number rd rs1 0 0 0 0 0 0 0 0 :=
    ⟨number_lt op, rd.isLt, rs1.isLt, by decide, by decide, by decide, by decide, by decide, by decide,
      by decide, by decide⟩
  exact ⟨pack_op h, pack_clear h _ (by simp [hf])⟩

theorem encC_fields (op : Opcode) (hf : op.format = .C) (rs1 rs2 : RegIdx) :
    fOp (encC op rs1 rs2) = op.number ∧ op.format.clear (encC op rs1 rs2) = true := by
  have h : Fits op.number 0 rs1 rs2 0 0 0 0 0 0 0 :=
    ⟨number_lt op, by decide, rs1.isLt, rs2.isLt, by decide, by decide, by decide, by decide, by decide,
      by decide, by decide⟩
  exact ⟨pack_op h, pack_clear h _ (by simp [hf])⟩

theorem encQ_fields (op : Opcode) (hf : op.format = .Q) (rs1 : RegIdx) :
    fOp (encQ op rs1) = op.number ∧ op.format.clear (encQ op rs1) = true := by
  have h : Fits op.number 0 rs1 0 0 0 0 0 0 0 0 :=
    ⟨number_lt op, by decide, rs1.isLt, by decide, by decide, by decide, by decide, by decide, by decide,
      by decide, by decide⟩
  exact ⟨pack_op h, pack_clear h _ (by simp [hf])⟩

theorem encS_fields (op : Opcode) (hf : op.format = .S) (rd : RegIdx) :
    fOp (encS op rd) = op.number ∧ op.format.clear (encS op rd) = true := by
  have h : Fits op.number rd 0 0 0 0 0 0 0 0 0 :=
    ⟨number_lt op, rd.isLt, by decide, by decide, by decide, by decide, by decide, by decide, by decide,
      by decide, by decide⟩
  exact ⟨pack_op h, pack_clear h _ (by simp [hf])⟩

theorem encMS_fields (op : Opcode) (hf : op.format = .MS) (rs1 : RegIdx) (bo : ByteOrder) (addr : Nat)
    (ha : addr < 65536) :
    fOp (encMS op rs1 bo addr) = op.number ∧ op.format.clear (encMS op rs1 bo addr) = true := by
  have h : Fits op.number 0 rs1 0 0 0 bo.bit 0 0 0 addr :=
    ⟨number_lt op, by decide, rs1.isLt, by decide, by decide, by decide, orderBit_lt bo, by decide,
      by decide, by decide, ha⟩
  exact ⟨pack_op h, pack_clear h _ (by simp [hf])⟩

theorem inew (rd : RegIdx) (sg : Bool) (w : Nat) : Statement (.inew rd sg w) := by
  intro hw
  simp only [Instr.wf, fitsX, decide_eq_true_eq] at hw
  have h : Fits Opcode.inew.number rd 0 0 0 sg.toNat 0 0 0 w 0 :=
    ⟨by decide, rd.isLt, by decide, by decide, by decide, boolNat_lt sg, by decide, by decide, by decide,
      hw, by decide⟩
  exact ⟨pack_op h, pack_clear h .N (by simp)⟩
theorem icvt (rd rs1 : RegIdx) (sg : Bool) (w : Nat) : Statement (.icvt rd rs1 sg w) := by
  intro hw
  simp only [Instr.wf, fitsX, decide_eq_true_eq] at hw
  have h : Fits Opcode.icvt.number rd rs1 0 0 sg.toNat 0 0 0 w 0 :=
    ⟨by decide, rd.isLt, rs1.isLt, by decide, by decide, boolNat_lt sg, by decide, by decide, by decide,
      hw, by decide⟩
  exact ⟨pack_op h, pack_clear h .X (by simp)⟩
theorem iset (rd : RegIdx) : Statement (.iset rd) := fun _ => encS_fields .iset rfl rd
theorem ineg (rd rs1 : RegIdx) : Statement (.ineg rd rs1) := fun _ => encU_fields .ineg rfl rd rs1
theorem iabs (rd rs1 : RegIdx) : Statement (.iabs rd rs1) := fun _ => encU_fields .iabs rfl rd rs1
theorem inot (rd rs1 : RegIdx) : Statement (.inot rd rs1) := fun _ => encU_fields .inot rfl rd rs1
theorem iadd (rd rs1 rs2 : RegIdx) : Statement (.iadd rd rs1 rs2) := fun _ => encR_fields .iadd rfl rd rs1 rs2 false
theorem iaddIp (rs1 rs2 : RegIdx) : Statement (.iaddIp rs1 rs2) := fun _ => encR_fields .iadd rfl rs1 rs1 rs2 true
theorem isub (rd rs1 rs2 : RegIdx) : Statement (.isub rd rs1 rs2) := fun _ => encR_fields .isub rfl rd rs1 rs2 false
theorem isubIp (rs1 rs2 : RegIdx) : Statement (.isubIp rs1 rs2) := fun _ => encR_fields .isub rfl rs1 rs1 rs2 true
theorem imul (rd rs1 rs2 : RegIdx) : Statement (.imul rd rs1 rs2) := fun _ => encR_fields .imul rfl rd rs1 rs2 false
theorem imulIp (rs1 rs2 : RegIdx) : Statement (.imulIp rs1 rs2) := fun _ => encR_fields .imul rfl rs1 rs1 rs2 true
theorem idiv (rd rs1 rs2 : RegIdx) : Statement (.idiv rd rs1 rs2) := fun _ => encR_fields .idiv rfl rd rs1 rs2 false
theorem idivIp (rs1 rs2 : RegIdx) : Statement (.idivIp rs1 rs2) := fun _ => encR_fields .idiv rfl rs1 rs1 rs2 true
theorem ifdiv (rd rs1 rs2 : RegIdx) : Statement (.ifdiv rd rs1 rs2) := fun _ => encR_fields .ifdiv rfl rd rs1 rs2 false
theorem ifdivIp (rs1 rs2 : RegIdx) : Statement (.ifdivIp rs1 rs2) := fun _ => encR_fields .ifdiv rfl rs1 rs1 rs2 true
theorem imod (rd rs1 rs2 : RegIdx) : Statement (.imod rd rs1 rs2) := fun _ => encR_fields .imod rfl rd rs1 rs2 false
theorem imodIp (rs1 rs2 : RegIdx) : Statement (.imodIp rs1 rs2) := fun _ => encR_fields .imod rfl rs1 rs1 rs2 true
theorem ipow (rd rs1 rs2 : RegIdx) : Statement (.ipow rd rs1 rs2) := fun _ => encR_fields .ipow rfl rd rs1 rs2 false
theorem ipowIp (rs1 rs2 : RegIdx) : Statement (.ipowIp rs1 rs2) := fun _ => encR_fields .ipow rfl rs1 rs1 rs2 true
theorem iand (rd rs1 rs2 : RegIdx) : Statement (.iand rd rs1 rs2) := fun _ => encR_fields .iand rfl rd rs1 rs2 false
theorem iandIp (rs1 rs2 : RegIdx) : Statement (.iandIp rs1 rs2) := fun _ => encR_fields .iand rfl rs1 rs1 rs2 true
theorem ior (rd rs1 rs2 : RegIdx) : Statement (.ior rd rs1 rs2) := fun _ => encR_fields .ior rfl rd rs1 rs2 false
theorem iorIp (rs1 rs2 : RegIdx) : Statement (.iorIp rs1 rs2) := fun _ => encR_fields .ior rfl rs1 rs1 rs2 true
theorem ixor (rd rs1 rs2 : RegIdx) : Statement (.ixor rd rs1 rs2) := fun _ => encR_fields .ixor rfl rd rs1 rs2 false
theorem ixorIp (rs1 rs2 : RegIdx) : Statement (.ixorIp rs1 rs2) := fun _ => encR_fields .ixor rfl rs1 rs1 rs2 true
theorem ishl (rd rs1 rs2 : RegIdx) : Statement (.ishl rd rs1 rs2) := fun _ => encR_fields .ishl rfl rd rs1 rs2 false
theorem ishlIp (rs1 rs2 : RegIdx) : Statement (.ishlIp rs1 rs2) := fun _ => encR_fields .ishl rfl rs1 rs1 rs2 true
theorem ishr (rd rs1 rs2 : RegIdx) : Statement (.ishr rd rs1 rs2) := fun _ => encR_fields .ishr rfl rd rs1 rs2 false
theorem ishrIp (rs1 rs2 : RegIdx) : Statement (.ishrIp rs1 rs2) := fun _ => encR_fields .ishr rfl rs1 rs1 rs2 true
theorem ieq (rs1 rs2 : RegIdx) : Statement (.ieq rs1 rs2) := fun _ => encC_fields .ieq rfl rs1 rs2
theorem ine (rs1 rs2 : RegIdx) : Statement (.ine rs1 rs2) := fun _ => encC_fields .ine rfl rs1 rs2
theorem ilt (rs1 rs2 : RegIdx) : Statement (.ilt rs1 rs2) := fun _ => encC_fields .ilt rfl rs1 rs2
theorem ile (rs1 rs2 : RegIdx) : Statement (.ile rs1 rs2) := fun _ => encC_fields .ile rfl rs1 rs2
theorem igt (rs1 rs2 : RegIdx) : Statement (.igt rs1 rs2) := fun _ => encC_fields .igt rfl rs1 rs2
theorem ige (rs1 rs2 : RegIdx) : Statement (.ige rs1 rs2) := fun _ => encC_fields .ige rfl rs1 rs2
theorem ibit (rs1 : RegIdx) (index : Nat) : Statement (.ibit rs1 index) := by
  intro hw
  simp only [Instr.wf, fitsX, decide_eq_true_eq] at hw
  have h : Fits Opcode.ibit.number 0 rs1 0 0 0 0 0 0 index 0 :=
    ⟨by decide, by decide, rs1.isLt, by decide, by decide, by decide, by decide, by decide, by decide,
      hw, by decide⟩
  exact ⟨pack_op h, pack_clear h .B (by simp)⟩
theorem islice (rd rs1 : RegIdx) (start stop : Nat) : Statement (.islice rd rs1 start stop) := by
  intro hw
  simp only [Instr.wf, fitsX, fitsY, Bool.and_eq_true, decide_eq_true_eq] at hw
  have h : Fits Opcode.islice.number rd rs1 0 0 0 0 0 0 start stop :=
    ⟨by decide, rd.isLt, rs1.isLt, by decide, by decide, by decide, by decide, by decide, by decide,
      hw.1, hw.2⟩
  exact ⟨pack_op h, pack_clear h .L (by simp)⟩
theorem iread (rs1 : RegIdx) : Statement (.iread rs1) := fun _ => encQ_fields .iread rfl rs1
theorem imin (rs1 : RegIdx) : Statement (.imin rs1) := fun _ => encQ_fields .imin rfl rs1
theorem imax (rs1 : RegIdx) : Statement (.imax rs1) := fun _ => encQ_fields .imax rfl rs1
theorem itob (rs1 : RegIdx) (bo : ByteOrder) (addr : Nat) : Statement (.itob rs1 bo addr) := fun hw =>
  encMS_fields .itob rfl rs1 bo addr (by simpa [Instr.wf, fitsY] using hw)
theorem ifromb (rd : RegIdx) (sg : Bool) (bo : ByteOrder) (w addr : Nat) :
    Statement (.ifromb rd sg bo w addr) := by
  intro hw
  simp only [Instr.wf, fitsX, fitsY, Bool.and_eq_true, decide_eq_true_eq] at hw
  have h : Fits Opcode.ifromb.number rd 0 0 0 sg.toNat bo.bit 0 0 w addr :=
    ⟨by decide, rd.isLt, by decide, by decide, by decide, boolNat_lt sg, orderBit_lt bo, by decide,
      by decide, hw.1, hw.2⟩
  exact ⟨pack_op h, pack_clear h .MLI (by simp)⟩
theorem fnew (rd : RegIdx) (ew mw : Nat) : Statement (.fnew rd ew mw) := by
  intro hw
  simp only [Instr.wf, fitsWidths, Bool.and_eq_true, decide_eq_true_eq] at hw
  have h : Fits Opcode.fnew.number rd 0 0 0 0 0 ew mw 0 0 :=
    ⟨by decide, rd.isLt, by decide, by decide, by decide, by decide, by decide, hw.1, hw.2, by decide,
      by decide⟩
  exact ⟨pack_op h, pack_clear h .FN (by simp)⟩
theorem fset (rd : RegIdx) : Statement (.fset rd) := fun _ => encS_fields .fset rfl rd
theorem fneg (rd rs1 : RegIdx) : Statement (.fneg rd rs1) := fun _ => encU_fields .fneg rfl rd rs1
theorem fabs (rd rs1 : RegIdx) : Statement (.fabs rd rs1) := fun _ => encU_fields .fabs rfl rd rs1
theorem fpos (rd rs1 : RegIdx) : Statement (.fpos rd rs1) := fun _ => encU_fields .fpos rfl rd rs1
theorem fadd (rd rs1 rs2 : RegIdx) : Statement (.fadd rd rs1 rs2) := fun _ => encR_fields .fadd rfl rd rs1 rs2 false
theorem faddIp (rs1 rs2 : RegIdx) : Statement (.faddIp rs1 rs2) := fun _ => encR_fields .fadd rfl rs1 rs1 rs2 true
theorem fsub (rd rs1 rs2 : RegIdx) : Statement (.fsub rd rs1 rs2) := fun _ => encR_fields .fsub rfl rd rs1 rs2 false
theorem fsubIp (rs1 rs2 : RegIdx) : Statement (.fsubIp rs1 rs2) := fun _ => encR_fields .fsub rfl rs1 rs1 rs2 true
theorem fmul (rd rs1 rs2 : RegIdx) : Statement (.fmul rd rs1 rs2) := fun _ => encR_fields .fmul rfl rd rs1 rs2 false
theorem fmulIp (rs1 rs2 : RegIdx) : Statement (.fmulIp rs1 rs2) := fun _ => encR_fields .fmul rfl rs1 rs1 rs2 true
theorem fdiv (rd rs1 rs2 : RegIdx) : Statement (.fdiv rd rs1 rs2) := fun _ => encR_fields .fdiv rfl rd rs1 rs2 false
theorem fdivIp (rs1 rs2 : RegIdx) : Statement (.fdivIp rs1 rs2) := fun _ => encR_fields .fdiv rfl rs1 rs1 rs2 true
theorem ffdiv (rd rs1 rs2 : RegIdx) : Statement (.ffdiv rd rs1 rs2) := fun _ => encR_fields .ffdiv rfl rd rs1 rs2 false
theorem ffdivIp (rs1 rs2 : RegIdx) : Statement (.ffdivIp rs1 rs2) := fun _ => encR_fields .ffdiv rfl rs1 rs1 rs2 true
theorem fmod (rd rs1 rs2 : RegIdx) : Statement (.fmod rd rs1 rs2) := fun _ => encR_fields .fmod rfl rd rs1 rs2 false
theorem fmodIp (rs1 rs2 : RegIdx) : Statement (.fmodIp rs1 rs2) := fun _ => encR_fields .fmod rfl rs1 rs1 rs2 true
theorem fpow (rd rs1 rs2 : RegIdx) : Statement (.fpow rd rs1 rs2) := fun _ => encR_fields .fpow rfl rd rs1 rs2 false
theorem fpowIp (rs1 rs2 : RegIdx) : Statement (.fpowIp rs1 rs2) := fun _ => encR_fields .fpow rfl rs1 rs1 rs2 true
theorem feq (rs1 rs2 : RegIdx) : Statement (.feq rs1 rs2) := fun _ => encC_fields .feq rfl rs1 rs2
theorem fne (rs1 rs2 : RegIdx) : Statement (.fne rs1 rs2) := fun _ => encC_fields .fne rfl rs1 rs2
theorem flt (rs1 rs2 : RegIdx) : Statement (.flt rs1 rs2) := fun _ => encC_fields .flt rfl rs1 rs2
theorem fle (rs1 rs2 : RegIdx) : Statement (.fle rs1 rs2) := fun _ => encC_fields .fle rfl rs1 rs2
theorem fgt (rs1 rs2 : RegIdx) : Statement (.fgt rs1 rs2) := fun _ => encC_fields .fgt rfl rs1 rs2
theorem fge (rs1 rs2 : RegIdx) : Statement (.fge rs1 rs2) := fun _ => encC_fields .fge rfl rs1 rs2
theorem fread (rs1 : RegIdx) : Statement (.fread rs1) := fun _ => encQ_fields .fread rfl rs1
theorem ftob (rs1 : RegIdx) (bo : ByteOrder) (addr : Nat) : Statement (.ftob rs1 bo addr) := fun hw =>
  encMS_fields .ftob rfl rs1 bo addr (by simpa [Instr.wf, fitsY] using hw)
theorem ffromb (rd : RegIdx) (bo : ByteOrder) (ew mw addr : Nat) :
    Statement (.ffromb rd bo ew mw addr) := by
  intro hw
  simp only [Instr.wf, fitsWidths, fitsY, Bool.and_eq_true, decide_eq_true_eq] at hw
  have h : Fits Opcode.ffromb.number rd 0 0 0 0 bo.bit ew mw 0 addr :=
    ⟨by decide, rd.isLt, by decide, by decide, by decide, by decide, orderBit_lt bo, hw.1.1, hw.1.2,
      by decide, hw.2⟩
  exact ⟨pack_op h, pack_clear h .MLF (by simp)⟩

end Sys2Proof.Laws.EncodedFields
end

