-- ==== Sys2Proof/Machine/Asm.lean ====
section
/-! DEFINITION. The assembler syntax of the spec (30_encoding.md R110) and its pseudo-instructions (R111):
how a command is written (log 19). -/

namespace Sys2Proof.Machine

/-! ## Operands (R110) -/

def asmReg (i : RegIdx) : String := "R" ++ toString i.val

/-- `i<n>` or `u<n>`. -/
def asmIntShape (sg : Bool) (n : Nat) : String := (if sg then "i" else "u") ++ toString n

/-- `f<e>.<m>`. -/
def asmFltShape (e m : Nat) : String := "f" ++ toString e ++ "." ++ toString m

def asmOrder : ByteOrder → String
  | .big => "be"
  | .little => "le"

/-- `x` in hex, with `k` digits. -/
def asmHexDigits (x : Nat) : Nat → List Char
  | 0 => []
  | k + 1 => asmHexDigits (x / 16) k ++ [(Nat.digitChar (x % 16)).toUpper]

def asmHex (x k : Nat) : String := "0x" ++ String.ofList (asmHexDigits x k)

/-- A HOST_IN operand, written last: an integer in decimal, a pattern in hex. -/
def asmHostIn : HostIn → String
  | .int x => "#" ++ toString x
  | .f64 b => "#" ++ asmHex b.toNat 16

def asmJoin : List String → String
  | [] => ""
  | [x] => x
  | x :: xs => x ++ ", " ++ asmJoin xs

/-! ## Mnemonics and commands -/

/-- The mnemonic (R107). -/
def Instr.mnemonic : Instr → String
  | .inew _ _ _ => "INEW"
  | .icvt _ _ _ _ => "ICVT"
  | .iset _ => "ISET"
  | .ineg _ _ => "INEG"
  | .iabs _ _ => "IABS"
  | .inot _ _ => "INOT"
  | .iadd _ _ _ => "IADD"
  | .iaddIp _ _ => "IADD.IP"
  | .isub _ _ _ => "ISUB"
  | .isubIp _ _ => "ISUB.IP"
  | .imul _ _ _ => "IMUL"
  | .imulIp _ _ => "IMUL.IP"
  | .idiv _ _ _ => "IDIV"
  | .idivIp _ _ => "IDIV.IP"
  | .ifdiv _ _ _ => "IFDIV"
  | .ifdivIp _ _ => "IFDIV.IP"
  | .imod _ _ _ => "IMOD"
  | .imodIp _ _ => "IMOD.IP"
  | .ipow _ _ _ => "IPOW"
  | .ipowIp _ _ => "IPOW.IP"
  | .iand _ _ _ => "IAND"
  | .iandIp _ _ => "IAND.IP"
  | .ior _ _ _ => "IOR"
  | .iorIp _ _ => "IOR.IP"
  | .ixor _ _ _ => "IXOR"
  | .ixorIp _ _ => "IXOR.IP"
  | .ishl _ _ _ => "ISHL"
  | .ishlIp _ _ => "ISHL.IP"
  | .ishr _ _ _ => "ISHR"
  | .ishrIp _ _ => "ISHR.IP"
  | .ieq _ _ => "IEQ"
  | .ine _ _ => "INE"
  | .ilt _ _ => "ILT"
  | .ile _ _ => "ILE"
  | .igt _ _ => "IGT"
  | .ige _ _ => "IGE"
  | .ibit _ _ => "IBIT"
  | .islice _ _ _ _ => "ISLICE"
  | .iread _ => "IREAD"
  | .imin _ => "IMIN"
  | .imax _ => "IMAX"
  | .itob _ _ _ => "ITOB"
  | .ifromb _ _ _ _ _ => "IFROMB"
  | .fnew _ _ _ => "FNEW"
  | .fset _ => "FSET"
  | .fneg _ _ => "FNEG"
  | .fabs _ _ => "FABS"
  | .fpos _ _ => "FPOS"
  | .fadd _ _ _ => "FADD"
  | .faddIp _ _ => "FADD.IP"
  | .fsub _ _ _ => "FSUB"
  | .fsubIp _ _ => "FSUB.IP"
  | .fmul _ _ _ => "FMUL"
  | .fmulIp _ _ => "FMUL.IP"
  | .fdiv _ _ _ => "FDIV"
  | .fdivIp _ _ => "FDIV.IP"
  | .ffdiv _ _ _ => "FFDIV"
  | .ffdivIp _ _ => "FFDIV.IP"
  | .fmod _ _ _ => "FMOD"
  | .fmodIp _ _ => "FMOD.IP"
  | .fpow _ _ _ => "FPOW"
  | .fpowIp _ _ => "FPOW.IP"
  | .feq _ _ => "FEQ"
  | .fne _ _ => "FNE"
  | .flt _ _ => "FLT"
  | .fle _ _ => "FLE"
  | .fgt _ _ => "FGT"
  | .fge _ _ => "FGE"
  | .fread _ => "FREAD"
  | .ftob _ _ _ => "FTOB"
  | .ffromb _ _ _ _ _ => "FFROMB"

/-- The operands, in the order of R110. -/
def Instr.asmOperands : Instr → List String
  | .inew rd sg w => [asmReg rd, asmIntShape sg w]
  | .icvt rd rs1 sg w => [asmReg rd, asmReg rs1, asmIntShape sg w]
  | .iset rd => [asmReg rd]
  | .ineg rd rs1 => [asmReg rd, asmReg rs1]
  | .iabs rd rs1 => [asmReg rd, asmReg rs1]
  | .inot rd rs1 => [asmReg rd, asmReg rs1]
  | .iadd rd rs1 rs2 => [asmReg rd, asmReg rs1, asmReg rs2]
  | .iaddIp rs1 rs2 => [asmReg rs1, asmReg rs1, asmReg rs2]
  | .isub rd rs1 rs2 => [asmReg rd, asmReg rs1, asmReg rs2]
  | .isubIp rs1 rs2 => [asmReg rs1, asmReg rs1, asmReg rs2]
  | .imul rd rs1 rs2 => [asmReg rd, asmReg rs1, asmReg rs2]
  | .imulIp rs1 rs2 => [asmReg rs1, asmReg rs1, asmReg rs2]
  | .idiv rd rs1 rs2 => [asmReg rd, asmReg rs1, asmReg rs2]
  | .idivIp rs1 rs2 => [asmReg rs1, asmReg rs1, asmReg rs2]
  | .ifdiv rd rs1 rs2 => [asmReg rd, asmReg rs1, asmReg rs2]
  | .ifdivIp rs1 rs2 => [asmReg rs1, asmReg rs1, asmReg rs2]
  | .imod rd rs1 rs2 => [asmReg rd, asmReg rs1, asmReg rs2]
  | .imodIp rs1 rs2 => [asmReg rs1, asmReg rs1, asmReg rs2]
  | .ipow rd rs1 rs2 => [asmReg rd, asmReg rs1, asmReg rs2]
  | .ipowIp rs1 rs2 => [asmReg rs1, asmReg rs1, asmReg rs2]
  | .iand rd rs1 rs2 => [asmReg rd, asmReg rs1, asmReg rs2]
  | .iandIp rs1 rs2 => [asmReg rs1, asmReg rs1, asmReg rs2]
  | .ior rd rs1 rs2 => [asmReg rd, asmReg rs1, asmReg rs2]
  | .iorIp rs1 rs2 => [asmReg rs1, asmReg rs1, asmReg rs2]
  | .ixor rd rs1 rs2 => [asmReg rd, asmReg rs1, asmReg rs2]
  | .ixorIp rs1 rs2 => [asmReg rs1, asmReg rs1, asmReg rs2]
  | .ishl rd rs1 rs2 => [asmReg rd, asmReg rs1, asmReg rs2]
  | .ishlIp rs1 rs2 => [asmReg rs1, asmReg rs1, asmReg rs2]
  | .ishr rd rs1 rs2 => [asmReg rd, asmReg rs1, asmReg rs2]
  | .ishrIp rs1 rs2 => [asmReg rs1, asmReg rs1, asmReg rs2]
  | .ieq rs1 rs2 => [asmReg rs1, asmReg rs2]
  | .ine rs1 rs2 => [asmReg rs1, asmReg rs2]
  | .ilt rs1 rs2 => [asmReg rs1, asmReg rs2]
  | .ile rs1 rs2 => [asmReg rs1, asmReg rs2]
  | .igt rs1 rs2 => [asmReg rs1, asmReg rs2]
  | .ige rs1 rs2 => [asmReg rs1, asmReg rs2]
  | .ibit rs1 index => [asmReg rs1, toString index]
  | .islice rd rs1 start stop => [asmReg rd, asmReg rs1, toString start, toString stop]
  | .iread rs1 => [asmReg rs1]
  | .imin rs1 => [asmReg rs1]
  | .imax rs1 => [asmReg rs1]
  | .itob rs1 bo addr => [asmReg rs1, asmOrder bo, asmHex addr 4]
  | .ifromb rd sg bo w addr => [asmReg rd, asmIntShape sg w, asmOrder bo, asmHex addr 4]
  | .fnew rd ew mw => [asmReg rd, asmFltShape ew mw]
  | .fset rd => [asmReg rd]
  | .fneg rd rs1 => [asmReg rd, asmReg rs1]
  | .fabs rd rs1 => [asmReg rd, asmReg rs1]
  | .fpos rd rs1 => [asmReg rd, asmReg rs1]
  | .fadd rd rs1 rs2 => [asmReg rd, asmReg rs1, asmReg rs2]
  | .faddIp rs1 rs2 => [asmReg rs1, asmReg rs1, asmReg rs2]
  | .fsub rd rs1 rs2 => [asmReg rd, asmReg rs1, asmReg rs2]
  | .fsubIp rs1 rs2 => [asmReg rs1, asmReg rs1, asmReg rs2]
  | .fmul rd rs1 rs2 => [asmReg rd, asmReg rs1, asmReg rs2]
  | .fmulIp rs1 rs2 => [asmReg rs1, asmReg rs1, asmReg rs2]
  | .fdiv rd rs1 rs2 => [asmReg rd, asmReg rs1, asmReg rs2]
  | .fdivIp rs1 rs2 => [asmReg rs1, asmReg rs1, asmReg rs2]
  | .ffdiv rd rs1 rs2 => [asmReg rd, asmReg rs1, asmReg rs2]
  | .ffdivIp rs1 rs2 => [asmReg rs1, asmReg rs1, asmReg rs2]
  | .fmod rd rs1 rs2 => [asmReg rd, asmReg rs1, asmReg rs2]
  | .fmodIp rs1 rs2 => [asmReg rs1, asmReg rs1, asmReg rs2]
  | .fpow rd rs1 rs2 => [asmReg rd, asmReg rs1, asmReg rs2]
  | .fpowIp rs1 rs2 => [asmReg rs1, asmReg rs1, asmReg rs2]
  | .feq rs1 rs2 => [asmReg rs1, asmReg rs2]
  | .fne rs1 rs2 => [asmReg rs1, asmReg rs2]
  | .flt rs1 rs2 => [asmReg rs1, asmReg rs2]
  | .fle rs1 rs2 => [asmReg rs1, asmReg rs2]
  | .fgt rs1 rs2 => [asmReg rs1, asmReg rs2]
  | .fge rs1 rs2 => [asmReg rs1, asmReg rs2]
  | .fread rs1 => [asmReg rs1]
  | .ftob rs1 bo addr => [asmReg rs1, asmOrder bo, asmHex addr 4]
  | .ffromb rd bo ew mw addr => [asmReg rd, asmFltShape ew mw, asmOrder bo, asmHex addr 4]

/-- A command, one line (R110). -/
def Instr.asm (i : Instr) (hostIn : Option HostIn) : String :=
  Instr.mnemonic i ++ " " ++ asmJoin (Instr.asmOperands i ++ (hostIn.map asmHostIn).toList)

/-! ## Pseudo-instructions (R111) -/

/-- `<OP>.IP Rs1, Rs2` stands for `<OP>.IP Rs1, Rs1, Rs2`. -/
def asmInPlacePseudo (op : Opcode) (rs1 rs2 : RegIdx) : Word := encR op rs1 rs1 rs2 true

/-- The float shape aliases. -/
inductive ShapeAlias
  | f16 | bf16 | f32 | f64
deriving DecidableEq, Repr

/-- The widths `(e, m)` of an alias. -/
def ShapeAlias.widths : ShapeAlias → Nat × Nat
  | .f16 => (5, 10)
  | .bf16 => (8, 7)
  | .f32 => (8, 23)
  | .f64 => (11, 52)

end Sys2Proof.Machine
end

