-- ==== Sys2Proof/Tests/Slice0.lean ====
section
/-! SUPPORT. Tests: well-formedness, decoding, one step at a time on small states, and for each statement of
Obligations.lean states and operands that meet its hypotheses. Expected values are those of
95_test_vectors.md and of the rules' own examples. -/

open Sys2Proof Sys2Proof.Machine

namespace Sys2Proof.Tests

/-! ## Builders -/

/-- The state after reset, but for the parameters and the registers from R1 on. -/
def built (cfg : Config) (l : List Reg) : State :=
  { State.reset with config := cfg, regs := Vector.ofFn fun i => (Reg.unwritten :: l).getD i.val .unwritten }

/-- As `built`, with the default parameters. -/
def regs (l : List Reg) : State := built Config.default l

/-- The state after reset with an operand on HOST_IN. -/
def onPort (h : HostIn) : State := { State.reset with hostIn := some h }

/-- The state after reset with these bytes in `MEM` from an address upward. -/
def bytesFrom (a : Nat) (bs : List Byte) : State := { State.reset with mem := memWriteBytes [] a bs }

/-- The state after reset with one event pending. -/
def waiting (e : HostEvent) : State := { State.reset with pending := [e] }

def i8 (v : Int) : Reg := .int ⟨8, true, v⟩
def u8 (v : Int) : Reg := .int ⟨8, false, v⟩
def i16 (v : Int) : Reg := .int ⟨16, true, v⟩
def u16 (v : Int) : Reg := .int ⟨16, false, v⟩

/-- The container of widths `(e, m)` with a pattern. -/
def pat (e m P : Nat) : FltC := ⟨e, m, P / 2 ^ (e + m) % 2 == 1, P / 2 ^ m % 2 ^ e, P % 2 ^ m⟩

def f32 (P : Nat) : Reg := .flt (pat 8 23 P)
def f16 (P : Nat) : Reg := .flt (pat 5 10 P)

/-- The state a command answers. -/
def after (i : Instr) (s : State) : State :=
  match exec i s with
  | .next t => t
  | .refused _ => s

/-- A register after a command, and the response. -/
def put (i : Instr) (s : State) (r : RegIdx) : Reg × Option Response := ((after i s).reg r, (after i s).response)

/-- `MEM` and the response after a command. -/
def stored (i : Instr) (s : State) : Memory × Option Response := ((after i s).mem, (after i s).response)

/-- The response of a command. -/
def reply (i : Instr) (s : State) : Option Response := (after i s).response

def done : Option Response := some ⟨.ok, none⟩
def said (o : Out) : Option Response := some ⟨.ok, some o⟩
def failed (f : Status) : Option Response := some ⟨f, none⟩

/-! ## Well-formedness: what each check refuses -/

theorem test_wf_x :
    (Instr.inew 0 true 32768).wf = false ∧ (Instr.icvt 0 1 true 32768).wf = false ∧
    (Instr.ibit 0 32768).wf = false ∧ (Instr.islice 0 1 32768 0).wf = false ∧
    (Instr.ifromb 0 true .big 32768 0).wf = false ∧ (Instr.inew 0 true 32767).wf = true := by decide

theorem test_wf_y :
    (Instr.islice 0 1 0 65536).wf = false ∧ (Instr.itob 0 .big 65536).wf = false ∧
    (Instr.ifromb 0 true .big 8 65536).wf = false ∧ (Instr.ftob 0 .big 65536).wf = false ∧
    (Instr.ffromb 0 .big 8 23 65536).wf = false ∧ (Instr.itob 0 .big 65535).wf = true := by decide

theorem test_wf_widths :
    (Instr.fnew 0 16 23).wf = false ∧ (Instr.fnew 0 8 64).wf = false ∧
    (Instr.ffromb 0 .big 16 23 0).wf = false ∧ (Instr.ffromb 0 .big 8 64 0).wf = false ∧
    (Instr.fnew 0 15 63).wf = true := by decide

/-! ## Decoding: every command, its word written from the formats of 30_encoding.md R93 to R105 -/

theorem test_decode_construct :
    decode 0x0110000015550000#64 = .ok (.inew 1 false 5461) ∧
    decode 0x02E9000015550000#64 = .ok (.icvt 14 9 false 5461) ∧
    decode 0x0380000000000000#64 = .ok (.iset 8) := by decide

theorem test_decode_int_unary :
    decode 0x08B5000000000000#64 = .ok (.ineg 11 5) ∧
    decode 0x090D000000000000#64 = .ok (.iabs 0 13) ∧
    decode 0x0AA7000000000000#64 = .ok (.inot 10 7) := by decide

theorem test_decode_int_arith :
    decode 0x1043100000000000#64 = .ok (.iadd 4 3 1) ∧
    decode 0x112FE00000000000#64 = .ok (.isub 2 15 14) ∧
    decode 0x129C600000000000#64 = .ok (.imul 9 12 6) ∧
    decode 0x138B500000000000#64 = .ok (.idiv 8 11 5) ∧
    decode 0x140DA00000000000#64 = .ok (.ifdiv 0 13 10) ∧
    decode 0x1574300000000000#64 = .ok (.imod 7 4 3) ∧
    decode 0x1612F00000000000#64 = .ok (.ipow 1 2 15) := by decide

theorem test_decode_int_arith_in_place :
    decode 0x10EE980000000000#64 = .ok (.iaddIp 14 9) ∧
    decode 0x11CC680000000000#64 = .ok (.isubIp 12 6) ∧
    decode 0x1288B80000000000#64 = .ok (.imulIp 8 11) ∧
    decode 0x1355080000000000#64 = .ok (.idivIp 5 0) ∧
    decode 0x14DDA80000000000#64 = .ok (.ifdivIp 13 10) ∧
    decode 0x1577480000000000#64 = .ok (.imodIp 7 4) ∧
    decode 0x1633180000000000#64 = .ok (.ipowIp 3 1) := by decide

theorem test_decode_int_bitwise_shift :
    decode 0x172FE00000000000#64 = .ok (.iand 2 15 14) ∧
    decode 0x189C600000000000#64 = .ok (.ior 9 12 6) ∧
    decode 0x198B500000000000#64 = .ok (.ixor 8 11 5) ∧
    decode 0x1A0DA00000000000#64 = .ok (.ishl 0 13 10) ∧
    decode 0x1B74300000000000#64 = .ok (.ishr 7 4 3) ∧
    decode 0x1711280000000000#64 = .ok (.iandIp 1 2) ∧
    decode 0x18FFE80000000000#64 = .ok (.iorIp 15 14) ∧
    decode 0x1999C80000000000#64 = .ok (.ixorIp 9 12) ∧
    decode 0x1A66880000000000#64 = .ok (.ishlIp 6 8) ∧
    decode 0x1BBB580000000000#64 = .ok (.ishrIp 11 5) := by decide

theorem test_decode_int_compare :
    decode 0x2000D00000000000#64 = .ok (.ieq 0 13) ∧
    decode 0x210A700000000000#64 = .ok (.ine 10 7) ∧
    decode 0x2204300000000000#64 = .ok (.ilt 4 3) ∧
    decode 0x2301200000000000#64 = .ok (.ile 1 2) ∧
    decode 0x240FE00000000000#64 = .ok (.igt 15 14) ∧
    decode 0x2509C00000000000#64 = .ok (.ige 9 12) := by decide

theorem test_decode_int_bits_bytes :
    decode 0x2806000000070000#64 = .ok (.ibit 6 7) ∧
    decode 0x29B500000004800C#64 = .ok (.islice 11 5 4 0x800C) ∧
    decode 0x2A0A000000000000#64 = .ok (.iread 10) ∧
    decode 0x2B07000000000000#64 = .ok (.imin 7) ∧
    decode 0x2C04000000000000#64 = .ok (.imax 4) ∧
    decode 0x3003020000008001#64 = .ok (.itob 3 .little 0x8001) ∧
    decode 0x31F00200000C1234#64 = .ok (.ifromb 15 false .little 12 0x1234) := by decide

theorem test_decode_flt_construct :
    decode 0x4180017A00000000#64 = .ok (.fnew 8 11 52) ∧
    decode 0x4300000000000000#64 = .ok (.fset 0) ∧
    decode 0x6A0D000000000000#64 = .ok (.fread 13) ∧
    decode 0x700A00000000FFFE#64 = .ok (.ftob 10 .big 0xfffe) ∧
    decode 0x7130037A00008001#64 = .ok (.ffromb 3 .little 11 52 0x8001) := by decide

theorem test_decode_flt_unary :
    decode 0x489C000000000000#64 = .ok (.fneg 9 12) ∧
    decode 0x4968000000000000#64 = .ok (.fabs 6 8) ∧
    decode 0x4AB5000000000000#64 = .ok (.fpos 11 5) := by decide

theorem test_decode_flt_arith :
    decode 0x500DA00000000000#64 = .ok (.fadd 0 13 10) ∧
    decode 0x5174300000000000#64 = .ok (.fsub 7 4 3) ∧
    decode 0x5212F00000000000#64 = .ok (.fmul 1 2 15) ∧
    decode 0x53E9C00000000000#64 = .ok (.fdiv 14 9 12) ∧
    decode 0x5468B00000000000#64 = .ok (.ffdiv 6 8 11) ∧
    decode 0x5550D00000000000#64 = .ok (.fmod 5 0 13) ∧
    decode 0x56A7400000000000#64 = .ok (.fpow 10 7 4) := by decide

theorem test_decode_flt_arith_in_place :
    decode 0x5033180000000000#64 = .ok (.faddIp 3 1) ∧
    decode 0x5122F80000000000#64 = .ok (.fsubIp 2 15) ∧
    decode 0x52EE980000000000#64 = .ok (.fmulIp 14 9) ∧
    decode 0x53CC680000000000#64 = .ok (.fdivIp 12 6) ∧
    decode 0x5488B80000000000#64 = .ok (.ffdivIp 8 11) ∧
    decode 0x5555080000000000#64 = .ok (.fmodIp 5 0) ∧
    decode 0x56DDA80000000000#64 = .ok (.fpowIp 13 10) := by decide

theorem test_decode_flt_compare :
    decode 0x6007400000000000#64 = .ok (.feq 7 4) ∧
    decode 0x6103100000000000#64 = .ok (.fne 3 1) ∧
    decode 0x6202F00000000000#64 = .ok (.flt 2 15) ∧
    decode 0x630E900000000000#64 = .ok (.fle 14 9) ∧
    decode 0x640C600000000000#64 = .ok (.fgt 12 6) ∧
    decode 0x6508B00000000000#64 = .ok (.fge 8 11) := by decide

/-- Words that 95_test_vectors.md 2.1 and P4 call IllegalCommand. -/
theorem test_decode_refused :
    [0x1031180000000000#64, 0x1041100000000001#64, 0x0000000000000000#64, 0x8000000000000000#64,
      0x0400000000000000#64, 0x2213200000000000#64, 0x0110040000080001#64, 0x7001000000010000#64].map
        (fun w => match decode w with | .ok _ => true | .error _ => false) = List.replicate 8 false := by decide

/-- The host's names: the table's number of a word is the word, and the command placed so is the next one run
(log 5, log 20). -/
theorem test_fetch_word :
    decodeTableWord 64 0x2203200000000000 = some (.ilt 3 2) ∧ decodeTableWord 64 0x0400000000000000 = none ∧
    (match step (State.reset.withFetchWord 64 0x0110040000080000) with
      | .next t => t.reg 1
      | .refused _ => .unwritten) = i8 0 := by decide

/-! ## Construction (95_test_vectors.md 2.3, 2.8) -/

theorem test_inew :
    put (.inew 3 true 8) (onPort (.int 128)) 3 = (i8 (-128), done) ∧
    put (.inew 3 false 64) (onPort (.int (-1))) 3 = (.int ⟨64, false, 18446744073709551615⟩, done) ∧
    put (.inew 3 true 0) (onPort (.int 1)) 3 = (.unwritten, failed .invalidWidth) := by decide

theorem test_icvt :
    put (.icvt 3 1 false 16) (regs [i8 (-1)]) 3 = (u16 65535, done) ∧
    put (.icvt 3 1 true 8) (regs [u16 0x80FF]) 3 = (i8 (-1), done) ∧
    put (.icvt 3 1 true 0) (regs []) 3 = (.unwritten, failed .unwritten) := by decide

theorem test_iset :
    put (.iset 1) { regs [.int ⟨3, true, 0⟩] with hostIn := some (.int 4) } 1 = (.int ⟨3, true, -4⟩, done) ∧
    put (.iset 1) { regs [f16 0] with hostIn := some (.int 5) } 1 = (f16 0, failed .typeMismatch) := by decide

theorem test_fnew_carry :
    put (.fnew 3 8 23) (onPort (.f64 0x3FFFFFFFFFFFFFFF#64)) 3 = (f32 0x40000000, done) ∧
    put (.fnew 3 8 23) (onPort (.f64 0x7FEFFFFFFFFFFFFF#64)) 3 = (f32 0x7FFFFFFF, done) ∧
    put (.fnew 3 8 53) (onPort (.f64 0#64)) 3 = (.unwritten, failed .invalidWidth) := by decide

theorem test_fnew_drop :
    put (.fnew 3 8 23) { built { Config.default with carryPolicy := .drop } [] with
      hostIn := some (.f64 0x3FFFFFFFFFFFFFFF#64) } 3 = (f32 0x3F800000, done) := by decide

theorem test_fset :
    put (.fset 1) { regs [f16 0x3C00] with hostIn := some (.f64 0x40EFFE0000000000#64) } 1
      = (f16 0x7C00, done) := by decide

/-! ## Integer arithmetic (95_test_vectors.md 2.4) -/

theorem test_int_unary :
    put (.ineg 3 1) (regs [u8 1]) 3 = (u8 255, done) ∧ put (.iabs 3 1) (regs [i8 (-128)]) 3 = (i8 (-128), done) ∧
    put (.iabs 3 1) (regs [i8 (-5)]) 3 = (i8 5, done) ∧
    put (.inot 3 1) (regs [u16 0x1234]) 3 = (u16 0xEDCB, done) := by decide

theorem test_iadd :
    put (.iadd 3 1 2) (regs [i8 (-1), u16 1]) 3 = (u16 0, done) ∧
    put (.iaddIp 1 2) (regs [u8 250, u16 10]) 1 = (u8 4, done) ∧
    put (.iadd 1 1 1) (regs [i8 100]) 1 = (i8 (-56), done) := by decide

theorem test_isub :
    put (.isub 3 1 2) (regs [.int ⟨4, true, -8⟩, i16 1]) 3 = (i16 (-9), done) ∧
    put (.isubIp 1 2) (regs [.int ⟨4, true, -8⟩, i16 1]) 1 = (.int ⟨4, true, 7⟩, done) := by decide

theorem test_imul :
    put (.imul 3 1 2) (regs [u16 300, i8 (-1)]) 3 = (u16 65236, done) ∧
    put (.imulIp 1 2) (regs [i8 16, i8 8]) 1 = (i8 (-128), done) := by decide

theorem test_idiv :
    put (.idiv 3 1 2) (regs [i8 (-7), i8 2]) 3 = (i8 (-3), done) ∧
    put (.idiv 3 1 2) (regs [i8 (-128), i8 (-1)]) 3 = (i8 (-128), done) ∧
    put (.idivIp 1 2) (regs [i8 (-7), u8 2]) 1 = (i8 124, done) ∧
    put (.idiv 3 1 2) (regs [i8 5, u16 0]) 3 = (.unwritten, failed .divideByZero) := by decide

theorem test_ifdiv :
    put (.ifdiv 3 1 2) (regs [i8 7, i8 (-2)]) 3 = (i8 (-4), done) ∧
    put (.ifdivIp 1 2) (regs [i8 (-7), i8 2]) 1 = (i8 (-4), done) := by decide

theorem test_imod :
    put (.imod 3 1 2) (regs [i8 7, i8 (-2)]) 3 = (i8 (-1), done) ∧
    put (.imodIp 1 2) (regs [i8 (-7), i8 2]) 1 = (i8 1, done) ∧
    put (.imod 3 1 2) (built { Config.default with modKind := .trunc } [i8 (-7), i8 2]) 3
      = (i8 (-1), done) := by decide

theorem test_ipow :
    put (.ipow 3 1 2) (regs [i8 3, i8 5]) 3 = (i8 (-13), done) ∧
    put (.ipow 3 1 2) (regs [u8 2, i8 (-1)]) 3 = (u8 0, done) ∧
    put (.ipowIp 1 2) (regs [i8 0, i8 0]) 1 = (i8 1, done) ∧
    put (.ipow 3 1 2) (regs [i8 2, i8 (-1)]) 3 = (.unwritten, failed .negativeExponent) := by decide

/-! ## Bitwise and shift (95_test_vectors.md 2.5) -/

theorem test_int_bitwise :
    put (.iand 3 1 2) (regs [i8 (-1), u16 0x0F0F]) 3 = (u16 0x0F0F, done) ∧
    put (.iandIp 1 2) (regs [i8 (-1), u16 0x0F0F]) 1 = (i8 0x0F, done) ∧
    put (.ior 3 1 2) (regs [u8 0x0F, i16 (-256)]) 3 = (u16 0xFF0F, done) ∧
    put (.iorIp 1 2) (regs [i8 0x0F, i8 (-128)]) 1 = (i8 (-113), done) ∧
    put (.ixor 3 1 2) (regs [i8 (-1), i8 0x55]) 3 = (i8 (-86), done) ∧
    put (.ixorIp 1 2) (regs [u8 0xFF, u16 0xFF]) 1 = (u8 0, done) := by decide

theorem test_ishl :
    put (.ishl 3 1 2) (regs [i8 1, i8 7]) 3 = (i8 (-128), done) ∧
    put (.ishl 3 1 2) (regs [i8 3, u8 255]) 3 = (i8 0, done) ∧
    put (.ishlIp 1 2) (regs [u16 0x1234, u8 4]) 1 = (u16 0x2340, done) ∧
    put (.ishl 3 1 2) (regs [i8 3, i8 (-1)]) 3 = (.unwritten, failed .negativeShift) := by decide

theorem test_ishr :
    put (.ishr 3 1 2) (regs [i8 (-128), u8 1]) 3 = (i8 (-64), done) ∧
    put (.ishr 3 1 2) (regs [u8 0x80, u8 1]) 3 = (u8 0x40, done) ∧
    put (.ishrIp 1 2) (regs [i8 (-1), u8 100]) 1 = (i8 (-1), done) ∧
    put (.ishr 3 1 2) (regs [i8 3, f32 0]) 3 = (.unwritten, failed .typeMismatch) := by decide

/-! ## Comparisons (95_test_vectors.md 2.6, 2.9): EQ, NE, LT, LE, GT, GE -/

theorem test_int_compare :
    [Instr.ieq 1 2, .ine 1 2, .ilt 1 2, .ile 1 2, .igt 1 2, .ige 1 2].map
        (reply · (regs [i8 (-128), i8 127])) =
      [false, true, true, true, false, false].map (said ∘ Out.bit) ∧
    [Instr.ieq 1 2, .ine 1 2, .ilt 1 2, .ile 1 2, .igt 1 2, .ige 1 2].map
        (reply · (regs [i8 (-1), u8 255])) =
      [true, false, false, true, false, true].map (said ∘ Out.bit) := by decide

theorem test_flt_compare :
    [Instr.feq 1 2, .fne 1 2, .flt 1 2, .fle 1 2, .fgt 1 2, .fge 1 2].map
        (reply · (regs [f16 0x2E66, f32 0x3DCCCCCD])) =
      [false, true, true, true, false, false].map (said ∘ Out.bit) ∧
    [Instr.feq 1 2, .fne 1 2, .flt 1 2, .fle 1 2, .fgt 1 2, .fge 1 2].map
        (reply · (regs [f32 0x7FC00000, f32 0x7FC00000])) =
      [false, true, false, false, false, false].map (said ∘ Out.bit) := by decide

/-! ## Bits and readouts (95_test_vectors.md S12, 2.7, 2.8) -/

theorem test_ibit :
    reply (.ibit 1 7) (regs [i8 (-128)]) = said (.bit true) ∧
    reply (.ibit 1 0) (regs [i8 (-128)]) = said (.bit false) ∧
    reply (.ibit 1 8) (regs [i8 (-128)]) = failed .indexOutOfRange := by decide

theorem test_islice :
    put (.islice 3 1 4 12) (regs [u16 0xFEFF]) 3 = (u8 0xEF, done) ∧
    put (.islice 3 1 15 16) (regs [i16 (-32768)]) 3 = (.int ⟨1, false, 1⟩, done) ∧
    put (.islice 3 1 4 4) (regs [u16 0x1234]) 3 = (.unwritten, failed .indexOutOfRange) ∧
    put (.islice 3 1 8 17) (regs [u16 0x1234]) 3 = (.unwritten, failed .indexOutOfRange) := by decide

theorem test_int_readouts :
    reply (.iread 1) (regs [i8 (-128)]) = said (.int (-128)) ∧
    reply (.imin 1) (regs [.int ⟨1, true, 0⟩]) = said (.int (-1)) ∧
    reply (.imax 1) (regs [.int ⟨1, true, 0⟩]) = said (.int 0) ∧
    reply (.imin 1) (regs [u8 7]) = said (.int 0) ∧ reply (.imax 1) (regs [i16 7]) = said (.int 32767) := by decide

theorem test_fread :
    reply (.fread 1) (regs [.flt ⟨8, 23, false, 0, 1⟩]) = said (.f64 0x36A0000000000000#64) ∧
    reply (.fread 1) (regs [.flt ⟨1, 1, false, 0, 1⟩]) = said (.f64 0x3FF0000000000000#64) ∧
    reply (.fread 1) (regs [f32 0xFF800123]) = said (.f64 0x7FF8000000000000#64) := by decide

/-! ## Bytes (95_test_vectors.md S9, 2.2, 2.7, 2.8) -/

theorem test_itob :
    stored (.itob 1 .little 7) (regs [.int ⟨9, false, 0x1A5⟩]) = ([(7, 0xA5#8), (8, 0x01#8)], done) ∧
    stored (.itob 1 .big 7) (regs [.int ⟨12, true, -2048⟩]) = ([(7, 0x08#8)], done) ∧
    stored (.itob 1 .big 0xFFFE) (regs [u16 0xABCD]) = ([(0xFFFE, 0xAB#8), (0xFFFF, 0xCD#8)], done) ∧
    stored (.itob 1 .big 0xFFFF) (regs [u16 0xABCD]) = ([], failed .bufferRange) := by decide

theorem test_ifromb :
    put (.ifromb 3 true .big 12 7) (bytesFrom 7 [0xF8#8, 0x00#8]) 3 = (.int ⟨12, true, -2048⟩, done) ∧
    put (.ifromb 3 false .little 16 7) (bytesFrom 7 [0xFF#8, 0xFE#8]) 3 = (u16 0xFEFF, done) ∧
    put (.ifromb 3 false .big 32767 0xF001) State.reset 3 = (.unwritten, failed .bufferRange) ∧
    put (.ifromb 3 false .big 0 0xFFFF) State.reset 3 = (.unwritten, failed .invalidWidth) := by decide

theorem test_ftob :
    stored (.ftob 1 .big 0) (regs [f32 0x3F800001]) =
      ([(0, 0x3F#8), (1, 0x80#8), (3, 0x01#8)], done) ∧
    stored (.ftob 1 .little 0) (regs [f16 0xBE00]) = ([(1, 0xBE#8)], done) ∧
    stored (.ftob 1 .big 0xFFFA) (regs [.flt ⟨11, 52, false, 1, 1⟩]) = ([], failed .bufferRange) := by decide

theorem test_ffromb :
    put (.ffromb 3 .little 5 10 7) (bytesFrom 7 [0x00#8, 0x3C#8]) 3 = (f16 0x3C00, done) ∧
    put (.ffromb 3 .big 2 1 7) (bytesFrom 7 [0xFF#8]) 3 = (.flt ⟨2, 1, true, 3, 1⟩, done) ∧
    put (.ffromb 3 .big 0 23 0) State.reset 3 = (.unwritten, failed .invalidWidth) := by decide

/-! ## Float arithmetic (95_test_vectors.md 2.9) -/

theorem test_flt_unary :
    put (.fneg 3 1) (regs [f16 0x0001]) 3 = (f16 0x8400, done) ∧
    put (.fabs 3 1) (regs [f16 0xBE00]) 3 = (f16 0x3E00, done) ∧
    put (.fpos 3 1) (regs [f32 0xFF800123]) 3 = (f32 0x7FC00000, done) ∧
    put (.fneg 3 1) (regs [f32 0xFF800123]) 3 = (f32 0xFFC00000, done) := by decide

theorem test_fadd :
    put (.fadd 3 1 2) (regs [f16 0x3C00, f32 0x35800000]) 3 = (f32 0x3F800008, done) ∧
    put (.faddIp 1 2) (regs [f16 0x3C00, f32 0x35800000]) 1 = (f16 0x3C00, done) := by decide

theorem test_fsub :
    put (.fsub 3 1 2) (regs [f32 0x3FC00000, f32 0x40100000]) 3 = (f32 0xBF400000, done) ∧
    put (.fsubIp 1 2) (regs [f32 0x3F800000, f32 0x3F800000]) 1 = (f32 0, done) ∧
    put (.fsub 3 1 2) (built { Config.default with nanDraw := .negative } [f32 0x7F800000, f32 0x7F800000]) 3
      = (f32 0xFFC00000, done) := by decide

theorem test_fmul :
    put (.fmul 3 1 2) (regs [f16 0x5CB0, f16 0x5CB0]) 3 = (f16 0x7D7E, done) ∧
    put (.fmulIp 1 2) (regs [f32 0, f32 0x7F800000]) 1 = (f32 0x7FC00000, done) := by decide

theorem test_fdiv :
    put (.fdiv 3 1 2) (regs [f16 0x3C00, f32 0x40400000]) 3 = (f32 0x3EAAAAAB, done) ∧
    put (.fdivIp 1 2) (regs [f16 0x3C00, f32 0x40400000]) 1 = (f16 0x3555, done) ∧
    put (.fdiv 3 1 2) (regs [f32 0x3F800000, f32 0x80000000]) 3 = (.unwritten, failed .divideByZero) := by decide

theorem test_ffdiv :
    put (.ffdiv 3 1 2) (regs [f32 0xC0E00000, f32 0x40000000]) 3 = (f32 0xC0800000, done) ∧
    put (.ffdivIp 1 2) (regs [f32 0x3F800000, f32 0xFF800000]) 1 = (f32 0xBF800000, done) := by decide +kernel

theorem test_fmod :
    put (.fmod 3 1 2) (regs [f32 0x40E00000, f32 0xC0000000]) 3 = (f32 0xBF800000, done) ∧
    put (.fmodIp 1 2) (regs [f32 0x3F800000, f32 0xFF800000]) 1 = (f32 0xFF800000, done) ∧
    put (.fmod 3 1 2) (regs [f32 0x80000000, f32 0x3F800000]) 3 = (f32 0, done) := by decide +kernel

theorem test_fpow :
    put (.fpow 3 1 2) (regs [f32 0x40000000, f32 0xBF800000]) 3 = (f32 0x3F000000, done) ∧
    put (.fpowIp 1 2) (regs [f16 0x4000, f32 0x41200000]) 1 = (f16 0x6400, done) ∧
    put (.fpow 3 1 2) (regs [f32 0xC0000000, f32 0x40400000]) 3 = (f32 0xC1000000, done) ∧
    put (.fpow 3 1 2) (regs [f32 0x7FC00000, f32 0]) 3 = (f32 0x3F800000, done) := by decide

theorem test_fpow_fails :
    put (.fpow 3 1 2) (regs [f32 0, f32 0xBF800000]) 3 = (.unwritten, failed .hostFloatFault) ∧
    put (.fpow 3 1 2) (regs [f32 0xC1000000, f32 0x3EAAAAAB]) 3 = (.unwritten, failed .hostFloatFault) ∧
    put (.fpow 3 1 2) (regs [.flt (pat 11 52 0x4024000000000000), .flt (pat 11 52 0x4079000000000000)]) 3
      = (.unwritten, failed .hostFloatFault) := by decide +kernel

/-! ## Faults, HOST_IN, reset (95_test_vectors.md 2.10, 2.11) -/

theorem test_fault_priority :
    reply (.iadd 3 1 2) (regs [f32 0]) = failed .unwritten ∧
    reply (.iadd 3 1 2) (regs [f32 0, i8 1]) = failed .typeMismatch ∧
    reply (.fadd 3 1 2) (regs [i8 1, f32 0]) = failed .typeMismatch ∧
    reply (.itob 1 .big 0xFFFF) (regs []) = failed .unwritten ∧
    reply (.inew 1 true 8) State.reset = failed .illegalCommand ∧
    reply (.inew 1 true 8) (onPort (.f64 0#64)) = failed .illegalCommand ∧
    put (.iadd 3 1 2) { regs [i8 1, i8 1] with hostIn := some (.int 5) } 3 = (i8 2, done) := by decide

theorem test_reset :
    reply (.iread 0) State.reset = failed .unwritten ∧ reply (.fread 15) State.reset = failed .unwritten ∧
    reply (.iset 3) (onPort (.int 1)) = failed .unwritten ∧
    (match step { regs [i8 1] with pending := [.reset [(5, 0xAA#8), (65536, 1#8)]], response := done } with
      | .next t => (t.reg 1, t.mem, t.response)
      | .refused _ => (.unwritten, [], none)) = (.unwritten, [(5, 0xAA#8)], none) := by decide

/-! ## Assembler syntax (30_encoding.md R110) -/

theorem test_asm :
    Instr.asm (.ffromb 2 .big 8 23 0) none = "FFROMB R2, f8.23, be, 0x0000" ∧
    Instr.asm (.iaddIp 1 4) none = "IADD.IP R1, R1, R4" ∧
    Instr.asm (.inew 1 true 8) (some (.int 127)) = "INEW R1, i8, #127" := by decide

/-! ## Witnesses: states and operands that meet the hypotheses of each statement, clause by clause -/

def sInt : State := regs [i8 (-7), i8 2, u16 0, i8 (-1)]
def sFlt : State := regs [f32 0x40000000, f32 0xBF800000, f32 0, f32 0x7FC00000, f32 0x3F800000]

theorem witness_DecodeEncode :
    (Instr.islice 15 0 32767 65535).wf = true ∧ (Instr.ffromb 0 .little 15 63 65535).wf = true ∧
    (Instr.imodIp 3 3).wf = true := by decide

theorem witness_EncodeDecode : ∃ i, decode 0x71F003FF8000FFFF#64 = .ok i := ⟨.ffromb 15 .little 15 63 65535, by decide⟩

theorem witness_DecodeProcedure_legal : ∃ (s : State) (op : Opcode),
    s.pending = [.command 0x1011480000000000#64 none] ∧
    op.number = fOp 0x1011480000000000#64 ∧ 0x1011480000000000#64 &&& op.format.zeroMask = 0#64 ∧
    ¬(op.format = .R ∧ (0x1011480000000000#64).getLsbD 43 = true ∧
      bits 0x1011480000000000#64 55 52 ≠ bits 0x1011480000000000#64 51 48) :=
  ⟨waiting (.command 0x1011480000000000#64 none), .iadd, by decide⟩

theorem witness_DecodeProcedure_illegal : ∃ s : State, s.pending = [.command 0x1031180000000000#64 none] ∧
    ∀ op : Opcode, op.number = fOp 0x1031180000000000#64 → 0x1031180000000000#64 &&& op.format.zeroMask = 0#64 →
      op.format = .R ∧ (0x1031180000000000#64).getLsbD 43 = true ∧
        bits 0x1031180000000000#64 55 52 ≠ bits 0x1031180000000000#64 51 48 :=
  ⟨waiting (.command 0x1031180000000000#64 none), rfl, by intro op; cases op <;> decide⟩

theorem witness_HostInUse : ∃ s t u : State,
    ((Instr.inew 0 true 8).hostInKind = .integer ∧ ∀ x, s.hostIn ≠ some (.int x)) ∧
    ((Instr.fset 0).hostInKind = .pattern ∧ ∀ b, t.hostIn ≠ some (.f64 b)) ∧
    ((Instr.iadd 0 1 2).hostInKind = .none ∧ exec (.iadd 0 1 2) u = .next (after (.iadd 0 1 2) u)) :=
  ⟨onPort (.f64 0#64), State.reset, sInt, ⟨rfl, by intro x h; cases h⟩, ⟨rfl, by intro b h; cases h⟩, rfl, rfl⟩

theorem witness_StepRunsDecodedCommand : ∃ s : State,
    s.pending = [.command 0x1031200000000000#64 none] ∧ decode 0x1031200000000000#64 = .ok (.iadd 3 1 2) :=
  ⟨waiting (.command 0x1031200000000000#64 none), rfl, by decide⟩

theorem witness_StepKeepsInv : ∃ s t : State, s.Inv ∧ step s = .next t ∧ t.mem ≠ s.mem :=
  ⟨{ sInt with pending := [.command 0x300100000000FFFF#64 none] },
    after (.itob 1 .big 65535) sInt, by unfold State.Inv; decide, rfl, by decide⟩

theorem witness_ResetEvent : ∃ s : State, s.pending = [.reset [(65535, 1#8)]] ∧
    (65535 : Nat) < 65536 := ⟨waiting (.reset [(65535, 1#8)]), rfl, by decide⟩

theorem witness_StepTakesOneEvent : State.reset.pending = [] := rfl

theorem witness_ResponseShape : ∃ s t : State,
    (s.pending = [.command 0x2203200000000000#64 none] ∧ ∃ u, step s = .next u ∧ u.response = said (.bit true)) ∧
    (t.pending = [.command 0#64 none] ∧ ∃ u, step t = .next u ∧ u.response = failed .illegalCommand) :=
  ⟨{ sInt with regs := (regs [i8 0, i8 2, i8 1]).regs, pending := [.command 0x2203200000000000#64 none] },
    waiting (.command 0#64 none), ⟨rfl, _, rfl, by decide⟩, rfl, _, rfl, by decide⟩

theorem witness_FaultHasNoEffect : ∃ s t : State, s.pending = [.command 0x1331300000000000#64 none] ∧
    step s = .next t ∧ t.response = some ⟨.divideByZero, none⟩ :=
  ⟨{ sInt with pending := [.command 0x1331300000000000#64 none] }, _, rfl, rfl, by decide⟩

/-- Two conditions at once, the later one by the instruction alone. -/
theorem witness_FaultPriority : ∃ s : State,
    FaultCondition (.icvt 3 0 true 0) s .unwritten ∧ FaultCondition (.icvt 3 0 true 0) s .invalidWidth :=
  ⟨State.reset, ⟨0, by simp [Instr.operands], by decide⟩, .inr (.inl ⟨3, 0, true, rfl⟩)⟩

theorem witness_StatusCodes :
    reply (.iread 0) sInt = failed .unwritten ∧ reply (.fread 1) sInt = failed .typeMismatch ∧
    reply (.ifromb 1 true .big 0 0) sInt = failed .invalidWidth ∧
    reply (.ibit 1 8) sInt = failed .indexOutOfRange ∧
    reply (.itob 3 .big 65535) sInt = failed .bufferRange ∧ reply (.imod 0 1 3) sInt = failed .divideByZero ∧
    reply (.ishr 0 1 4) sInt = failed .negativeShift ∧ reply (.ipow 0 1 4) sInt = failed .negativeExponent ∧
    (sFlt.config.host = .reference ∧ reply (.fpow 0 3 2) sFlt = failed .hostFloatFault) := by decide

theorem witness_MemOnlyByByteCommands : ∃ t, (Instr.iadd 0 1 2).opcode ≠ .itob ∧
    (Instr.iadd 0 1 2).opcode ≠ .ftob ∧ (Instr.iadd 0 1 2).opcode ≠ .ifromb ∧
    (Instr.iadd 0 1 2).opcode ≠ .ffromb ∧ exec (.iadd 0 1 2) sInt = .next t :=
  ⟨_, by decide, by decide, by decide, by decide, rfl⟩

theorem witness_NoCommandWritesUnwritten : ∃ t, exec (.ineg 1 2) sInt = .next t ∧ sInt.reg 1 ≠ .unwritten :=
  ⟨_, rfl, by decide⟩

theorem witness_InPlaceKeepsShape : ∃ (a : IntC) (x : FltC) (t u : State),
    (sInt.reg 1 = .int a ∧ exec (.iaddIp 1 3) sInt = .next t) ∧
    (sFlt.reg 1 = .flt x ∧ exec (.faddIp 1 2) sFlt = .next u) := ⟨_, _, _, _, ⟨rfl, rfl⟩, rfl, rfl⟩

/-- The narrowest shape, either sign, and a `y` that the third clause speaks of. -/
theorem witness_MaskIsModularReduction : (1 : Nat) ≤ 1 ∧
    (-(2 ^ (1 - 1)) : Int) ≤ -1 ∧ (-1 : Int) ≤ 2 ^ (1 - 1) - 1 ∧ (2 : Int) ^ 1 ∣ -1 - 7 := by decide

theorem witness_ConstructInt : ∃ c : IntC, (onPort (.int 5)).hostIn = some (.int 5) ∧ (1 : Nat) ≤ 1 ∧
    sInt.reg 1 = .int c ∧ { sInt with hostIn := some (.int 5) }.hostIn = some (.int 5) := ⟨_, rfl, by decide, rfl, rfl⟩

/-- Integer operands of the unary, additive, bitwise, comparing and reading commands, of mixed shapes. -/
theorem witness_int_operands : ∃ a b : IntC, sInt.reg 1 = .int a ∧ sInt.reg 3 = .int b ∧ a.n ≠ b.n ∧ a.s ≠ b.s :=
  ⟨_, _, rfl, rfl, by decide⟩

theorem witness_IntDivision : ∃ (a b : IntC) (s t : State), s.reg 1 = .int a ∧ s.reg 2 = .int b ∧
    t.reg 1 = .int a ∧ t.reg 2 = .int b ∧ mask (max a.n b.n) (a.s && b.s) b.v ≠ 0 ∧
    s.config.modKind = .floor ∧ t.config.modKind = .trunc :=
  ⟨⟨8, true, -7⟩, ⟨8, true, 2⟩, sInt, built { Config.default with modKind := .trunc } [i8 (-7), i8 2], by decide⟩

theorem witness_ModuloInRange : (⟨8, true, -128⟩ : IntC).wf = true ∧ (⟨8, true, -1⟩ : IntC).wf = true ∧
    mask (max 8 8) (true && true) (-1) ≠ 0 := by decide

/-- Exponents 0 and -1, where the clauses of IPOW meet. -/
theorem witness_IntPower : ∃ (a b c : IntC) (s : State), s.reg 1 = .int a ∧ s.reg 2 = .int b ∧ s.reg 3 = .int c ∧
    mask (max a.n b.n) (a.s && b.s) b.v = 0 ∧ mask (max a.n c.n) (a.s && c.s) c.v = -1 :=
  ⟨⟨8, true, 3⟩, ⟨8, true, 0⟩, ⟨8, true, -1⟩, regs [i8 3, i8 0, i8 (-1)], by decide⟩

/-- Shift amounts 0 and -1, where the clauses meet. -/
theorem witness_IntShift : ∃ (a b c : IntC) (s : State), s.reg 1 = .int a ∧ s.reg 2 = .int b ∧ s.reg 3 = .int c ∧
    b.v = 0 ∧ c.v = -1 := ⟨⟨8, true, 3⟩, ⟨8, true, 0⟩, ⟨8, true, -1⟩, regs [i8 3, i8 0, i8 (-1)], by decide⟩

theorem witness_DivideByZero : ∃ (a b : IntC) (x y : FltC) (s : State),
    s.reg 1 = .int a ∧ s.reg 2 = .int b ∧ mask (max a.n b.n) (a.s && b.s) b.v = 0 ∧
    s.reg 3 = .flt x ∧ s.reg 4 = .flt y ∧ fdec y = 0x8000000000000000#64 ∧ fdec x = 0x0000000000000000#64 :=
  ⟨⟨8, true, 5⟩, ⟨16, false, 0⟩, pat 8 23 0, pat 8 23 0x80000000, regs [i8 5, u16 0, f32 0, f32 0x80000000], by decide⟩

/-- The last bit and the first index past it; the longest slice, the empty one, and one a bit too long. -/
theorem witness_BitAccess : ∃ a : IntC, sInt.reg 1 = .int a ∧ 7 < a.n ∧ a.n ≤ 8 ∧ (0 < 8 ∧ 8 ≤ a.n) ∧
    ((4 : Nat) ≤ 4 ∧ a.n < 9) := ⟨_, rfl, by decide⟩

theorem witness_ShapeBounds : ∃ (a b : IntC) (s : State), a.wf = true ∧ b.wf = true ∧ s.reg 1 = .int a ∧
    s.reg 2 = .int b ∧ a.n = 1 ∧ b.n = 32767 :=
  ⟨⟨1, true, -1⟩, ⟨32767, false, 1⟩, regs [.int ⟨1, true, -1⟩, .int ⟨32767, false, 1⟩], by decide +kernel⟩

/-- Two bytes at the last address that holds them, and at the next. -/
theorem witness_StoreInt : ∃ (a : IntC) (s : State), s.mem.wf = true ∧ s.reg 3 = .int a ∧
    65534 + (a.n + 7) / 8 ≤ 65536 ∧ 65536 < 65535 + (a.n + 7) / 8 := ⟨_, sInt, by decide, rfl, by decide⟩

theorem witness_StoreFlt : ∃ (x : FltC) (s : State), s.mem.wf = true ∧ s.reg 1 = .flt x ∧
    65532 + (1 + x.e + x.m + 7) / 8 ≤ 65536 ∧ 65536 < 65533 + (1 + x.e + x.m + 7) / 8 :=
  ⟨_, sFlt, by decide, rfl, by decide⟩

theorem witness_LoadInt : (1 : Nat) ≤ 32767 ∧ 0xF000 + (32767 + 7) / 8 ≤ 65536 ∧
    65536 < 0xF001 + (32767 + 7) / 8 := by decide

theorem witness_LoadFlt :
    (1 ≤ 11 ∧ 11 ≤ 11 ∧ 1 ≤ 52 ∧ 52 ≤ 52) ∧ 0xFFF8 + (1 + 11 + 52 + 7) / 8 ≤ 65536 ∧
    65536 < 0xFFF9 + (1 + 11 + 52 + 7) / 8 ∧ ¬(1 ≤ 12 ∧ 12 ≤ 11 ∧ 1 ≤ 52 ∧ 52 ≤ 52) ∧
    ¬(1 ≤ 8 ∧ 8 ≤ 11 ∧ 1 ≤ 0 ∧ 0 ≤ 52) := by decide

theorem witness_ByteRoundTrips : ∃ (a : IntC) (x : FltC), sInt.Inv ∧ sFlt.Inv ∧ sInt.reg 3 = .int a ∧
    sFlt.reg 1 = .flt x ∧ 65534 + (a.n + 7) / 8 ≤ 65536 ∧ 65532 + (1 + x.e + x.m + 7) / 8 ≤ 65536 :=
  ⟨_, _, by unfold State.Inv; decide, by unfold State.Inv; decide, rfl, rfl, by decide⟩

theorem witness_ConstructFlt : ∃ (x : FltC) (s : State), s.hostIn = some (.f64 5#64) ∧ s.reg 1 = .flt x ∧
    ((1 : Nat) ≤ 11 ∧ 11 ≤ 11 ∧ 1 ≤ 52 ∧ 52 ≤ 52) ∧ ((12 : Nat) = 0 ∨ 11 < 12 ∨ 53 = 0 ∨ 52 < 53) :=
  ⟨_, { sFlt with hostIn := some (.f64 5#64) }, rfl, rfl, by decide⟩

/-- The widths (8, 23) with a rounded mantissa inside its width, one that carries, and one that carries at
the largest exponent. -/
theorem witness_EncodeFormula : ((1 : Nat) ≤ 8 ∧ 8 ≤ 11 ∧ 1 ≤ 23 ∧ 23 ≤ 52) ∧
    encTruncated 23 (f64Man 0x3FB999999999999A#64) + encRoundBit 23 (f64Man 0x3FB999999999999A#64) < 2 ^ 23 ∧
    encTruncated 23 (f64Man 0x3FFFFFFFFFFFFFFF#64) + encRoundBit 23 (f64Man 0x3FFFFFFFFFFFFFFF#64) = 2 ^ 23 ∧
    (fenc .propagate 0x7FEFFFFFFFFFFFFF#64 8 23).E = 2 ^ 8 - 1 ∧
    encTruncated 23 (f64Man 0x7FEFFFFFFFFFFFFF#64) + encRoundBit 23 (f64Man 0x7FEFFFFFFFFFFFFF#64) = 2 ^ 23 := by
  decide

theorem witness_EncodeConsequences :
    (f64Finite 0x47F0000000000000#64 ∧ (bias 8 : Int) < (f64Exp 0x47F0000000000000#64 : Int) - 1023) ∧
    (f64Exp 0x37D0000000000000#64 ≠ 0 ∧ (f64Exp 0x37D0000000000000#64 : Int) - 1023 < 1 - bias 8) ∧
    f64Exp 0x0008000000000000#64 = 0 ∧
    (f64IsNan 0x7FF0000000000001#64 = true ∧
      encTruncated 23 (f64Man 0x7FF0000000000001#64) + encRoundBit 23 (f64Man 0x7FF0000000000001#64) = 0) ∧
    f64Exp 0x3FF0000000000000#64 ≠ 0 := by unfold f64Finite; decide

/-- Both ends of the normal range of the widths (5, 10), and a mantissa that carries under `drop`. -/
theorem witness_EncodeRoundsHalfUp :
    (f64Exp 0x3F10000000000001#64 ≠ 0 ∧ 1 - (bias 5 : Int) ≤ (f64Exp 0x3F10000000000001#64 : Int) - 1023 ∧
      (f64Exp 0x3F10000000000001#64 : Int) - 1023 ≤ bias 5 ∧
      (fenc .propagate 0x3F10000000000001#64 5 10).E ≠ allOnes 5) ∧
    (1 - (bias 5 : Int) ≤ (f64Exp 0x40EFFC0000000001#64 : Int) - 1023 ∧
      (f64Exp 0x40EFFC0000000001#64 : Int) - 1023 = bias 5 ∧
      (fenc .propagate 0x40EFFC0000000001#64 5 10).E ≠ allOnes 5) ∧
    (encTruncated 10 (f64Man 0x40EFFE0000000000#64) + encRoundBit 10 (f64Man 0x40EFFE0000000000#64) = 2 ^ 10 ∧
      (f64Exp 0x40EFFE0000000000#64 : Int) - 1023 = bias 5 ∧
      (fenc .drop 0x40EFFE0000000000#64 5 10).E ≠ allOnes 5) := by decide

/-- An infinity, a NaN, a denormal, a normal number and a zero, for DecodeValue and DecodeEncodeRoundTrips. -/
theorem witness_containers :
    [(⟨1, 1, true, 1, 0⟩ : FltC), ⟨8, 23, true, 255, 1⟩, ⟨5, 10, false, 0, 1⟩, ⟨11, 52, false, 0, 1⟩, ⟨5, 10, true, 30, 1023⟩,
      ⟨4, 3, true, 0, 0⟩].all FltC.wf = true ∧ sFlt.reg 1 = f32 0x40000000 := by decide

theorem witness_FltUnaryDefaultHost : ∃ a b : FltC, sFlt.reg 1 = .flt a ∧ sFlt.reg 4 = .flt b ∧ a.wf = true ∧
    b.wf = true ∧ sFlt.config.host = .reference ∧ (0 < a.E ∧ a.E < 2 ^ a.e - 1) ∧ b.E = 2 ^ b.e - 1 ∧ b.M ≠ 0 :=
  ⟨_, _, rfl, rfl, by decide⟩

/-- Denormals of `e < 11` and of `e = 11`. -/
theorem witness_FltUnaryDefaultHost_denormals : ∃ (a b : FltC) (s : State), s.reg 1 = .flt a ∧ s.reg 2 = .flt b ∧
    a.wf = true ∧ b.wf = true ∧ s.config.host = .reference ∧ (a.E = 0 ∧ a.M ≠ 0 ∧ a.e < 11) ∧
    (b.E = 0 ∧ b.M ≠ 0 ∧ b.e = 11) :=
  ⟨⟨10, 3, true, 0, 5⟩, ⟨11, 52, false, 0, 1⟩, regs [.flt ⟨10, 3, true, 0, 5⟩, .flt ⟨11, 52, false, 0, 1⟩], by decide⟩

theorem witness_flt_operands : ∃ a b : FltC, (regs [f16 0x3C00, f32 0x3F800000]).reg 1 = .flt a ∧
    (regs [f16 0x3C00, f32 0x3F800000]).reg 2 = .flt b ∧ a.e ≠ b.e ∧ a.m ≠ b.m :=
  ⟨pat 5 10 0x3C00, pat 8 23 0x3F800000, by decide⟩

theorem witness_FltDivision : ∃ (a b : FltC) (q r : F64), sFlt.reg 1 = .flt a ∧ sFlt.reg 2 = .flt b ∧
    fdec b ≠ 0x0000000000000000#64 ∧ fdec b ≠ 0x8000000000000000#64 ∧
    sFlt.host.floordiv (fdec a) (fdec b) = some q ∧ sFlt.host.mod (fdec a) (fdec b) = some r :=
  ⟨_, _, _, _, rfl, rfl, by decide, by decide, rfl, rfl⟩

theorem witness_FltPower : ∃ (a b c : FltC), sFlt.reg 1 = .flt a ∧ sFlt.reg 2 = .flt b ∧ sFlt.reg 3 = .flt c ∧
    hostPower sFlt.host (fdec a) (fdec b) = some 0x3FE0000000000000#64 ∧
    hostPower sFlt.host (fdec c) (fdec b) = none := ⟨_, _, _, rfl, rfl, rfl, by decide, by decide⟩

theorem value_half : f64Value 0x3FE0000000000000#64 = 1 / 2 := by
  rw [f64Value, show f64Dyadic 0x3FE0000000000000#64 = ⟨false, 2 ^ 52, -53⟩ by decide]; norm_num [signFactor]

theorem value_two : f64Value 0x4000000000000000#64 = 2 := by
  rw [f64Value, show f64Dyadic 0x4000000000000000#64 = ⟨false, 2 ^ 52, -51⟩ by decide]; norm_num [signFactor]

theorem value_three : f64Value 0x4008000000000000#64 = 3 := by
  rw [f64Value, show f64Dyadic 0x4008000000000000#64 = ⟨false, 3 * 2 ^ 51, -51⟩ by decide]; norm_num [signFactor]

theorem value_four : f64Value 0x4010000000000000#64 = 4 := by
  rw [f64Value, show f64Dyadic 0x4010000000000000#64 = ⟨false, 2 ^ 52, -50⟩ by decide]; norm_num [signFactor]

/-- An odd exponent, an even one and one that is no integer. -/
theorem witness_PowerSpecialCases_exponents :
    (∃ k : Int, f64Value 0x4008000000000000#64 = 2 * k + 1) ∧
    ((∃ k : Int, f64Value 0x4000000000000000#64 = k) ∧ ¬∃ k : Int, f64Value 0x4000000000000000#64 = 2 * k + 1) ∧
    ¬∃ k : Int, f64Value 0x3FE0000000000000#64 = k := by
  rw [value_half, value_two, value_three]
  refine ⟨⟨1, by norm_num⟩, ⟨⟨2, by norm_num⟩, ?_⟩, ?_⟩
  · rintro ⟨k, hk⟩
    have h : (2 : Int) = 2 * k + 1 := by exact_mod_cast hk
    omega
  · rintro ⟨k, hk⟩
    have h : (1 : Int) = 2 * k := by
      have : (1 : ℚ) = 2 * k := by rw [← hk]; norm_num
      exact_mod_cast this
    omega

/-- Zeros, NaNs, infinities of either side of 1, and bases of each kind. -/
theorem witness_PowerSpecialCases_operands :
    f64IsZero 0x8000000000000000#64 = true ∧ f64IsNan 0x7FF0000000000001#64 = true ∧
    f64IsInf 0xFFF0000000000000#64 = true ∧ f64Mag 0xBFF0000000000000#64 = 0x3FF0000000000000 ∧
    ((f64Sign 0x7FF0000000000000#64 = false) ↔ 0x3FF0000000000000 < f64Mag 0x4000000000000000#64) ∧
    ¬((f64Sign 0xFFF0000000000000#64 = false) ↔ 0x3FF0000000000000 < f64Mag 0x4000000000000000#64) ∧
    f64Sign 0xC008000000000000#64 = true ∧ f64IsZero 0x4008000000000000#64 = false := by decide

/-- The remaining case: `3^(1/2)` with a host that answers a number and one that answers an infinity, and
`3^1023`, which overflows. -/
theorem witness_PowerSpecialCases_remaining : ∃ h k : HostF64,
    f64Exp 0x4008000000000000#64 ≠ 2047 ∧ f64IsZero 0x4008000000000000#64 = false ∧
    f64Sign 0x4008000000000000#64 = false ∧ f64Exp 0x3FE0000000000000#64 ≠ 2047 ∧
    exactPow 0x4008000000000000#64 0x3FE0000000000000#64 = none ∧
    powOverflows 0x4008000000000000#64 0x3FE0000000000000#64 = false ∧
    f64IsInf (h.pow 0x4008000000000000#64 0x3FE0000000000000#64) = false ∧
    f64IsInf (k.pow 0x4008000000000000#64 0x3FE0000000000000#64) = true ∧
    exactPow 0x4008000000000000#64 0x408FF80000000000#64 = none ∧
    powOverflows 0x4008000000000000#64 0x408FF80000000000#64 = true :=
  ⟨{ referenceHost with pow := fun _ _ => f64One }, { referenceHost with pow := fun _ _ => f64Inf false },
    by decide +kernel⟩

/-- `4^(1/2) = 2`. -/
theorem witness_PowerExact : ∃ (x y c : F64) (n : Int) (d : Nat),
    f64Finite x ∧ f64Finite y ∧ f64Finite c ∧ f64Sign x = false ∧ f64Sign c = false ∧ f64IsZero x = false ∧
    f64IsZero c = false ∧ f64Value y = n / 2 ^ d ∧ f64Value c ^ (2 ^ d) = f64Value x ^ n :=
  ⟨0x4010000000000000#64, 0x3FE0000000000000#64, 0x4000000000000000#64, 1, 1, by unfold f64Finite; decide,
    by unfold f64Finite; decide, by unfold f64Finite; decide, by decide, by decide, by decide, by decide,
    by rw [value_half]; norm_num, by rw [value_two, value_four]; norm_num⟩

theorem witness_FltCompareValues : ∃ a b c : FltC, sFlt.reg 1 = .flt a ∧ sFlt.reg 2 = .flt b ∧
    sFlt.reg 4 = .flt c ∧ a.wf = true ∧ b.wf = true ∧ c.wf = true ∧ sFlt.config.host = .reference ∧
    c.isNan = true ∧ a.isNan = false ∧ b.isNan = false := ⟨_, _, _, rfl, rfl, rfl, by decide⟩

theorem witness_NanResult : ((1 : Nat) ≤ 1 ∧ 1 ≤ 11 ∧ 1 ≤ 1 ∧ 1 ≤ 52) ∧
    ((1 : Nat) ≤ 11 ∧ 11 ≤ 11 ∧ 1 ≤ 52 ∧ 52 ≤ 52) := by decide

/-- A finite dividend and divisor, an infinite one, and a finite zero, for the statements on the default host. -/
theorem witness_default_host :
    f64Finite 0x7FEFFFFFFFFFFFFF#64 ∧ f64Finite 0x0000000000000001#64 ∧
    f64IsZero 0x0000000000000001#64 = false ∧ f64IsZero 0x8000000000000000#64 = true ∧
    f64IsInf 0xFFF0000000000000#64 = true ∧ f64IsNan 0xFFF0000000000000#64 = false ∧
    f64IsNan 0x7FF8000000000001#64 = true := by unfold f64Finite; decide

/-- Operands of the clauses on `mod` and `floordiv`: a remainder that is 0, one of the divisor's sign, one of the
other sign for a finite divisor and for an infinite one, a quotient that overflows, and one that is 0. -/
theorem witness_DefaultHostModulo :
    let one := 0x3FF0000000000000#64
    let two := 0x4000000000000000#64
    let minusTwo := 0xC000000000000000#64
    f64IsZero (fmod two one) = true ∧
    (f64IsZero (fmod one two) = false ∧ f64Sign (fmod one two) = f64Sign two) ∧
    (f64IsZero (fmod one minusTwo) = false ∧ f64Sign (fmod one minusTwo) ≠ f64Sign minusTwo ∧
      f64Exp minusTwo ≠ 2047) ∧
    (f64IsZero (fmod one 0xFFF0000000000000#64) = false ∧
      f64Sign (fmod one 0xFFF0000000000000#64) ≠ f64Sign 0xFFF0000000000000#64) ∧
    f64IsInf (refDiv 0x7FEFFFFFFFFFFFFF#64 0x0000000000000001#64) = true ∧
    f64IsZero (refDiv (refSub one (fmod one two)) two) = true := by decide +kernel

/-- `1 // -∞ = -1` and `∞ // 1` a NaN (46_fp_arith.md R344), `1 % -∞ = -∞` (R345). -/
theorem test_floordiv_corners :
    refFloordiv 0x3FF0000000000000#64 0xFFF0000000000000#64 = 0xBFF0000000000000#64 ∧
    f64IsNan (refFloordiv 0x7FF0000000000000#64 0x3FF0000000000000#64) = true ∧
    refMod 0x3FF0000000000000#64 0xFFF0000000000000#64 = 0xFFF0000000000000#64 := by decide +kernel

end Sys2Proof.Tests
end

section
/-! PROOFS. The claims of 00_scope.md: the operators of R16 on two's-complement forms, the defaults of R13. -/

namespace Sys2Proof.Machine

/-! ## What the binary integer shapes write (41_int_arith.md R164, 40_int_construct.md R136, R139) -/

section
variable {i : Instr} {s : State} {rd rs1 rs2 : RegIdx} {a b r : IntC}
  {f : IntC → IntC → Except Status IntC}

/-- The promoted result of an operation that is defined on the reinterpreted operands. -/
theorem promoted_of_ok {op : Int → Int → Except Status Int} {x : Int}
    (h : op (promA a b) (promB a b) = .ok x) :
    promoted op a b = .ok (mkInt (promN a b) (promS a b) x) := by
  simp [promoted, h]

theorem writes_of_intCopy (ha : s.reg rs1 = .int a) (hb : s.reg rs2 = .int b) (hf : f a b = .ok r)
    (h : exec i s = intCopy f rd rs1 rs2 s) : Writes i s rd (.int r) :=
  writes_of_writeInt (h.trans (by simp [intCopy, ha, hb, hf]))

theorem writes_of_intInPlace (ha : s.reg rs1 = .int a) (hb : s.reg rs2 = .int b) (hf : f a b = .ok r)
    (h : exec i s = intInPlace f rs1 rs2 s) : Writes i s rs1 (.int (mkInt a.n a.s r.v)) :=
  writes_of_writeInt (h.trans (by simp [intInPlace, ha, hb, hf]))

end

/-! ## The claims -/

/-- Settles O29: the bits of `intAnd`, `intOr` and `intXor` are the operations on the operands' bits, and each
command writes their promoted result. -/
theorem intBitwise : Obligations.IntBitwise := by
  intro rd rs1 rs2 a b s ha hb n g A B
  have hAnd : iandResult a b = .ok (mkInt n g (intAnd A B)) := promoted_of_ok rfl
  have hOr : iorResult a b = .ok (mkInt n g (intOr A B)) := promoted_of_ok rfl
  have hXor : ixorResult a b = .ok (mkInt n g (intXor A B)) := promoted_of_ok rfl
  exact ⟨intAnd A B, intOr A B, intXor A B, intAnd_testBit A B, intOr_testBit A B, intXor_testBit A B,
    writes_of_intCopy ha hb hAnd rfl, writes_of_intCopy ha hb hOr rfl, writes_of_intCopy ha hb hXor rfl,
    writes_of_intInPlace ha hb hAnd rfl, writes_of_intInPlace ha hb hOr rfl,
    writes_of_intInPlace ha hb hXor rfl⟩

/-- Settles O7: every field is the one `State.reset` lists, and with nothing listed each byte reads as its
default. -/
theorem resetStateValues : Obligations.ResetStateValues :=
  ⟨fun i => reset_reg i, rfl, rfl, fun _ => rfl, rfl, rfl⟩

end Sys2Proof.Machine
end

section
/-! PROOFS. The claims of 10_state.md: the invariant, what every step, reset and command keeps, HOST_IN, responses. -/

namespace Sys2Proof.Machine

/-! ## What decodes is well formed (30_encoding.md R91, R106) -/

theorem fitsX_fX (w : Word) : fitsX (fX w) = true := decide_eq_true (Nat.mod_lt _ (by decide))

theorem fitsY_fY (w : Word) : fitsY (fY w) = true := decide_eq_true (Nat.mod_lt _ (by decide))

theorem fitsWidths_fEw_fMw (w : Word) : fitsWidths (fEw w) (fMw w) = true :=
  Bool.and_eq_true_iff.2 ⟨decide_eq_true (Nat.mod_lt _ (by decide)), decide_eq_true (Nat.mod_lt _ (by decide))⟩

/-- A format-R word makes the copying or the in-place row, so what holds of both holds of the command (R93). -/
theorem buildR_of_both {p : Instr → Prop} (w : Word) {copy : RegIdx → RegIdx → RegIdx → Instr}
    {inPlace : RegIdx → RegIdx → Instr} (hc : ∀ rd i j, p (copy rd i j)) (hi : ∀ i j, p (inPlace i j)) :
    p (buildR w copy inPlace) := by
  unfold buildR
  split
  · exact hi _ _
  · exact hc _ _ _

theorem build_wf (w : Word) (op : Opcode) : (op.build w).wf = true := by
  have hx := fitsX_fX w
  have hy := fitsY_fY w
  have hw := fitsWidths_fEw_fMw w
  cases op
  case inew | icvt | ibit => exact hx
  case itob | ftob => exact hy
  case islice | ifromb => exact Bool.and_eq_true_iff.2 ⟨hx, hy⟩
  case fnew => exact hw
  case ffromb => exact Bool.and_eq_true_iff.2 ⟨hw, hy⟩
  case iadd | isub | imul | idiv | ifdiv | imod | ipow | iand | ior | ixor | ishl | ishr
     | fadd | fsub | fmul | fdiv | ffdiv | fmod | fpow =>
    exact buildR_of_both (p := fun i => i.wf = true) w (fun _ _ _ => rfl) (fun _ _ => rfl)
  all_goals rfl

/-- A word decodes to the command its opcode and fields make, or not at all (R108). -/
theorem decode_eq_build {w : Word} {i : Instr} (h : decode w = .ok i) : ∃ op : Opcode, i = op.build w := by
  unfold decode at h
  split at h
  · cases h
  · rename_i op _
    split at h
    · cases h
    · split at h
      · cases h
      · exact ⟨op, by simpa using h.symm⟩

theorem decode_wf {w : Word} {i : Instr} (h : decode w = .ok i) : i.wf = true := by
  obtain ⟨op, rfl⟩ := decode_eq_build h
  exact build_wf w op

/-! ## What every way of ending keeps -/

theorem inv_takeCommand {s : State} (hs : s.Inv) (rest : List HostEvent) (h : Option HostIn) :
    (takeCommand s rest h).Inv := hs

theorem inv_setReg {s : State} (hs : s.Inv) (i : RegIdx) {r : Reg} (hr : r.wf = true) : (s.setReg i r).Inv := by
  refine ⟨fun j => ?_, hs.2⟩
  rw [setReg_reg]
  split
  · exact hr
  · exact hs.1 j

theorem inv_resetTo (s : State) (cs : List Host.Cell) : (resetTo s cs).Inv :=
  ⟨fun i => by simp [Reg.wf], memOfCells_wf cs⟩

/-- How a command that ends in `t` got there: it gives a response, after it wrote nothing, or a container to one
register, or bytes inside `MEM`. -/
theorem Effect.next_cases {s t : State} {G : Prop} (h : Effect s G (.next t)) :
    ∃ st out, t = s.respond st out ∨
      (∃ rd r, r ≠ .unwritten ∧ (G → r.wf = true) ∧ t = (s.setReg rd r).respond st out) ∨
      ∃ addr bytes, addr + bytes.length ≤ memSize ∧
        t = ({ s with mem := memWriteBytes s.mem addr bytes } : State).respond st out := by
  generalize hr : Host.Outcome.next t = r at h
  cases h with
  | fault f _ => exact ⟨_, _, .inl (raise_eq_next.1 hr.symm)⟩
  | answer out => exact ⟨_, _, .inl (complete_eq_next.1 hr.symm)⟩
  | writeInt rd c hc => exact ⟨_, _, .inr (.inl ⟨rd, .int c, nofun, hc, complete_eq_next.1 hr.symm⟩)⟩
  | writeFlt rd x hx => exact ⟨_, _, .inr (.inl ⟨rd, .flt x, nofun, hx, complete_eq_next.1 hr.symm⟩)⟩
  | store addr bytes hb => exact ⟨_, _, .inr (.inr ⟨addr, bytes, hb, complete_eq_next.1 hr.symm⟩)⟩

theorem Effect.keeps_inv {s t : State} {G : Prop} (h : Effect s G (.next t)) (hs : s.Inv) (hG : G) : t.Inv := by
  obtain ⟨st, out, rfl | ⟨rd, r, -, hr, rfl⟩ | ⟨addr, bytes, hb, rfl⟩⟩ := h.next_cases
  · exact hs
  · exact inv_setReg hs rd (hr hG)
  · exact ⟨hs.1, memWriteBytes_wf hs.2 bytes hb⟩

theorem Effect.keeps_surroundings {s t : State} {G : Prop} (h : Effect s G (.next t)) : SameSurroundings s t := by
  obtain ⟨st, out, rfl | ⟨rd, r, -, -, rfl⟩ | ⟨addr, bytes, -, rfl⟩⟩ := h.next_cases <;> exact ⟨rfl, rfl, rfl⟩

theorem Effect.keeps_written {s t : State} {G : Prop} (h : Effect s G (.next t)) {j : RegIdx}
    (hj : s.reg j ≠ .unwritten) : t.reg j ≠ .unwritten := by
  obtain ⟨st, out, rfl | ⟨rd, r, hr, -, rfl⟩ | ⟨addr, bytes, -, rfl⟩⟩ := h.next_cases
  · exact hj
  · rw [respond_reg, setReg_reg]
    split
    · exact hr
    · exact hj
  · exact hj

/-! ## The claims on steps -/

/-- Settles O8: nothing is written, and no byte is listed. -/
theorem invHoldsAtReset : Obligations.InvHoldsAtReset := ⟨fun i => by simp [Reg.wf], rfl⟩

/-- Settles O9: by what a step can do (`step_cases`); a decoded command is well formed, so each container it
writes is one of the spec's. -/
theorem stepKeepsInv : Obligations.StepKeepsInv := by
  intro s t hs h
  obtain ⟨-, e⟩ | ⟨cs, rest, -, e⟩ | ⟨w, p, rest, err, -, -, e⟩ | ⟨w, p, rest, i, -, hd, e⟩ := step_cases s
  · obtain rfl : s = t := by simpa [e] using h
    exact hs
  · obtain rfl : resetTo { s with pending := rest } cs = t := by simpa [e] using h
    exact inv_resetTo _ cs
  · rw [raise_eq_next.1 (e.symm.trans h)]
    exact inv_takeCommand hs rest p
  · have hs' := inv_takeCommand hs rest p
    have he := exec_effect i (takeCommand s rest p)
    rw [← e, h] at he
    exact he.keeps_inv hs' ⟨hs', decode_wf hd⟩

/-- Settles O6: the definition of a step, for a word that decodes. -/
theorem stepRunsDecodedCommand : Obligations.StepRunsDecodedCommand := by
  intro s w h rest i hp hd
  simp only [step, hp, hd]
  rfl

/-- Settles O11: an idle step is the identity, a reset and a rejected word keep the parameters and the later
events, and a command keeps its surroundings. -/
theorem stepTakesOneEvent : Obligations.StepTakesOneEvent := by
  intro s
  refine ⟨?_, fun hp => by simp [step, hp]⟩
  obtain ⟨hp, e⟩ | ⟨cs, rest, hp, e⟩ | ⟨w, p, rest, err, hp, -, e⟩ | ⟨w, p, rest, i, hp, -, e⟩ := step_cases s
  · exact ⟨s, e, by simp [hp], rfl⟩
  · exact ⟨_, e, by simp [hp], rfl⟩
  · exact ⟨_, e, by simp [hp], rfl⟩
  · have he := exec_effect i (takeCommand s rest p)
    obtain ⟨t, ht⟩ := he.next
    rw [ht] at he
    obtain ⟨hconfig, hpending, -⟩ := he.keeps_surroundings
    exact ⟨t, e.trans ht, by simp [hpending, hp], hconfig⟩

/-- The bytes of `f` at the listed addresses, as reset contents. -/
def cellsOf (f : Nat → Byte) (addrs : List Nat) : List Host.Cell := addrs.map fun a => (a, f a)

theorem memRead_cellsOf (f : Nat → Byte) {addrs : List Nat} {a : Nat} (h : a ∈ addrs) :
    memRead (cellsOf f addrs) a = f a := by
  induction addrs with
  | nil => cases h
  | cons b addrs ih =>
    simp only [cellsOf, List.map_cons, memRead]
    split <;> rename_i hb
    · rw [hb]
    · exact ih ((List.mem_cons.1 h).resolve_left fun e => hb e.symm)

/-- Settles O10: the contents are those of the event's cells, and `cellsOf` lists any bytes. -/
theorem resetEvent : Obligations.ResetEvent := by
  refine ⟨fun s cs rest hp => ⟨resetTo { s with pending := rest } cs, by simp [step, hp], fun i => by simp, rfl, rfl,
    rfl, memOfCells_wf cs, fun a ha => memRead_memOfCells cs ha⟩, fun f => ?_⟩
  exact ⟨cellsOf f (List.range 65536), fun a ha => memRead_cellsOf f (List.mem_range.2 ha)⟩

/-- Settles O17: a command writes a container or no register at all (`exec_effect`). -/
theorem noCommandWritesUnwritten : Obligations.NoCommandWritesUnwritten := by
  intro i s t r h hr
  have he := exec_effect i s
  rw [h] at he
  exact he.keeps_written hr

end Sys2Proof.Machine
end

section
/-! PROOFS. HOST_IN (10_state.md R43): the commands that take no operand do the same whatever is on the port. -/

namespace Sys2Proof.Machine

/-! ## Commands that do not look at the port -/

/-- The state with another operand on the port. -/
def State.setPort (s : State) (h : Option HostIn) : State := { s with hostIn := h }

/-- The result with another operand on the port. -/
def portOf (h : Option HostIn) : Result → Result
  | .next t => .next (t.setPort h)
  | .fault f => .fault f
  | .refused r => .refused r

@[simp] theorem setPort_reg (s : State) (h : Option HostIn) (i : RegIdx) : (s.setPort h).reg i = s.reg i := rfl

section
variable {s : State} (h : Option HostIn)

theorem withInt_setPort {i : RegIdx} {k k' : IntC → Result} (hk : ∀ a, k' a = portOf h (k a)) :
    withInt (s.setPort h) i k' = portOf h (withInt s i k) := by
  unfold withInt
  rw [setPort_reg]
  split
  · rfl
  · rfl
  · exact hk _

theorem withFlt_setPort {i : RegIdx} {k k' : FltC → Result} (hk : ∀ x, k' x = portOf h (k x)) :
    withFlt (s.setPort h) i k' = portOf h (withFlt s i k) := by
  unfold withFlt
  rw [setPort_reg]
  split
  · rfl
  · rfl
  · exact hk _

theorem withInt2_setPort {i j : RegIdx} {k k' : IntC → IntC → Result} (hk : ∀ a b, k' a b = portOf h (k a b)) :
    withInt2 (s.setPort h) i j k' = portOf h (withInt2 s i j k) := by
  unfold withInt2
  rw [setPort_reg, setPort_reg]
  split
  · rfl
  · rfl
  · exact hk _ _
  · rfl

theorem withFlt2_setPort {i j : RegIdx} {k k' : FltC → FltC → Result} (hk : ∀ x y, k' x y = portOf h (k x y)) :
    withFlt2 (s.setPort h) i j k' = portOf h (withFlt2 s i j k) := by
  unfold withFlt2
  rw [setPort_reg, setPort_reg]
  split
  · rfl
  · rfl
  · exact hk _ _
  · rfl

theorem ite_setPort {c : Prop} [Decidable c] {r₁ r₁' r₂ r₂' : Result} (h₁ : r₁' = portOf h r₁)
    (h₂ : r₂' = portOf h r₂) : (if c then r₁' else r₂') = portOf h (if c then r₁ else r₂) := by
  split
  · exact h₁
  · exact h₂

theorem intCopy_setPort (f : IntC → IntC → Except Status IntC) (rd rs1 rs2 : RegIdx) :
    intCopy f rd rs1 rs2 (s.setPort h) = portOf h (intCopy f rd rs1 rs2 s) :=
  withInt2_setPort h fun a b => by cases f a b <;> rfl

theorem intInPlace_setPort (f : IntC → IntC → Except Status IntC) (rs1 rs2 : RegIdx) :
    intInPlace f rs1 rs2 (s.setPort h) = portOf h (intInPlace f rs1 rs2 s) :=
  withInt2_setPort h fun a b => by cases f a b <;> rfl

theorem fltCopy_setPort (f : F64 → F64 → Except Status F64) (rd rs1 rs2 : RegIdx) :
    fltCopy f rd rs1 rs2 (s.setPort h) = portOf h (fltCopy f rd rs1 rs2 s) :=
  withFlt2_setPort h fun x y => by cases f (fdec x) (fdec y) <;> rfl

theorem fltInPlace_setPort (f : F64 → F64 → Except Status F64) (rs1 rs2 : RegIdx) :
    fltInPlace f rs1 rs2 (s.setPort h) = portOf h (fltInPlace f rs1 rs2 s) :=
  withFlt2_setPort h fun x y => by cases f (fdec x) (fdec y) <;> rfl

theorem storePattern_setPort (P w addr : Nat) (bo : ByteOrder) :
    storePattern (s.setPort h) P w addr bo = portOf h (storePattern s P w addr bo) :=
  ite_setPort h rfl rfl

theorem loadPattern_setPort {w addr : Nat} {bo : ByteOrder} {k k' : Nat → Result} (hk : ∀ U, k' U = portOf h (k U)) :
    loadPattern (s.setPort h) w addr bo k' = portOf h (loadPattern s w addr bo k) :=
  ite_setPort h (hk _) rfl

end

/-- A command that takes nothing on HOST_IN ignores what is there (R43). -/
theorem exec_setPort {i : Instr} (hi : i.hostInKind = .none) (s : State) (h : Option HostIn) :
    exec i (s.setPort h) = portOf h (exec i s) := by
  cases i
  case inew | iset | fnew | fset => cases hi
  case ineg | iabs | inot | iread | imin | imax => exact withInt_setPort h fun _ => rfl
  case icvt | ibit | islice => exact withInt_setPort h fun _ => ite_setPort h rfl rfl
  case itob => exact withInt_setPort h fun _ => storePattern_setPort h _ _ _ _
  case ieq | ine | ilt | ile | igt | ige => exact withInt2_setPort h fun _ _ => rfl
  case iadd | isub | imul | idiv | ifdiv | imod | ipow | iand | ior | ixor | ishl | ishr =>
    rw [exec]; exact intCopy_setPort h _ _ _ _
  case iaddIp | isubIp | imulIp | idivIp | ifdivIp | imodIp | ipowIp | iandIp | iorIp | ixorIp | ishlIp | ishrIp =>
    rw [exec]; exact intInPlace_setPort h _ _ _
  case ifromb => exact ite_setPort h (loadPattern_setPort h fun _ => rfl) rfl
  case fneg | fabs | fpos | fread => exact withFlt_setPort h fun _ => rfl
  case ftob => exact withFlt_setPort h fun _ => storePattern_setPort h _ _ _ _
  case feq | fne | flt | fle | fgt | fge => exact withFlt2_setPort h fun _ _ => rfl
  case fadd | fsub | fmul | fdiv | ffdiv | fmod | fpow => rw [exec]; exact fltCopy_setPort h _ _ _ _
  case faddIp | fsubIp | fmulIp | fdivIp | ffdivIp | fmodIp | fpowIp => rw [exec]; exact fltInPlace_setPort h _ _ _
  case ffromb => exact ite_setPort h (loadPattern_setPort h fun _ => rfl) rfl

/-! ## Commands that need an operand -/

theorem hostInKind_eq_integer {i : Instr} (h : i.hostInKind = .integer) :
    (∃ rd sg w, i = .inew rd sg w) ∨ ∃ rd, i = .iset rd := by
  cases i
  case inew rd sg w => exact .inl ⟨rd, sg, w, rfl⟩
  case iset rd => exact .inr ⟨rd, rfl⟩
  all_goals cases h

theorem hostInKind_eq_pattern {i : Instr} (h : i.hostInKind = .pattern) :
    (∃ rd ew mw, i = .fnew rd ew mw) ∨ ∃ rd, i = .fset rd := by
  cases i
  case fnew rd ew mw => exact .inl ⟨rd, ew, mw, rfl⟩
  case fset rd => exact .inr ⟨rd, rfl⟩
  all_goals cases h

theorem withHostInt_missing {s : State} (h : ∀ x, s.hostIn ≠ some (.int x)) (k : Int → Result) :
    withHostInt s k = raise s .illegalCommand :=
  (withHostInt_cases s k).resolve_left fun ⟨x, hx, _⟩ => h x hx

theorem withHostF64_missing {s : State} (h : ∀ b, s.hostIn ≠ some (.f64 b)) (k : F64 → Result) :
    withHostF64 s k = raise s .illegalCommand :=
  (withHostF64_cases s k).resolve_left fun ⟨b, hb, _⟩ => h b hb

/-- Settles O5: by the table of operand kinds, the fetch from the port, and `exec_setPort`. -/
theorem hostInUse : Obligations.HostInUse := by
  refine ⟨fun i => ?_, fun i s hi hs => ?_, fun i s hi hs => ?_, fun i s h hi t ht => ?_⟩
  · cases i <;> simp [Instr.hostInKind, Instr.opcode]
  · obtain ⟨rd, sg, w, rfl⟩ | ⟨rd, rfl⟩ := hostInKind_eq_integer hi
    · exact takesFault_of_raise (withHostInt_missing hs _)
    · exact takesFault_of_raise (withHostInt_missing hs _)
  · obtain ⟨rd, ew, mw, rfl⟩ | ⟨rd, rfl⟩ := hostInKind_eq_pattern hi
    · exact takesFault_of_raise (withHostF64_missing hs _)
    · exact takesFault_of_raise (withHostF64_missing hs _)
  · exact (exec_setPort hi s h).trans (congrArg (portOf h) ht)

end Sys2Proof.Machine
end

section
/-! PROOFS. Responses (10_state.md R44), in-place shapes (R35) and bit access (R34). -/

namespace Sys2Proof.Machine

/-! ## The kind of a command's `out` -/

/-- The three kinds of value on HOST_OUT (R44). -/
inductive OutKind
  | bit
  | int
  | f64
deriving DecidableEq

def Out.kind : Out → OutKind
  | .bit _ => .bit
  | .int _ => .int
  | .f64 _ => .f64

/-- The kind of `out` of a command that completes; `none` where it has no `out`. -/
def outKind (op : Opcode) : Option OutKind :=
  if op ∈ [.ieq, .ine, .ilt, .ile, .igt, .ige, .feq, .fne, .flt, .fle, .fgt, .fge, .ibit] then some .bit
  else if op ∈ [.iread, .imin, .imax] then some .int
  else if op = .fread then some .f64
  else none

/-- A response of status OK has an `out` of the kind `k`. -/
def OkKind (k : Option OutKind) (r : Result) : Prop :=
  ∀ t resp, r = .next t → t.response = some resp → resp.status = .ok → resp.out.map Out.kind = k

section
variable {s : State} {kind : Option OutKind}

/-- Of a fault, nothing is claimed. -/
theorem okKind_raise {f : Status} (hf : f ≠ .ok) : OkKind kind (raise s f) := by
  intro t resp ht hr hok
  rw [raise_eq_next.1 ht, respond_response] at hr
  cases hr
  exact absurd hok hf

/-- `raise` gives no `out`, whatever the status. -/
theorem okKind_raise_none (f : Status) : OkKind none (raise s f) := by
  intro t resp ht hr _
  rw [raise_eq_next.1 ht, respond_response] at hr
  cases hr
  rfl

theorem okKind_complete (out : Option Out) : OkKind (out.map Out.kind) (complete s out) := by
  intro t resp ht hr _
  rw [complete_eq_next.1 ht, respond_response] at hr
  cases hr
  rfl

theorem okKind_withInt {i : RegIdx} {k : IntC → Result} (h : ∀ a, OkKind kind (k a)) :
    OkKind kind (withInt s i k) := by
  obtain ⟨a, -, e⟩ | e | e := withInt_cases s i k <;> rw [e]
  · exact h a
  · exact okKind_raise (by decide)
  · exact okKind_raise (by decide)

theorem okKind_withFlt {i : RegIdx} {k : FltC → Result} (h : ∀ x, OkKind kind (k x)) :
    OkKind kind (withFlt s i k) := by
  obtain ⟨x, -, e⟩ | e | e := withFlt_cases s i k <;> rw [e]
  · exact h x
  · exact okKind_raise (by decide)
  · exact okKind_raise (by decide)

theorem okKind_withInt2 {i j : RegIdx} {k : IntC → IntC → Result} (h : ∀ a b, OkKind kind (k a b)) :
    OkKind kind (withInt2 s i j k) := by
  obtain ⟨a, b, -, -, e⟩ | e | e := withInt2_cases s i j k <;> rw [e]
  · exact h a b
  · exact okKind_raise (by decide)
  · exact okKind_raise (by decide)

theorem okKind_withFlt2 {i j : RegIdx} {k : FltC → FltC → Result} (h : ∀ x y, OkKind kind (k x y)) :
    OkKind kind (withFlt2 s i j k) := by
  obtain ⟨x, y, -, -, e⟩ | e | e := withFlt2_cases s i j k <;> rw [e]
  · exact h x y
  · exact okKind_raise (by decide)
  · exact okKind_raise (by decide)

theorem okKind_withHostInt {k : Int → Result} (h : ∀ x, OkKind kind (k x)) : OkKind kind (withHostInt s k) := by
  obtain ⟨x, -, e⟩ | e := withHostInt_cases s k <;> rw [e]
  · exact h x
  · exact okKind_raise (by decide)

theorem okKind_withHostF64 {k : F64 → Result} (h : ∀ b, OkKind kind (k b)) : OkKind kind (withHostF64 s k) := by
  obtain ⟨b, -, e⟩ | e := withHostF64_cases s k <;> rw [e]
  · exact h b
  · exact okKind_raise (by decide)

theorem okKind_ite {c : Prop} [Decidable c] {r₁ r₂ : Result} (h₁ : OkKind kind r₁) (h₂ : OkKind kind r₂) :
    OkKind kind (if c then r₁ else r₂) := by
  split
  · exact h₁
  · exact h₂

theorem okKind_intCopy (f : IntC → IntC → Except Status IntC) (rd rs1 rs2 : RegIdx) :
    OkKind none (intCopy f rd rs1 rs2 s) :=
  okKind_withInt2 fun a b => by cases f a b; exacts [okKind_raise_none _, okKind_complete none]

theorem okKind_intInPlace (f : IntC → IntC → Except Status IntC) (rs1 rs2 : RegIdx) :
    OkKind none (intInPlace f rs1 rs2 s) :=
  okKind_withInt2 fun a b => by cases f a b; exacts [okKind_raise_none _, okKind_complete none]

theorem okKind_fltCopy (f : F64 → F64 → Except Status F64) (rd rs1 rs2 : RegIdx) :
    OkKind none (fltCopy f rd rs1 rs2 s) :=
  okKind_withFlt2 fun x y => by cases f (fdec x) (fdec y); exacts [okKind_raise_none _, okKind_complete none]

theorem okKind_fltInPlace (f : F64 → F64 → Except Status F64) (rs1 rs2 : RegIdx) :
    OkKind none (fltInPlace f rs1 rs2 s) :=
  okKind_withFlt2 fun x y => by cases f (fdec x) (fdec y); exacts [okKind_raise_none _, okKind_complete none]

theorem okKind_storePattern (P w addr : Nat) (bo : ByteOrder) : OkKind none (storePattern s P w addr bo) :=
  okKind_ite (okKind_complete none) (okKind_raise_none _)

theorem okKind_loadPattern {w addr : Nat} {bo : ByteOrder} {k : Nat → Result} (h : ∀ U, OkKind none (k U)) :
    OkKind none (loadPattern s w addr bo k) := okKind_ite (h _) (okKind_raise_none _)

end

/-- The `out` of a command that completes is of the kind of the command. -/
theorem exec_okKind (i : Instr) (s : State) : OkKind (outKind i.opcode) (exec i s) := by
  cases i
  case inew => exact okKind_withHostInt fun _ => okKind_ite (okKind_complete none) (okKind_raise_none _)
  case iset => exact okKind_withHostInt fun _ => okKind_withInt fun _ => okKind_complete none
  case fnew => exact okKind_withHostF64 fun _ => okKind_ite (okKind_complete none) (okKind_raise_none _)
  case fset => exact okKind_withHostF64 fun _ => okKind_withFlt fun _ => okKind_complete none
  case ineg | iabs | inot => exact okKind_withInt fun _ => okKind_complete none
  case icvt | islice => exact okKind_withInt fun _ => okKind_ite (okKind_complete none) (okKind_raise_none _)
  case ibit => exact okKind_withInt fun _ => okKind_ite (okKind_complete (some (.bit _))) (okKind_raise (by decide))
  case iread | imin | imax => exact okKind_withInt fun _ => okKind_complete (some (.int _))
  case itob => exact okKind_withInt fun _ => okKind_storePattern _ _ _ _
  case ieq | ine | ilt | ile | igt | ige => exact okKind_withInt2 fun _ _ => okKind_complete (some (.bit _))
  case iadd | isub | imul | idiv | ifdiv | imod | ipow | iand | ior | ixor | ishl | ishr =>
    rw [exec]; exact okKind_intCopy _ _ _ _
  case iaddIp | isubIp | imulIp | idivIp | ifdivIp | imodIp | ipowIp | iandIp | iorIp | ixorIp | ishlIp | ishrIp =>
    rw [exec]; exact okKind_intInPlace _ _ _
  case ifromb => exact okKind_ite (okKind_loadPattern fun _ => okKind_complete none) (okKind_raise_none _)
  case fneg | fabs | fpos => exact okKind_withFlt fun _ => okKind_complete none
  case fread => exact okKind_withFlt fun _ => okKind_complete (some (.f64 _))
  case ftob => exact okKind_withFlt fun _ => okKind_storePattern _ _ _ _
  case feq | fne | flt | fle | fgt | fge => exact okKind_withFlt2 fun _ _ => okKind_complete (some (.bit _))
  case fadd | fsub | fmul | fdiv | ffdiv | fmod | fpow => rw [exec]; exact okKind_fltCopy _ _ _ _
  case faddIp | fsubIp | fmulIp | fdivIp | ffdivIp | fmodIp | fpowIp => rw [exec]; exact okKind_fltInPlace _ _ _
  case ffromb => exact okKind_ite (okKind_loadPattern fun _ => okKind_complete none) (okKind_raise_none _)

/-- A command gives one response, with no `out` where it is a fault (R44). -/
theorem Effect.response {s t : State} {G : Prop} (h : Effect s G (.next t)) :
    ∃ resp, t.response = some resp ∧ (resp.status ≠ .ok → resp.out = none) := by
  generalize hr : Host.Outcome.next t = r at h
  cases h with
  | fault f _ => rw [raise_eq_next.1 hr.symm]; exact ⟨_, rfl, fun _ => rfl⟩
  | answer out => rw [complete_eq_next.1 hr.symm]; exact ⟨_, rfl, fun h => absurd rfl h⟩
  | writeInt rd c _ => rw [complete_eq_next.1 hr.symm]; exact ⟨_, rfl, fun _ => rfl⟩
  | writeFlt rd x _ => rw [complete_eq_next.1 hr.symm]; exact ⟨_, rfl, fun _ => rfl⟩
  | store addr bytes _ => rw [complete_eq_next.1 hr.symm]; exact ⟨_, rfl, fun _ => rfl⟩

theorem map_kind_eq_bit (out : Option Out) : out.map Out.kind = some .bit ↔ ∃ b, out = some (.bit b) := by
  rcases out with _ | _ | _ | _ <;> simp [Out.kind]

theorem map_kind_eq_int (out : Option Out) : out.map Out.kind = some .int ↔ ∃ x, out = some (.int x) := by
  rcases out with _ | _ | _ | _ <;> simp [Out.kind]

theorem map_kind_eq_f64 (out : Option Out) : out.map Out.kind = some .f64 ↔ ∃ b, out = some (.f64 b) := by
  rcases out with _ | _ | _ | _ <;> simp [Out.kind]

/-- Settles O12: a word that does not decode gives the fault IllegalCommand; a command gives one response
(`Effect.response`) whose `out` is of its kind (`exec_okKind`). -/
theorem responseShape : Obligations.ResponseShape := by
  refine ⟨fun s w p rest hp => ?_, rfl, rfl⟩
  cases hd : decode w with
  | error e =>
    refine ⟨(takeCommand s rest p).respond .illegalCommand none, ⟨.illegalCommand, none⟩, ?_, rfl, fun _ => rfl,
      nofun⟩
    simp only [step, hp, hd]
    rfl
  | ok i =>
    have he := exec_effect i (takeCommand s rest p)
    obtain ⟨t, ht⟩ := he.next
    rw [ht] at he
    obtain ⟨resp, hresp, hfault⟩ := he.response
    refine ⟨t, resp, (stepRunsDecodedCommand s w p rest i hp hd).trans ht, hresp, hfault, fun hok => ⟨i, rfl, ?_⟩⟩
    rw [← map_kind_eq_bit, ← map_kind_eq_int, ← map_kind_eq_f64, exec_okKind i _ t resp ht hresp hok]
    cases i.opcode <;> decide

/-! ## In-place commands -/

/-- A fault leaves every register as it was (60_exceptions.md R371). -/
theorem reg_of_raise {s t : State} {f : Status} (h : raise s f = .next t) (i : RegIdx) : t.reg i = s.reg i := by
  rw [raise_eq_next.1 h, respond_reg]

theorem reg_of_writeInt {s t : State} {rd : RegIdx} {c : IntC} (h : writeInt s rd c = .next t) :
    t.reg rd = .int c := by
  rw [complete_eq_next.1 h, respond_reg, setReg_reg_self]

theorem reg_of_writeFlt {s t : State} {rd : RegIdx} {x : FltC} (h : writeFlt s rd x = .next t) :
    t.reg rd = .flt x := by
  rw [complete_eq_next.1 h, respond_reg, setReg_reg_self]

/-- An in-place integer command writes in the receiver's shape, or takes a fault (R35, 40_int_construct.md R139). -/
theorem intInPlace_keepsShape {f : IntC → IntC → Except Status IntC} {rs1 rs2 : RegIdx} {s t : State} {a : IntC}
    (ha : s.reg rs1 = .int a) (h : intInPlace f rs1 rs2 s = .next t) :
    ∃ b, t.reg rs1 = .int b ∧ b.n = a.n ∧ b.s = a.s := by
  unfold intInPlace at h
  obtain ⟨a', b, ha', -, e⟩ | e | e := withInt2_cases s rs1 rs2 _ <;> rw [e] at h
  · obtain rfl : a' = a := by simpa [ha] using ha'.symm
    split at h
    · exact ⟨_, reg_of_writeInt h, rfl, rfl⟩
    · exact ⟨_, (reg_of_raise h _).trans ha, rfl, rfl⟩
  · exact ⟨_, (reg_of_raise h _).trans ha, rfl, rfl⟩
  · exact ⟨_, (reg_of_raise h _).trans ha, rfl, rfl⟩

theorem iset_keepsShape {rd : RegIdx} {s t : State} {a : IntC} (ha : s.reg rd = .int a)
    (h : execIset rd s = .next t) : ∃ b, t.reg rd = .int b ∧ b.n = a.n ∧ b.s = a.s := by
  unfold execIset at h
  obtain ⟨x, -, e⟩ | e := withHostInt_cases s _ <;> rw [e] at h
  · rw [withInt_int ha] at h
    exact ⟨_, reg_of_writeInt h, rfl, rfl⟩
  · exact ⟨_, (reg_of_raise h _).trans ha, rfl, rfl⟩

/-- An in-place float command rounds into the receiver's widths, or takes a fault (46_fp_arith.md R334). -/
theorem fltInPlace_keepsShape {f : F64 → F64 → Except Status F64} {rs1 rs2 : RegIdx} {s t : State} {x : FltC}
    (hx : s.reg rs1 = .flt x) (h : fltInPlace f rs1 rs2 s = .next t) :
    ∃ y, t.reg rs1 = .flt y ∧ y.e = x.e ∧ y.m = x.m := by
  unfold fltInPlace at h
  obtain ⟨x', y, hx', -, e⟩ | e | e := withFlt2_cases s rs1 rs2 _ <;> rw [e] at h
  · obtain rfl : x' = x := by simpa [hx] using hx'.symm
    split at h
    · exact ⟨_, reg_of_writeFlt h, rfl, rfl⟩
    · exact ⟨_, (reg_of_raise h _).trans hx, rfl, rfl⟩
  · exact ⟨_, (reg_of_raise h _).trans hx, rfl, rfl⟩
  · exact ⟨_, (reg_of_raise h _).trans hx, rfl, rfl⟩

theorem fset_keepsShape {rd : RegIdx} {s t : State} {x : FltC} (hx : s.reg rd = .flt x)
    (h : execFset rd s = .next t) : ∃ y, t.reg rd = .flt y ∧ y.e = x.e ∧ y.m = x.m := by
  unfold execFset at h
  obtain ⟨b, -, e⟩ | e := withHostF64_cases s _ <;> rw [e] at h
  · rw [withFlt_flt hx] at h
    exact ⟨_, reg_of_writeFlt h, rfl, rfl⟩
  · exact ⟨_, (reg_of_raise h _).trans hx, rfl, rfl⟩

/-- Settles O18: each command is `intInPlace`, ISET, `fltInPlace` or FSET. -/
theorem inPlaceKeepsShape : Obligations.InPlaceKeepsShape := by
  refine ⟨fun rs1 rs2 s t a ha => ?_, fun rs1 rs2 s t x hx => ?_⟩
  · simp only [List.forall_mem_cons, exec]
    refine ⟨?_, ?_, ?_, ?_, ?_, ?_, ?_, ?_, ?_, ?_, ?_, ?_, iset_keepsShape ha, nofun⟩
    all_goals exact intInPlace_keepsShape ha
  · simp only [List.forall_mem_cons, exec]
    refine ⟨?_, ?_, ?_, ?_, ?_, ?_, ?_, fset_keepsShape hx, nofun⟩
    all_goals exact fltInPlace_keepsShape hx

/-! ## Bit access -/

/-- The low `n` bits of an integer are those of its residue modulo `2^n` (R34). -/
theorem testBit_toNat_emod_two_pow (v : Int) (n i : Nat) :
    (v % 2 ^ n).toNat.testBit i = (decide (i < n) && v.testBit i) := by
  cases v with
  | ofNat m =>
    rw [show (Int.ofNat m % 2 ^ n).toNat = m % 2 ^ n by rfl, Nat.testBit_mod_two_pow]
    rfl
  | negSucc m =>
    have hlt : m % 2 ^ n < 2 ^ n := Nat.mod_lt _ (by positivity)
    have h : (Int.negSucc m % 2 ^ n).toNat = 2 ^ n - (m % 2 ^ n + 1) := by
      rw [Int.negSucc_emod m (two_pow_pos_int n),
        show (2 : Int) ^ n - 1 - m % 2 ^ n = (2 ^ n - (m % 2 ^ n + 1) : Nat) by push_cast [Nat.cast_sub hlt]; ring,
        Int.toNat_natCast]
    rw [h, Nat.testBit_two_pow_sub_succ hlt, Nat.testBit_mod_two_pow]
    by_cases hi : i < n <;> simp [hi, Int.testBit]

theorem pattern_testBit (a : IntC) {i : Nat} (h : i < a.n) : a.pattern.testBit i = a.v.testBit i := by
  rw [IntC.pattern, zext, testBit_toNat_emod_two_pow]
  simp [h]

/-- The bits of `x[hi:lo]` are those of `x` from `lo` on (00_scope.md R15). -/
theorem slice_testBit (x hi lo j : Nat) :
    (slice x hi lo).testBit j = (decide (j < hi + 1 - lo) && x.testBit (lo + j)) := by
  rw [slice, Nat.testBit_mod_two_pow, Nat.testBit_div_two_pow, Nat.add_comm j lo]

theorem slice_self_beq_one (x i : Nat) : (slice x i i == 1) = x.testBit i := by
  rw [slice, Nat.testBit_eq_decide_div_mod_eq, show i + 1 - i = 1 by omega, Nat.pow_one]
  rfl

/-- Settles O33: IBIT answers a bit of the pattern and ISLICE writes a slice of it, and the pattern's bits are the
value's. -/
theorem bitAccess : Obligations.BitAccess := by
  intro rd rs1 a s ha
  have hbit (i : Nat) : exec (.ibit rs1 i) s =
      if i < a.n then deliver s (slice a.pattern i i == 1) else raise s .indexOutOfRange := withInt_int ha
  have hslice (lo hi : Nat) : exec (.islice rd rs1 lo hi) s =
      if lo < hi ∧ hi ≤ a.n then writeInt s rd ⟨hi - lo, false, slice a.pattern (hi - 1) lo⟩
      else raise s .indexOutOfRange := withInt_int ha
  refine ⟨fun i hi => ?_, fun i hi => ?_, fun lo hi hlo hhi => ?_, fun lo hi hout => ?_⟩
  · rw [← pattern_testBit a hi, ← slice_self_beq_one]
    exact answers_of_complete ((hbit i).trans (if_pos hi))
  · exact takesFault_of_raise ((hbit i).trans (if_neg (by omega)))
  · have hw : hi - 1 + 1 - lo = hi - lo := by omega
    refine ⟨slice a.pattern (hi - 1) lo, hw ▸ slice_lt a.pattern (hi - 1) lo, fun j hj => ?_,
      writes_of_writeInt ((hslice lo hi).trans (if_pos ⟨hlo, hhi⟩))⟩
    rw [slice_testBit, hw, pattern_testBit a (by omega)]
    simp [hj]
  · exact takesFault_of_raise ((hslice lo hi).trans (if_neg (by omega)))

end Sys2Proof.Machine
end

section
/-! PROOFS. The default host rounds to nearest, ties to even (10_state.md R45): a value is a number of units of a
power of two, `roundDiv` gives the nearest number of them, and `roundMag` chooses the unit. -/

namespace Sys2Proof.Machine

/-! ## Values of patterns -/

/-- The value of a pattern without its sign, of any exponent field. -/
def magValue (m : Nat) : ℚ :=
  if m / 2 ^ 52 = 0 then m * (2 : ℚ) ^ (-1074 : ℤ)
  else (2 ^ 52 + m % 2 ^ 52 : Nat) * (2 : ℚ) ^ (((m / 2 ^ 52 : Nat) : ℤ) - 1075)

theorem f64Mag_div (b : F64) : f64Mag b / 2 ^ 52 = f64Exp b := by
  have := f64Man_lt b
  rw [f64Mag_eq]
  omega

theorem f64Mag_mod (b : F64) : f64Mag b % 2 ^ 52 = f64Man b := by
  have := f64Man_lt b
  rw [f64Mag_eq]
  omega

theorem f64Value_eq_magValue (b : F64) : f64Value b = signFactor (f64Sign b) * magValue (f64Mag b) := by
  unfold f64Value f64Dyadic magValue
  rw [f64Mag_div, f64Mag_mod]
  split <;> rename_i h
  · rw [f64Mag_eq, h, Nat.zero_mul, Nat.zero_add, mul_assoc]
  · push_cast
    rw [mul_assoc]

theorem magValue_nonneg (m : Nat) : 0 ≤ magValue m := by
  unfold magValue
  split <;> positivity

/-- The unit in the last place for the exponent field `k + 1`; for `k = 0` also that of the denormals (R21). -/
def ulp (k : Nat) : ℚ := (2 : ℚ) ^ ((k : ℤ) - 1074)

theorem ulp_pos (k : Nat) : 0 < ulp k := by
  unfold ulp
  positivity

theorem ulp_add (k j : Nat) : ulp (k + j) = 2 ^ j * ulp k := by
  unfold ulp
  rw [← zpow_natCast, ← zpow_add₀ (by norm_num)]
  congr 1
  push_cast
  ring

theorem magValue_of_lt {m : Nat} (h : m < 2 ^ 52) : magValue m = m * ulp 0 := by
  rw [magValue, if_pos (Nat.div_eq_of_lt h)]
  rfl

theorem magValue_of_exp {E M : Nat} (hM : M < 2 ^ 52) : magValue (M + (E + 1) * 2 ^ 52) = (2 ^ 52 + M) * ulp E := by
  have hdiv : (M + (E + 1) * 2 ^ 52) / 2 ^ 52 = E + 1 := by omega
  have hmod : (M + (E + 1) * 2 ^ 52) % 2 ^ 52 = M := by omega
  rw [magValue, hdiv, hmod, if_neg (by omega), ulp]
  push_cast
  congr 2
  ring

/-- A magnitude is a denormal or has an exponent field above 0. -/
theorem mag_cases (m : Nat) : m < 2 ^ 52 ∨ ∃ E M, M < 2 ^ 52 ∧ m = M + (E + 1) * 2 ^ 52 := by
  rcases Nat.lt_or_ge m (2 ^ 52) with h | h
  · exact .inl h
  · exact .inr ⟨m / 2 ^ 52 - 1, m % 2 ^ 52, Nat.mod_lt _ (by positivity), by omega⟩

/-- `q` units of the `k`-th binade are the value of the magnitude `q + k * 2^52`; a full `q` carries into the
exponent. -/
theorem magValue_units {k q : Nat} (hq : q ≤ 2 ^ 53) (hk : k = 0 ∨ 2 ^ 52 ≤ q) :
    magValue (q + k * 2 ^ 52) = q * ulp k := by
  rcases Nat.lt_or_ge q (2 ^ 52) with h | h
  · obtain rfl : k = 0 := by omega
    rw [Nat.zero_mul, Nat.add_zero, magValue_of_lt h]
  · rcases Nat.lt_or_ge q (2 ^ 53) with h' | h'
    · rw [show q + k * 2 ^ 52 = (q - 2 ^ 52) + (k + 1) * 2 ^ 52 by omega, magValue_of_exp (by omega),
        Nat.cast_sub h]
      push_cast
      ring
    · obtain rfl : q = 2 ^ 53 := by omega
      rw [show 2 ^ 53 + k * 2 ^ 52 = 0 + (k + 1 + 1) * 2 ^ 52 by omega, magValue_of_exp (by omega), ulp_add]
      push_cast
      ring

/-- A value is a multiple of the unit of the `k`-th binade, or lies below that binade. -/
def OnGrid (k : Nat) (v : ℚ) : Prop := (∃ j : ℤ, v = j * ulp k) ∨ (0 < k ∧ v < 2 ^ 52 * ulp k)

theorem onGrid_magValue (k m : Nat) : OnGrid k (magValue m) := by
  obtain h | ⟨E, M, hM, rfl⟩ := mag_cases m
  · rw [magValue_of_lt h]
    rcases Nat.eq_zero_or_pos k with rfl | hk
    · exact .inl ⟨m, rfl⟩
    · refine .inr ⟨hk, ?_⟩
      have hm : (m : ℚ) < 2 ^ 52 := by exact_mod_cast h
      have hu : ulp 0 ≤ ulp k := by
        rw [← Nat.zero_add k, ulp_add]
        exact le_mul_of_one_le_left (ulp_pos 0).le (one_le_pow₀ (by norm_num))
      nlinarith [ulp_pos 0]
  · rw [magValue_of_exp hM]
    rcases Nat.le_total k E with h | h
    · obtain ⟨j, rfl⟩ := Nat.exists_eq_add_of_le h
      refine .inl ⟨(2 ^ 52 + M) * 2 ^ j, ?_⟩
      rw [ulp_add]
      push_cast
      ring
    · rcases Nat.eq_or_lt_of_le h with rfl | h
      · exact .inl ⟨2 ^ 52 + M, by push_cast; ring⟩
      · refine .inr ⟨by omega, ?_⟩
        obtain ⟨j, rfl⟩ := Nat.exists_eq_add_of_lt h
        have hm : (M : ℚ) < 2 ^ 52 := by exact_mod_cast hM
        have hj : (1 : ℚ) ≤ 2 ^ j := one_le_pow₀ (by norm_num)
        rw [Nat.add_assoc, ulp_add, pow_succ (2 : ℚ) j]
        nlinarith [ulp_pos E, mul_le_mul_of_nonneg_right hj (ulp_pos E).le]

theorem onGrid_neg_magValue (k m : Nat) : OnGrid k (-magValue m) := by
  obtain ⟨j, hj⟩ | ⟨hk, -⟩ := onGrid_magValue k m
  · exact .inl ⟨-j, by rw [hj]; push_cast; ring⟩
  · exact .inr ⟨hk, by nlinarith [magValue_nonneg m, ulp_pos k]⟩

/-! ## The nearest number of units -/

/-- `roundDiv` is nearest, and even where another integer is as near. -/
theorem roundDiv_nearest_int (num : Nat) {den : Nat} (hd : 0 < den) (j : ℤ) :
    |(roundDiv num den : ℤ) * den - num| ≤ |j * den - num| ∧
      (|(roundDiv num den : ℤ) * den - num| = |j * den - num| → j ≠ roundDiv num den → roundDiv num den % 2 = 0) := by
  have hnum : (num : ℤ) = den * (num / den : Nat) + (num % den : Nat) := by
    exact_mod_cast (Nat.div_add_mod num den).symm
  have hr : num % den < den := Nat.mod_lt _ hd
  have hd' : (0 : ℤ) < den := by exact_mod_cast hd
  unfold roundDiv
  rw [hnum]
  generalize num / den = q at *
  generalize num % den = r at *
  obtain ⟨i, rfl⟩ : ∃ i : ℤ, j = q + i := ⟨j - q, by ring⟩
  rw [show ((q : ℤ) + i) * den - (den * q + r) = i * den - r by ring]
  have hmul : (i ≤ -1 ∧ i * den ≤ -den) ∨ i = 0 ∨ i = 1 ∨ (2 ≤ i ∧ 2 * (den : ℤ) ≤ i * den) := by
    rcases show i ≤ -1 ∨ i = 0 ∨ i = 1 ∨ 2 ≤ i by omega with h | h | h | h
    · exact .inl ⟨h, by nlinarith⟩
    · exact .inr (.inl h)
    · exact .inr (.inr (.inl h))
    · exact .inr (.inr (.inr ⟨h, by nlinarith⟩))
  simp only [Int.abs_eq_natAbs]
  split <;> rename_i hc
  · rw [Nat.cast_add_one, show ((q : ℤ) + 1) * den - (den * q + r) = den - r by ring]
    obtain ⟨hi, hz⟩ | rfl | rfl | ⟨hi, hz⟩ := hmul <;> omega
  · rw [show (q : ℤ) * den - (den * q + r) = -r by ring]
    obtain ⟨hi, hz⟩ | rfl | rfl | ⟨hi, hz⟩ := hmul <;> omega

/-- `q` units of the `k`-th binade are `x`, rounded to nearest, ties to even, and `x` is in that binade. -/
structure Rounds (x : ℚ) (k q : Nat) : Prop where
  lt : x < 2 ^ 53 * ulp k
  ge : k = 0 ∨ 2 ^ 52 * ulp k ≤ x
  nearest : ∀ j : ℤ, |q * ulp k - x| ≤ |j * ulp k - x|
  even : ∀ j : ℤ, |q * ulp k - x| = |j * ulp k - x| → j ≠ q → q % 2 = 0

theorem rounds_roundDiv {num den : Nat} (hd : 0 < den) {k : Nat} {x : ℚ} (hx : x = num / den * ulp k)
    (lt : x < 2 ^ 53 * ulp k) (ge : k = 0 ∨ 2 ^ 52 * ulp k ≤ x) : Rounds x k (roundDiv num den) := by
  have hd' : (0 : ℚ) < den := by exact_mod_cast hd
  have hc : 0 < ulp k / den := div_pos (ulp_pos k) hd'
  have scale (j : ℤ) : |j * ulp k - x| = (|j * den - num| : ℤ) * (ulp k / den) := by
    rw [hx, show (j : ℚ) * ulp k - num / den * ulp k = (j * den - num) * (ulp k / den) by field_simp,
      abs_mul, abs_of_pos hc]
    push_cast
    rfl
  have scale' := scale (roundDiv num den)
  rw [Int.cast_natCast] at scale'
  refine ⟨lt, ge, fun j => ?_, fun j he hj => (roundDiv_nearest_int num hd j).2 ?_ hj⟩
  · rw [scale', scale j]
    exact mul_le_mul_of_nonneg_right (Int.cast_le.2 (roundDiv_nearest_int num hd j).1) hc.le
  · rw [scale', scale j] at he
    exact_mod_cast mul_right_cancel₀ hc.ne' he

section
variable {x : ℚ} {k q : Nat} (h : Rounds x k q)
include h

/-- The nearest number of units is at most `n` below the middle of `n` and `n + 1` units. -/
theorem Rounds.le_of_lt_middle {n : Nat} (hn : x < (n + 1 / 2) * ulp k) : q ≤ n := by
  by_contra hq
  have hq' : (n : ℚ) + 1 ≤ q := by exact_mod_cast Nat.lt_of_not_le hq
  have hu := ulp_pos k
  have hqx : (n + 1) * ulp k - x ≤ |q * ulp k - x| := (by nlinarith : _ ≤ q * ulp k - x).trans (le_abs_self _)
  have hnear := hqx.trans (h.nearest n)
  rw [Int.cast_natCast, le_abs] at hnear
  rcases hnear with hnear | hnear <;> nlinarith

theorem Rounds.ge_of_ge {n : Nat} (hn : n * ulp k ≤ x) : n ≤ q := by
  by_contra hq
  have hq' : (q : ℚ) + 1 ≤ n := by exact_mod_cast Nat.lt_of_not_le hq
  have hu := ulp_pos k
  have := h.nearest n
  rw [Int.cast_natCast, abs_of_nonpos (by nlinarith), abs_of_nonpos (by linarith)] at this
  nlinarith

theorem Rounds.q_le : q ≤ 2 ^ 53 := h.le_of_lt_middle (h.lt.trans (by push_cast; linarith [ulp_pos k]))

theorem Rounds.q_ge : k = 0 ∨ 2 ^ 52 ≤ q := h.ge.imp_right fun hx => h.ge_of_ge (by exact_mod_cast hx)

theorem Rounds.magValue_eq : magValue (q + k * 2 ^ 52) = q * ulp k := magValue_units h.q_le h.q_ge

/-- Nothing on the grid of the binade, or below it, is nearer than `q` units. -/
theorem Rounds.nearest_onGrid {v : ℚ} (hv : OnGrid k v) :
    |q * ulp k - x| ≤ |v - x| ∧ (|q * ulp k - x| = |v - x| → v ≠ q * ulp k → q % 2 = 0) := by
  obtain ⟨j, rfl⟩ | ⟨hk, hv⟩ := hv
  · exact ⟨h.nearest j, fun he hj => h.even j he fun e => hj (by rw [e, Int.cast_natCast])⟩
  · have hx : 2 ^ 52 * ulp k ≤ x := h.ge.resolve_left hk.ne'
    have hlt : |q * ulp k - x| < |v - x| := by
      refine (h.nearest (2 ^ 52)).trans_lt ?_
      push_cast
      rw [abs_of_nonpos (by linarith), abs_of_nonpos (by linarith)]
      linarith
    exact ⟨hlt.le, fun he => absurd he hlt.ne⟩

end

/-! ## Overflow -/

/-- Half a unit above the largest finite value, in units of the last binade of the format. -/
theorem overflow_threshold : (2 : ℚ) ^ 1024 - 2 ^ 970 = (2 ^ 53 - 1 / 2) * ulp 2045 := by
  have h1024 : (2 : ℚ) ^ 1024 = 2 ^ 54 * 2 ^ 970 := pow_add 2 54 970
  have h2045 : ulp 2045 = 2 * 2 ^ 970 := by
    rw [ulp, ← zpow_natCast, ← zpow_one_add₀ (by norm_num)]
    congr 1
  rw [h1024, h2045]
  generalize (2 : ℚ) ^ 970 = T
  ring

theorem ulp_le_ulp {k j : Nat} (h : k ≤ j) : ulp k ≤ ulp j :=
  zpow_le_zpow_right₀ (by norm_num) (by omega)

/-- The tie between the largest value of a binade and the next power of two goes to the power. -/
theorem Rounds.carry_iff {x : ℚ} {k q : Nat} (h : Rounds x k q) :
    q = 2 ^ 53 ↔ (2 ^ 53 - 1 / 2) * ulp k ≤ x := by
  have hu := ulp_pos k
  constructor
  · rintro rfl
    by_contra hx
    have := h.le_of_lt_middle (n := 2 ^ 53 - 1) (by push_cast; linarith)
    omega
  · intro hx
    have hq := h.q_le
    have hge : 2 ^ 53 - 1 ≤ q := h.ge_of_ge (by push_cast; linarith)
    by_contra hne
    obtain rfl : q = 2 ^ 53 - 1 := by omega
    have hnear := h.nearest (2 ^ 53)
    have heven := h.even (2 ^ 53)
    have hlt := h.lt
    push_cast at hnear heven
    rw [abs_of_nonpos (by linarith), abs_of_nonneg (by linarith)] at hnear heven
    have := heven (by linarith) (by norm_num)
    omega

/-- The rounded magnitude reaches the infinity exactly from half a unit above the largest finite value on. -/
theorem Rounds.overflow_iff {x : ℚ} {k q : Nat} (h : Rounds x k q) :
    2047 * 2 ^ 52 ≤ q + k * 2 ^ 52 ↔ (2 : ℚ) ^ 1024 - 2 ^ 970 ≤ x := by
  rw [overflow_threshold]
  have hq := h.q_le
  have hu := ulp_pos 2045
  rcases Nat.lt_trichotomy k 2045 with hk | rfl | hk
  · have hle := ulp_le_ulp (show k + 1 ≤ 2045 by omega)
    rw [ulp_add] at hle
    refine iff_of_false (by omega) (not_le.2 ?_)
    linarith [h.lt]
  · rw [← h.carry_iff]
    omega
  · have hge : 2 ^ 52 ≤ q := h.q_ge.resolve_left (by omega)
    have hx := h.ge.resolve_left (by omega)
    have hle := ulp_le_ulp (show 2045 + 1 ≤ k by omega)
    rw [ulp_add] at hle
    refine iff_of_true (by omega) ?_
    linarith

/-! ## The unit that `roundMag` chooses -/

/-- A power of two with an integer exponent, as the model splits it over numerator and denominator. -/
theorem div_scaled (num den : Nat) (z : ℤ) :
    ((num * 2 ^ z.toNat : Nat) : ℚ) / (den * 2 ^ (-z).toNat : Nat) = num / den * (2 : ℚ) ^ z := by
  push_cast
  rcases le_total 0 z with h | h
  · obtain ⟨n, rfl⟩ := Int.eq_ofNat_of_zero_le h
    rw [Int.toNat_natCast, Int.toNat_of_nonpos (by omega), zpow_natCast]
    ring
  · obtain ⟨n, hn⟩ := Int.eq_ofNat_of_zero_le (show 0 ≤ -z by omega)
    obtain rfl : z = -(n : ℤ) := by omega
    rw [neg_neg, Int.toNat_natCast, Int.toNat_of_nonpos (by omega), zpow_neg, zpow_natCast]
    ring

theorem two_zpow_le_div_iff {num den : Nat} (hn : 0 < num) (hd : 0 < den) (z : ℤ) :
    den * 2 ^ z.toNat ≤ num * 2 ^ (-z).toNat ↔ (2 : ℚ) ^ z ≤ num / den := by
  have hn' : (0 : ℚ) < num := by exact_mod_cast hn
  have hd' : (0 : ℚ) < den := by exact_mod_cast hd
  have hpos : (0 : ℚ) < (num * 2 ^ (-z).toNat : Nat) := by exact_mod_cast Nat.mul_pos hn (by positivity)
  rw [← Nat.cast_le (α := ℚ), ← div_le_one hpos, div_scaled, div_mul_eq_mul_div, div_le_one hn', le_div_iff₀ hd',
    mul_comm]

/-- The quotient lies in the binade that `log2Floor` names. -/
theorem log2Floor_spec {num den : Nat} (hn : 0 < num) (hd : 0 < den) :
    (2 : ℚ) ^ log2Floor num den ≤ num / den ∧ (num / den : ℚ) < 2 ^ (log2Floor num den + 1) := by
  have hd' : (0 : ℚ) < den := by exact_mod_cast hd
  have hn1 : (2 : ℚ) ^ Nat.log2 num ≤ num := by exact_mod_cast Nat.log2_self_le hn.ne'
  have hn2 : (num : ℚ) < 2 ^ (Nat.log2 num + 1) := by exact_mod_cast Nat.lt_log2_self
  have hd1 : (2 : ℚ) ^ Nat.log2 den ≤ den := by exact_mod_cast Nat.log2_self_le hd.ne'
  have hd2 : (den : ℚ) < 2 ^ (Nat.log2 den + 1) := by exact_mod_cast Nat.lt_log2_self
  have hlo : (2 : ℚ) ^ ((Nat.log2 num : ℤ) - Nat.log2 den - 1) ≤ num / den := by
    rw [sub_sub, zpow_sub₀ (by norm_num), ← Nat.cast_add_one, zpow_natCast, zpow_natCast]
    exact div_le_div₀ (by positivity) hn1 hd' hd2.le
  have hhi : (num / den : ℚ) < 2 ^ ((Nat.log2 num : ℤ) - Nat.log2 den + 1) := by
    rw [sub_add_eq_add_sub, zpow_sub₀ (by norm_num), ← Nat.cast_add_one, zpow_natCast, zpow_natCast]
    exact div_lt_div₀ hn2 hd1 (by positivity) (by positivity)
  unfold log2Floor
  dsimp only
  split <;> rename_i hc <;> rw [two_zpow_le_div_iff hn hd] at hc
  · exact ⟨hc, hhi⟩
  · rw [sub_add_cancel]
    exact ⟨hlo, not_le.1 hc⟩

/-- The exponent of the unit that `roundMag` rounds to: that of the quotient's binade, or of the denormals. -/
def ulpExp (num den : Nat) (e : ℤ) : ℤ := max (log2Floor num den + e - 52) (-1074)

theorem roundMag_eq {num : Nat} (hn : num ≠ 0) (den : Nat) (e : ℤ) :
    roundMag num den e =
      min (roundDiv (num * 2 ^ (e - ulpExp num den e).toNat) (den * 2 ^ (-(e - ulpExp num den e)).toNat)
        + (ulpExp num den e + 1074).toNat * 2 ^ 52) (2047 * 2 ^ 52) := if_neg hn

/-- `roundMag` rounds in the binade of its argument, and stops at the infinity. -/
theorem roundMag_rounds {num den : Nat} (hn : 0 < num) (hd : 0 < den) (e : ℤ) :
    ∃ k q, Rounds (num / den * (2 : ℚ) ^ e) k q ∧ roundMag num den e = min (q + k * 2 ^ 52) (2047 * 2 ^ 52) := by
  obtain ⟨hlo, hhi⟩ := log2Floor_spec hn hd
  have h2 : (2 : ℚ) ≠ 0 := by norm_num
  have hu : ulp (ulpExp num den e + 1074).toNat = 2 ^ ulpExp num den e := by
    unfold ulp ulpExp
    congr 1
    omega
  refine ⟨(ulpExp num den e + 1074).toNat, _, rounds_roundDiv (Nat.mul_pos hd (by positivity)) ?_ ?_ ?_,
    roundMag_eq hn.ne' den e⟩ <;> rw [hu]
  · rw [div_scaled, mul_assoc, ← zpow_add₀ h2, sub_add_cancel]
  · calc (num / den : ℚ) * 2 ^ e < 2 ^ (log2Floor num den + 1) * 2 ^ e := by gcongr
      _ = 2 ^ (log2Floor num den + 1 + e) := (zpow_add₀ h2 _ _).symm
      _ ≤ 2 ^ (53 + ulpExp num den e) := zpow_le_zpow_right₀ (by norm_num) (by unfold ulpExp; omega)
      _ = 2 ^ 53 * 2 ^ ulpExp num den e := zpow_add₀ h2 53 _
  · by_cases hk : (ulpExp num den e + 1074).toNat = 0
    · exact .inl hk
    · refine .inr ?_
      calc (2 : ℚ) ^ 52 * 2 ^ ulpExp num den e = 2 ^ (52 + ulpExp num den e) := (zpow_add₀ h2 52 _).symm
        _ = 2 ^ (log2Floor num den + e) := by congr 1; unfold ulpExp at hk ⊢; omega
        _ = 2 ^ log2Floor num den * 2 ^ e := zpow_add₀ h2 _ _
        _ ≤ num / den * 2 ^ e := by gcongr

/-! ## Rounded patterns -/

theorem f64Value_f64Zero (neg : Bool) : f64Value (f64Zero neg) = 0 := by
  rw [f64Value_eq_magValue, f64Zero, f64OfMag_mag neg (by norm_num), magValue_of_lt (by norm_num)]
  simp

theorem roundsTo_f64Zero (neg : Bool) : RoundsTo 0 (f64Zero neg) := by
  have hinf : f64IsInf (f64Zero neg) = false := by cases neg <;> decide
  have hbig : (0 : ℚ) < 2 ^ 1024 - 2 ^ 970 := by
    rw [overflow_threshold]
    exact mul_pos (by norm_num) (ulp_pos _)
  refine ⟨by cases neg <;> decide, fun h => absurd rfl h, ?_, fun _ c _ => ?_⟩
  · rw [hinf, abs_zero]
    exact iff_of_false (by simp) (not_le.2 hbig)
  · rw [f64Value_f64Zero, sub_zero, sub_zero, abs_zero]
    exact ⟨abs_nonneg _, fun h hne => absurd (abs_eq_zero.1 h.symm) hne⟩

theorem signFactor_mul_self (neg : Bool) : signFactor neg * signFactor neg = 1 := by cases neg <;> simp [signFactor]

theorem abs_signFactor_mul (neg : Bool) (x : ℚ) : |signFactor neg * x| = |x| := by cases neg <;> simp [signFactor]

/-- The distance to a signed value, said of magnitudes. -/
theorem abs_sub_signFactor_mul (neg : Bool) (v x : ℚ) : |v - signFactor neg * x| = |signFactor neg * v - x| := by
  rw [← abs_signFactor_mul neg (v - _), mul_sub, ← mul_assoc, signFactor_mul_self, one_mul]

/-- The sign of a signed magnitude. -/
theorem decide_signFactor_mul_neg (neg : Bool) {x : ℚ} (hx : 0 < x) : decide (signFactor neg * x < 0) = neg := by
  cases neg
  · simp [signFactor, hx.le]
  · simp [signFactor, hx]

/-- A value with its sign changed or not is on the grid. -/
theorem onGrid_signFactor_mul_f64Value (k : Nat) (neg : Bool) (c : F64) : OnGrid k (signFactor neg * f64Value c) := by
  rw [f64Value_eq_magValue, ← mul_assoc]
  have h : signFactor neg * signFactor (f64Sign c) = 1 ∨ signFactor neg * signFactor (f64Sign c) = -1 := by
    cases neg <;> cases f64Sign c <;> simp [signFactor]
  obtain h | h := h <;> rw [h]
  · rw [one_mul]
    exact onGrid_magValue k _
  · rw [neg_one_mul]
    exact onGrid_neg_magValue k _

/-- A magnitude that is `x` rounded, and the infinity from the overflow on, makes the pattern of `x` rounded. -/
theorem Rounds.roundsTo {x : ℚ} {k q M : Nat} (h : Rounds x k q) (hx : 0 < x)
    (hM : M = min (q + k * 2 ^ 52) (2047 * 2 ^ 52)) (neg : Bool) :
    RoundsTo (signFactor neg * x) (f64OfMag neg M) := by
  have hlt : M < 2 ^ 63 := by omega
  have hsign := f64OfMag_sign neg hlt
  have hexp := f64OfMag_exp neg hlt
  have hman := f64OfMag_man neg hlt
  refine ⟨?_, fun _ => ?_, ?_, fun hfin c _ => ?_⟩
  · rw [f64IsNan, hexp, hman, Bool.and_eq_false_iff, beq_eq_false_iff_ne, bne_eq_false_iff_eq]
    omega
  · rw [hsign, decide_signFactor_mul_neg neg hx]
  · rw [abs_signFactor_mul, abs_of_pos hx, ← h.overflow_iff, f64IsInf, hexp, hman, Bool.and_eq_true, beq_iff_eq,
      beq_iff_eq]
    omega
  · rw [f64Finite, hexp] at hfin
    obtain rfl : M = q + k * 2 ^ 52 := by omega
    have hval : signFactor neg * f64Value (f64OfMag neg (q + k * 2 ^ 52)) = q * ulp k := by
      rw [f64Value_eq_magValue, hsign, f64OfMag_mag neg hlt, h.magValue_eq, ← mul_assoc, signFactor_mul_self, one_mul]
    obtain ⟨hnear, heven⟩ := h.nearest_onGrid (onGrid_signFactor_mul_f64Value k neg c)
    rw [abs_sub_signFactor_mul, abs_sub_signFactor_mul, hval, hman]
    refine ⟨hnear, fun he hne => ?_⟩
    have := heven he fun e => hne (mul_left_cancel₀ (left_ne_zero_of_mul_eq_one (signFactor_mul_self neg))
      (e.trans hval.symm))
    omega

/-- The one rounding of the default host is correct (R45). -/
theorem roundsTo_roundTo (neg : Bool) (num : Nat) {den : Nat} (hd : 0 < den) (e : ℤ) :
    RoundsTo (signFactor neg * (num / den * (2 : ℚ) ^ e)) (roundTo neg num den e) := by
  rcases Nat.eq_zero_or_pos num with rfl | hn
  · rw [Nat.cast_zero, zero_div, zero_mul, mul_zero]
    exact roundsTo_f64Zero neg
  · obtain ⟨k, q, h, hround⟩ := roundMag_rounds hn hd e
    have hn' : (0 : ℚ) < num := by exact_mod_cast hn
    have hd' : (0 : ℚ) < den := by exact_mod_cast hd
    exact h.roundsTo (by positivity) hround neg

/-! ## Negation -/

/-- Flipping bit 63 changes the sign alone. -/
theorem refNeg_mag (y : F64) : f64Mag (refNeg y) = f64Mag y := by
  rw [f64Mag, refNeg, BitVec.toNat_xor, Nat.xor_mod_two_pow]
  exact Nat.xor_zero _

theorem refNeg_sign (y : F64) : f64Sign (refNeg y) = !f64Sign y := by
  have h : (f64Sign (refNeg y)).toNat = (f64Sign y).toNat ^^^ 1 := by
    rw [f64Sign_toNat, f64Sign_toNat, refNeg, BitVec.toNat_xor, Nat.xor_div_two_pow]
    rfl
  cases hs : f64Sign y <;> cases hn : f64Sign (refNeg y) <;> simp [hs, hn] at h ⊢

theorem signFactor_not (neg : Bool) : signFactor (!neg) = -signFactor neg := by cases neg <;> simp [signFactor]

theorem f64Value_refNeg (y : F64) : f64Value (refNeg y) = -f64Value y := by
  rw [f64Value_eq_magValue, f64Value_eq_magValue, refNeg_sign, refNeg_mag, signFactor_not, neg_mul]

theorem f64Finite_refNeg {y : F64} (h : f64Finite y) : f64Finite (refNeg y) := by
  rw [f64Finite, ← f64Mag_div, refNeg_mag, f64Mag_div]
  exact h

/-! ## The four operations -/

theorem f64IsNan_of_finite {x : F64} (h : f64Finite x) : f64IsNan x = false := by
  rw [f64IsNan, beq_eq_false_iff_ne.2 h, Bool.false_and]

theorem f64IsInf_of_finite {x : F64} (h : f64Finite x) : f64IsInf x = false := by
  rw [f64IsInf, beq_eq_false_iff_ne.2 h, Bool.false_and]

theorem f64Dyadic_neg (b : F64) : (f64Dyadic b).neg = f64Sign b := by
  unfold f64Dyadic
  split <;> rfl

/-- The significand of a value is 0 only for a zero. -/
theorem f64Dyadic_man_pos {b : F64} (h : f64IsZero b = false) : 0 < (f64Dyadic b).man := by
  rw [f64IsZero, beq_eq_false_iff_ne, f64Mag_eq] at h
  unfold f64Dyadic
  split
  · dsimp only
    omega
  · dsimp only
    omega

/-- The value of a dyadic; `f64Value` is that of a pattern's. -/
def Dyadic.value (d : Dyadic) : ℚ := signFactor d.neg * d.man * (2 : ℚ) ^ d.exp

/-- A value is its number of units times the unit. -/
theorem Dyadic.value_eq_units (d : Dyadic) {e : ℤ} (h : e ≤ d.exp) : d.value = d.units e * (2 : ℚ) ^ e := by
  have hpow : (2 : ℚ) ^ d.exp = 2 ^ (d.exp - e).toNat * 2 ^ e := by
    rw [← zpow_natCast, Int.toNat_of_nonneg (by omega), ← zpow_add₀ (by norm_num), sub_add_cancel]
  rw [Dyadic.value, Dyadic.units, hpow, signFactor]
  split <;> push_cast <;> ring

/-- An integer as a sign and a magnitude. -/
theorem signFactor_mul_natAbs (t : ℤ) : signFactor (decide (t < 0)) * t.natAbs = (t : ℚ) := by
  rw [Nat.cast_natAbs, signFactor]
  split <;> rename_i h
  · rw [abs_of_neg (by simpa using h)]
    push_cast
    ring
  · rw [abs_of_nonneg (by simpa using h), one_mul]

theorem roundsTo_addFinite (a b : Dyadic) : RoundsTo (a.value + b.value) (addFinite a b) := by
  have hsum : a.value + b.value =
      ((a.units (min a.exp b.exp) + b.units (min a.exp b.exp) : ℤ) : ℚ) * 2 ^ min a.exp b.exp := by
    rw [a.value_eq_units (min_le_left _ _), b.value_eq_units (min_le_right _ _)]
    push_cast
    ring
  rw [hsum, addFinite]
  generalize a.units _ + b.units _ = t
  split <;> rename_i ht
  · rw [ht, Int.cast_zero, zero_mul]
    exact roundsTo_f64Zero _
  · have h := roundsTo_roundTo (decide (t < 0)) t.natAbs one_pos (min a.exp b.exp)
    rwa [Nat.cast_one, div_one, ← mul_assoc, signFactor_mul_natAbs] at h

/-- The sign of a product or a quotient. -/
theorem signFactor_bne (p q : Bool) : signFactor (p != q) = signFactor p * signFactor q := by
  cases p <;> cases q <;> simp [signFactor]

theorem inv_signFactor (p : Bool) : (signFactor p)⁻¹ = signFactor p := by cases p <;> simp [signFactor]

section
variable {x y : F64} (hx : f64Finite x) (hy : f64Finite y)
include hx hy

theorem refAdd_of_finite : refAdd x y = addFinite (f64Dyadic x) (f64Dyadic y) := by
  simp [refAdd, f64IsNan_of_finite, f64IsInf_of_finite, hx, hy]

theorem refMul_of_finite : refMul x y = roundTo (f64Sign x != f64Sign y) ((f64Dyadic x).man * (f64Dyadic y).man) 1
    ((f64Dyadic x).exp + (f64Dyadic y).exp) := by
  simp [refMul, f64IsNan_of_finite, f64IsInf_of_finite, hx, hy]

theorem refDiv_of_finite (hz : f64IsZero y = false) : refDiv x y =
    roundTo (f64Sign x != f64Sign y) (f64Dyadic x).man (f64Dyadic y).man ((f64Dyadic x).exp - (f64Dyadic y).exp) := by
  simp [refDiv, f64IsNan_of_finite, f64IsInf_of_finite, hx, hy, hz]

theorem roundsTo_refAdd : RoundsTo (f64Value x + f64Value y) (refAdd x y) := by
  rw [refAdd_of_finite hx hy]
  exact roundsTo_addFinite (f64Dyadic x) (f64Dyadic y)

theorem roundsTo_refMul : RoundsTo (f64Value x * f64Value y) (refMul x y) := by
  have hvalue : f64Value x * f64Value y = signFactor (f64Sign x != f64Sign y) *
      (((f64Dyadic x).man * (f64Dyadic y).man : Nat) / (1 : Nat) * 2 ^ ((f64Dyadic x).exp + (f64Dyadic y).exp)) := by
    rw [f64Value, f64Value, f64Dyadic_neg, f64Dyadic_neg, signFactor_bne, zpow_add₀ (by norm_num)]
    push_cast
    ring
  rw [refMul_of_finite hx hy, hvalue]
  exact roundsTo_roundTo _ _ one_pos _

theorem roundsTo_refDiv (hz : f64IsZero y = false) : RoundsTo (f64Value x / f64Value y) (refDiv x y) := by
  have hvalue : f64Value x / f64Value y = signFactor (f64Sign x != f64Sign y) *
      ((f64Dyadic x).man / (f64Dyadic y).man * 2 ^ ((f64Dyadic x).exp - (f64Dyadic y).exp)) := by
    rw [f64Value, f64Value, f64Dyadic_neg, f64Dyadic_neg, signFactor_bne, zpow_sub₀ (by norm_num), div_eq_mul_inv,
      mul_inv, mul_inv, inv_signFactor]
    ring
  rw [refDiv_of_finite hx hy hz, hvalue]
  exact roundsTo_roundTo _ _ (f64Dyadic_man_pos hz) _

end

/-- Settles O58: each operation rounds once, and its one rounding is correct (`roundsTo_roundTo`). -/
theorem defaultHostRounds : Obligations.DefaultHostRounds := by
  intro x y hx hy
  refine ⟨roundsTo_refAdd hx hy, ?_, roundsTo_refMul hx hy, roundsTo_refDiv hx hy⟩
  rw [sub_eq_add_neg, ← f64Value_refNeg]
  exact roundsTo_refAdd hx (f64Finite_refNeg hy)

end Sys2Proof.Machine
end

section
/-! PROOFS. The claims of 20_memory.md: which commands touch `MEM` (R61), what the byte commands store and load
(R62 to R65), and the reinterpretation of a float's bytes (R66). -/

namespace Sys2Proof.Machine

/-! ## Two runs from states with the same registers and the same port -/

/-- The states hold the same registers and the same operand on the port, and `R` relates their faults. -/
structure Coupled (R : Result → Result → Prop) (s s' : State) : Prop where
  reg : ∀ i, s'.reg i = s.reg i
  hostIn : s'.hostIn = s.hostIn
  raise : ∀ f, R (raise s f) (raise s' f)

section
variable {R : Result → Result → Prop} {s s' : State} (h : Coupled R s s')
include h

theorem Coupled.withInt {i : RegIdx} {k k' : IntC → Result} (hk : ∀ a, R (k a) (k' a)) :
    R (withInt s i k) (withInt s' i k') := by
  unfold Machine.withInt
  rw [h.reg]
  split
  · exact h.raise _
  · exact h.raise _
  · exact hk _

theorem Coupled.withFlt {i : RegIdx} {k k' : FltC → Result} (hk : ∀ x, R (k x) (k' x)) :
    R (withFlt s i k) (withFlt s' i k') := by
  unfold Machine.withFlt
  rw [h.reg]
  split
  · exact h.raise _
  · exact h.raise _
  · exact hk _

theorem Coupled.withInt2 {i j : RegIdx} {k k' : IntC → IntC → Result} (hk : ∀ a b, R (k a b) (k' a b)) :
    R (withInt2 s i j k) (withInt2 s' i j k') := by
  unfold Machine.withInt2
  rw [h.reg, h.reg]
  split
  · exact h.raise _
  · exact h.raise _
  · exact hk _ _
  · exact h.raise _

theorem Coupled.withFlt2 {i j : RegIdx} {k k' : FltC → FltC → Result} (hk : ∀ x y, R (k x y) (k' x y)) :
    R (withFlt2 s i j k) (withFlt2 s' i j k') := by
  unfold Machine.withFlt2
  rw [h.reg, h.reg]
  split
  · exact h.raise _
  · exact h.raise _
  · exact hk _ _
  · exact h.raise _

theorem Coupled.withHostInt {k k' : Int → Result} (hk : ∀ x, R (k x) (k' x)) :
    R (withHostInt s k) (withHostInt s' k') := by
  unfold Machine.withHostInt
  rw [h.hostIn]
  split
  · exact hk _
  · exact h.raise _
  · exact h.raise _

theorem Coupled.withHostF64 {k k' : F64 → Result} (hk : ∀ b, R (k b) (k' b)) :
    R (withHostF64 s k) (withHostF64 s' k') := by
  unfold Machine.withHostF64
  rw [h.hostIn]
  split
  · exact hk _
  · exact h.raise _
  · exact h.raise _

/-- A command that goes on under a condition of its own, and faults otherwise. -/
theorem Coupled.guard {c : Prop} [Decidable c] {r r' : Result} {f : Status} (hr : R r r') :
    R (if c then r else Machine.raise s f) (if c then r' else Machine.raise s' f) := by
  split
  · exact hr
  · exact h.raise _

end

/-! ## Other contents of MEM (R61) -/

/-- The state with other contents of `MEM`. -/
def State.setMem (s : State) (m : Memory) : State := { s with mem := m }

/-- `r'` is `r` with the contents `m` of `MEM`. -/
def WithMem (m : Memory) (r r' : Result) : Prop := ∀ t, r = .next t → r' = .next (t.setMem m)

/-- `r'` is `r` with some contents of `MEM`. -/
def SameButMem (r r' : Result) : Prop := ∃ m, WithMem m r r'

section
variable {s : State} {m : Memory}

theorem withMem_next {t u : State} (h : t.setMem m = u) : WithMem m (.next t) (.next u) := by
  rintro _ ⟨⟩
  rw [h]

theorem coupled_withMem : Coupled (WithMem m) s (s.setMem m) := ⟨fun _ => rfl, rfl, fun _ => withMem_next rfl⟩

theorem coupled_sameButMem : Coupled SameButMem s (s.setMem m) :=
  ⟨fun _ => rfl, rfl, fun _ => ⟨m, withMem_next rfl⟩⟩

theorem intCopy_withMem (f : IntC → IntC → Except Status IntC) (rd rs1 rs2 : RegIdx) :
    WithMem m (intCopy f rd rs1 rs2 s) (intCopy f rd rs1 rs2 (s.setMem m)) :=
  coupled_withMem.withInt2 fun a b => by cases f a b <;> exact withMem_next rfl

theorem intInPlace_withMem (f : IntC → IntC → Except Status IntC) (rs1 rs2 : RegIdx) :
    WithMem m (intInPlace f rs1 rs2 s) (intInPlace f rs1 rs2 (s.setMem m)) :=
  coupled_withMem.withInt2 fun a b => by cases f a b <;> exact withMem_next rfl

theorem fltCopy_withMem (f : F64 → F64 → Except Status F64) (rd rs1 rs2 : RegIdx) :
    WithMem m (fltCopy f rd rs1 rs2 s) (fltCopy f rd rs1 rs2 (s.setMem m)) :=
  coupled_withMem.withFlt2 fun x y => by cases f (fdec x) (fdec y) <;> exact withMem_next rfl

theorem fltInPlace_withMem (f : F64 → F64 → Except Status F64) (rs1 rs2 : RegIdx) :
    WithMem m (fltInPlace f rs1 rs2 s) (fltInPlace f rs1 rs2 (s.setMem m)) :=
  coupled_withMem.withFlt2 fun x y => by cases f (fdec x) (fdec y) <;> exact withMem_next rfl

theorem storePattern_sameButMem (P w addr : Nat) (bo : ByteOrder) :
    SameButMem (storePattern s P w addr bo) (storePattern (s.setMem m) P w addr bo) :=
  coupled_sameButMem.guard ⟨_, withMem_next rfl⟩

end

/-- A command that is none of the four byte commands carries `MEM` along, whatever it holds. -/
theorem exec_withMem {i : Instr} (hi : i.opcode ∉ [.itob, .ftob, .ifromb, .ffromb]) (s : State) (m : Memory) :
    WithMem m (exec i s) (exec i (s.setMem m)) := by
  have h : Coupled (WithMem m) s (s.setMem m) := coupled_withMem
  cases i
  case itob | ftob | ifromb | ffromb => exact absurd hi (by simp [Instr.opcode])
  case inew => exact h.withHostInt fun _ => h.guard (withMem_next rfl)
  case iset => exact h.withHostInt fun _ => h.withInt fun _ => withMem_next rfl
  case fnew => exact h.withHostF64 fun _ => h.guard (withMem_next rfl)
  case fset => exact h.withHostF64 fun _ => h.withFlt fun _ => withMem_next rfl
  case ineg | iabs | inot | iread | imin | imax => exact h.withInt fun _ => withMem_next rfl
  case icvt | ibit | islice => exact h.withInt fun _ => h.guard (withMem_next rfl)
  case ieq | ine | ilt | ile | igt | ige => exact h.withInt2 fun _ _ => withMem_next rfl
  case iadd | isub | imul | idiv | ifdiv | imod | ipow | iand | ior | ixor | ishl | ishr =>
    rw [exec]; exact intCopy_withMem _ _ _ _
  case iaddIp | isubIp | imulIp | idivIp | ifdivIp | imodIp | ipowIp | iandIp | iorIp | ixorIp | ishlIp | ishrIp =>
    rw [exec]; exact intInPlace_withMem _ _ _
  case fneg | fabs | fpos | fread => exact h.withFlt fun _ => withMem_next rfl
  case feq | fne | flt | fle | fgt | fge => exact h.withFlt2 fun _ _ => withMem_next rfl
  case fadd | fsub | fmul | fdiv | ffdiv | fmod | fpow => rw [exec]; exact fltCopy_withMem _ _ _ _
  case faddIp | fsubIp | fmulIp | fdivIp | ffdivIp | fmodIp | fpowIp => rw [exec]; exact fltInPlace_withMem _ _ _

/-- What `r` ends in has the contents of `MEM` that `s` has. -/
def KeepsMem (s : State) (r : Result) : Prop := ∀ t, r = .next t → t.mem = s.mem

section
variable {s : State}

theorem keepsMem_raise (f : Status) : KeepsMem s (raise s f) := fun t h => by rw [raise_eq_next.1 h, respond_mem]

theorem keepsMem_complete {u : State} (hu : u.mem = s.mem) (out : Option Out) : KeepsMem s (complete u out) :=
  fun t h => by rw [complete_eq_next.1 h, respond_mem, hu]

theorem keepsMem_guard {c : Prop} [Decidable c] {r : Result} {f : Status} (hr : KeepsMem s r) :
    KeepsMem s (if c then r else raise s f) := by
  split
  · exact hr
  · exact keepsMem_raise f

theorem keepsMem_loadPattern {w addr : Nat} {bo : ByteOrder} {k : Nat → Result} (hk : ∀ U, KeepsMem s (k U)) :
    KeepsMem s (loadPattern s w addr bo k) := keepsMem_guard (hk _)

/-- A result that carries along the contents that `s` has keeps them. -/
theorem keepsMem_of_withMem {r : Result} (hr : WithMem s.mem r r) : KeepsMem s r := by
  intro t h
  have ht : t = t.setMem s.mem := Host.Outcome.next.inj (h.symm.trans (hr t h))
  rw [ht]
  rfl

end

/-- Only the two stores write `MEM`: the loads keep it, and any other command carries along the contents it finds
(`exec_withMem` at those contents). -/
theorem exec_keepsMem {i : Instr} (hi : i.opcode ≠ .itob) (hf : i.opcode ≠ .ftob) (s : State) :
    KeepsMem s (exec i s) := by
  cases i
  case itob => exact absurd rfl hi
  case ftob => exact absurd rfl hf
  case ifromb => exact keepsMem_guard (keepsMem_loadPattern fun _ => keepsMem_complete rfl none)
  case ffromb => exact keepsMem_guard (keepsMem_loadPattern fun _ => keepsMem_complete rfl none)
  all_goals exact keepsMem_of_withMem (exec_withMem (by simp [Instr.opcode]) s s.mem)

/-- Only the two loads depend on `MEM`. -/
theorem exec_sameButMem {i : Instr} (hi : i.opcode ≠ .ifromb) (hf : i.opcode ≠ .ffromb) (s : State) (m : Memory) :
    SameButMem (exec i s) (exec i (s.setMem m)) := by
  cases i
  case ifromb => exact absurd rfl hi
  case ffromb => exact absurd rfl hf
  case itob => exact coupled_sameButMem.withInt fun _ => storePattern_sameButMem _ _ _ _
  case ftob => exact coupled_sameButMem.withFlt fun _ => storePattern_sameButMem _ _ _ _
  all_goals exact ⟨m, exec_withMem (by simp [Instr.opcode]) s m⟩

/-- Settles O16: by `exec_keepsMem` and `exec_sameButMem`. -/
theorem memOnlyByByteCommands : Obligations.MemOnlyByByteCommands := by
  refine ⟨fun i s t hi hf h => exec_keepsMem hi hf s t h, fun i s t m hi hf h => ?_⟩
  obtain ⟨m', hm'⟩ := exec_sameButMem hi hf s m
  exact ⟨t.setMem m', hm' t h, fun _ => rfl, rfl, rfl, rfl, rfl⟩

/-! ## Stores (R63 to R65, R68) -/

/-- A list whose entries below `k` are those of `f`, and which ends there. -/
theorem eq_map_range {α : Type} {l : List α} {k : Nat} {f : Nat → α}
    (h : ∀ j, l[j]? = if j < k then some (f j) else none) : l = (List.range k).map f := by
  apply List.ext_getElem?
  intro j
  rw [h]
  split <;> rename_i hj <;> simp [hj]

theorem two_pow_eight_mul (j : Nat) : 2 ^ (8 * j) = 256 ^ j := pow_mul 2 8 j

theorem bytesOf_little (P k : Nat) :
    bytesOf P k .little = (List.range k).map fun j => BitVec.ofNat 8 (P / 2 ^ (8 * j)) :=
  eq_map_range fun j => by simp only [bytesOf_getElem?, two_pow_eight_mul]

theorem bytesOf_big (P k : Nat) :
    bytesOf P k .big = (List.range k).map fun j => BitVec.ofNat 8 (P / 2 ^ (8 * (k - 1 - j))) :=
  eq_map_range fun j => by simp only [bytesOf_getElem?, two_pow_eight_mul]

theorem exec_itob {s : State} {rs1 : RegIdx} {a : IntC} (h : s.reg rs1 = .int a) (bo : ByteOrder) (addr : Nat) :
    exec (.itob rs1 bo addr) s = storePattern s a.pattern a.n addr bo := withInt_int h

theorem exec_ftob {s : State} {rs1 : RegIdx} {x : FltC} (h : s.reg rs1 = .flt x) (bo : ByteOrder) (addr : Nat) :
    exec (.ftob rs1 bo addr) s = storePattern s x.pattern x.width addr bo := withFlt_flt h

/-- What a store command does, in each order: the bytes of its pattern, or BufferRange. -/
theorem stores_or_bufferRange {i : ByteOrder → Instr} {s : State} {P w addr : Nat} (hm : s.mem.wf = true)
    (h : ∀ bo, exec (i bo) s = storePattern s P w addr bo) :
    (addr + byteLen w ≤ memSize →
      Stores (i .big) s addr
        ((List.range (byteLen w)).map fun j => BitVec.ofNat 8 (P / 2 ^ (8 * (byteLen w - 1 - j)))) ∧
      Stores (i .little) s addr ((List.range (byteLen w)).map fun j => BitVec.ofNat 8 (P / 2 ^ (8 * j)))) ∧
    (memSize < addr + byteLen w → ∀ bo, TakesFault (i bo) s .bufferRange) := by
  refine ⟨fun hr => ⟨?_, ?_⟩, fun hr bo => takesFault_of_storePattern hr (h bo)⟩
  · rw [← bytesOf_big]
    exact stores_of_storePattern hm hr (h .big)
  · rw [← bytesOf_little]
    exact stores_of_storePattern hm hr (h .little)

/-- Settles O36: ITOB stores the pattern of its operand. -/
theorem storeInt : Obligations.StoreInt := by
  intro rs1 addr a s hm ha
  exact stores_or_bufferRange (i := fun bo => .itob rs1 bo addr) hm fun bo => exec_itob ha bo addr

/-- Settles O37: FTOB stores the pattern of its operand. -/
theorem storeFlt : Obligations.StoreFlt := by
  intro rs1 addr x s hm hx
  exact stores_or_bufferRange (i := fun bo => .ftob rs1 bo addr) hm fun bo => exec_ftob hx bo addr

/-! ## Loads (R62, R64, R65) -/

theorem leNat_append_singleton (bs : List Byte) (b : Byte) :
    leNat (bs ++ [b]) = leNat bs + b.toNat * 256 ^ bs.length := by
  induction bs with
  | nil => simp [leNat]
  | cons c bs ih =>
    simp only [List.cons_append, leNat, ih, List.length_cons, pow_succ]
    ring

/-- The number of the bytes in little-endian order: the byte at the lowest address counts least (R65). -/
theorem integerOf_little (m : Memory) (addr k : Nat) :
    integerOf (memReadBytes m addr k) .little =
      ∑ j ∈ Finset.range k, (memRead m (addr + j)).toNat * 256 ^ j := by
  rw [integerOf]
  induction k generalizing addr with
  | zero => rfl
  | succ k ih =>
    rw [memReadBytes, leNat, ih, Finset.sum_range_succ', Finset.mul_sum, Nat.add_comm]
    congr 1
    · refine Finset.sum_congr rfl fun j _ => ?_
      rw [Nat.add_assoc, Nat.add_comm 1 j, pow_succ]
      ring
    · simp

/-- The number of the bytes in big-endian order: the byte at the highest address counts least (R65). -/
theorem integerOf_big (m : Memory) (addr k : Nat) :
    integerOf (memReadBytes m addr k) .big =
      ∑ j ∈ Finset.range k, (memRead m (addr + j)).toNat * 256 ^ (k - 1 - j) := by
  rw [integerOf]
  induction k generalizing addr with
  | zero => rfl
  | succ k ih =>
    rw [memReadBytes, List.reverse_cons, leNat_append_singleton, ih, List.length_reverse, memReadBytes_length,
      Finset.sum_range_succ']
    congr 1
    refine Finset.sum_congr rfl fun j _ => ?_
    rw [Nat.add_assoc, Nat.add_comm 1 j, show k + 1 - 1 - (j + 1) = k - 1 - j by omega]

section
variable {s : State} {rd : RegIdx} {sg : Bool} {bo : ByteOrder} {w ew mw addr : Nat}

theorem exec_ifromb (hw : 1 ≤ w) :
    exec (.ifromb rd sg bo w addr) s = loadPattern s w addr bo fun U => writeInt s rd (mkInt w sg U) :=
  if_pos ((widthOk_iff w).2 hw)

theorem exec_ffromb (hw : floatWidthsOk ew mw = true) :
    exec (.ffromb rd bo ew mw addr) s =
      loadPattern s (1 + ew + mw) addr bo fun U => writeFlt s rd (fltOfPattern ew mw U) :=
  if_pos hw

theorem writes_ifromb (hw : 1 ≤ w) (hr : addr + byteLen w ≤ memSize) :
    Writes (.ifromb rd sg bo w addr) s rd
      (.int (mkInt w sg (integerOf (memReadBytes s.mem addr (byteLen w)) bo))) :=
  writes_of_writeInt ((exec_ifromb hw).trans (loadPattern_in hr bo _))

theorem writes_ffromb (hw : floatWidthsOk ew mw = true) (hr : addr + byteLen (1 + ew + mw) ≤ memSize) :
    Writes (.ffromb rd bo ew mw addr) s rd
      (.flt (fltOfPattern ew mw (integerOf (memReadBytes s.mem addr (byteLen (1 + ew + mw))) bo))) :=
  writes_of_writeFlt ((exec_ffromb hw).trans (loadPattern_in hr bo _))

end

/-- Settles O38: the loaded number is the sum over the bytes (`integerOf_big`, `integerOf_little`). -/
theorem loadInt : Obligations.LoadInt := by
  intro rd sg w addr s k big little
  have hbig : integerOf (memReadBytes s.mem addr k) .big = big := integerOf_big s.mem addr k
  have hlittle : integerOf (memReadBytes s.mem addr k) .little = little := integerOf_little s.mem addr k
  refine ⟨fun hw hr => ?_, fun bo => takesFault_of_raise rfl, fun hw hr bo =>
    takesFault_of_raise ((exec_ifromb hw).trans (loadPattern_out hr bo _))⟩
  rw [← hbig, ← hlittle]
  exact ⟨writes_ifromb hw hr, writes_ifromb hw hr⟩

/-- The fields of the low `1 + e + m` bits, as quotients and remainders (45_fp_pack_unpack.md R312). -/
theorem fltOfPattern_eq {e m : Nat} (he : 1 ≤ e) (hm : 1 ≤ m) (U : Nat) :
    fltOfPattern e m U = ⟨e, m, U.testBit (e + m), U / 2 ^ m % 2 ^ e, U % 2 ^ m⟩ := by
  rw [fltOfPattern, slice_self_beq_one, slice, slice, show e + m - 1 + 1 - m = e by omega,
    show m - 1 + 1 - 0 = m by omega, pow_zero, Nat.div_one]

/-- Settles O39: the loaded number is the sum over the bytes, and the container is cut from it
(`fltOfPattern_eq`). -/
theorem loadFlt : Obligations.LoadFlt := by
  intro rd ew mw addr s k big little flt widths
  have hok : floatWidthsOk ew mw = true ↔ widths := floatWidthsOk_iff ew mw
  have hbig : integerOf (memReadBytes s.mem addr k) .big = big := integerOf_big s.mem addr k
  have hlittle : integerOf (memReadBytes s.mem addr k) .little = little := integerOf_little s.mem addr k
  refine ⟨fun hw hr => ?_, fun hw bo => takesFault_of_raise (if_neg fun h => hw (hok.1 h)), fun hw hr bo =>
    takesFault_of_raise ((exec_ffromb (hok.2 hw)).trans (loadPattern_out hr bo _))⟩
  have hflt (U : Nat) : flt U = .flt (fltOfPattern ew mw U) := by
    obtain ⟨he, -, hm, -⟩ := hw
    rw [fltOfPattern_eq he hm]
  rw [hflt, hflt, ← hbig, ← hlittle]
  exact ⟨writes_ffromb (hok.2 hw) hr, writes_ffromb (hok.2 hw) hr⟩

/-! ## A store, then a load (R66) -/

/-- After the store of a pattern that fits, the load of the same width, place and order gets the pattern. -/
theorem store_then_load {s : State} {P w addr : Nat} (hm : s.mem.wf = true) (hP : P < 2 ^ w)
    (hr : addr + byteLen w ≤ memSize) (bo : ByteOrder) :
    ∃ t, storePattern s P w addr bo = .next t ∧ t.mem.wf = true ∧
      ∀ k, loadPattern t w addr bo k = k P := by
  refine ⟨_, if_pos (by simpa [inRange] using hr), memWriteBytes_wf hm _ (by simpa using hr), fun k => ?_⟩
  rw [loadPattern_in hr, respond_mem, integerOf_stored hm hP hr]

/-- The mantissa field is the low `m` bits of the pattern, below the exponent field and the sign. -/
theorem FltC.pattern_eq (x : FltC) : x.pattern = x.M + (x.sg.toNat * 2 ^ x.e + x.E) * 2 ^ x.m := by
  rw [FltC.pattern, pow_add]
  ring

section
variable {x : FltC} (h : x.wf = true)
include h

theorem FltC.pattern_lt : x.pattern < 2 ^ x.width := by
  obtain ⟨-, -, -, -, hE, hM⟩ := (FltC.wf_iff x).1 h
  have hhigh : x.sg.toNat * 2 ^ x.e + x.E + 1 ≤ 2 ^ (1 + x.e) := by
    have : x.sg.toNat * 2 ^ x.e ≤ 1 * 2 ^ x.e := Nat.mul_le_mul_right _ x.sg.toNat_le
    rw [pow_add]
    omega
  calc x.pattern < (x.sg.toNat * 2 ^ x.e + x.E + 1) * 2 ^ x.m := by rw [FltC.pattern_eq, Nat.add_one_mul]; omega
    _ ≤ 2 ^ (1 + x.e) * 2 ^ x.m := Nat.mul_le_mul_right _ hhigh
    _ = 2 ^ x.width := (pow_add 2 _ _).symm

/-- The container cut from a container's pattern is the container (45_fp_pack_unpack.md R313). -/
theorem fltOfPattern_pattern : fltOfPattern x.e x.m x.pattern = x := by
  obtain ⟨he, -, hm, -, hE, hM⟩ := (FltC.wf_iff x).1 h
  have hlow : x.pattern % 2 ^ x.m = x.M := by
    rw [FltC.pattern_eq, Nat.add_mul_mod_self_right, Nat.mod_eq_of_lt hM]
  have hhigh : x.pattern / 2 ^ x.m = 2 ^ x.e * x.sg.toNat + x.E := by
    rw [FltC.pattern_eq, Nat.add_mul_div_right _ _ (by positivity), Nat.div_eq_of_lt hM, Nat.zero_add, Nat.mul_comm]
  have hsign : x.pattern.testBit (x.e + x.m) = x.sg := by
    rw [← Nat.testBit_div_two_pow, hhigh, Nat.testBit_two_pow_mul_add _ hE, if_neg (by omega), Nat.sub_self]
    cases x.sg <;> rfl
  rw [fltOfPattern_eq he hm, hsign, hhigh, hlow, Nat.mul_add_mod, Nat.mod_eq_of_lt hE]

end

section
variable {n P : Nat} (h : P < 2 ^ n)
include h

/-- A number that fits the unsigned shape is the value of the container made of it, and its pattern. -/
theorem mkInt_unsigned : mkInt n false P = ⟨n, false, P⟩ := by
  rw [mkInt, mask_eq_self_unsigned (Int.natCast_nonneg P) (by exact_mod_cast h)]

theorem pattern_unsigned : IntC.pattern ⟨n, false, P⟩ = P := by
  have hP : (P : Int) < 2 ^ n := by exact_mod_cast h
  rw [IntC.pattern, zext, Int.emod_eq_of_lt (Int.natCast_nonneg P) hP, Int.toNat_natCast]

end

/-- Settles O41: the two stores write the same pattern, each load gets it back (`store_then_load`), and the
container is cut from it (`fltOfPattern_pattern`). -/
theorem reinterpretation : Obligations.Reinterpretation := by
  intro rd re rs1 bo addr x s hs hx w hr
  have hwf : x.wf = true := Inv.flt hs hx
  have hP : x.pattern < 2 ^ w := FltC.pattern_lt hwf
  obtain ⟨t, ht, htm, hloadt⟩ := store_then_load hs.2 hP hr bo
  let u := (t.setReg rd (.int ⟨w, false, x.pattern⟩)).respond .ok none
  have hu : exec (.ifromb rd false bo w addr) t = .next u := by
    rw [exec_ifromb (by omega), hloadt, mkInt_unsigned hP]
    rfl
  have hureg : u.reg rd = .int ⟨w, false, x.pattern⟩ := setReg_reg_self t rd _
  obtain ⟨v, hv, -, hloadv⟩ := store_then_load (s := u) htm hP hr bo
  have hvu : exec (.itob rd bo addr) u = .next v := by
    rw [exec_itob hureg, pattern_unsigned hP, hv]
  have hz : exec (.ffromb re bo x.e x.m addr) v = writeFlt v re x := by
    rw [exec_ffromb (widths_of_wf hwf), hloadv, fltOfPattern_pattern hwf]
  exact ⟨t, u, v, _, (exec_ftob hx bo addr).trans ht, hu, hureg, hvu, hz, reg_of_writeFlt rfl⟩

end Sys2Proof.Machine
end

section
/-! PROOFS. Commands and words by their field values (30_encoding.md R91): a command's word is the word of its
fields, a word is its fields, and the reserved bits of a format are the fields it does not use. -/

namespace Sys2Proof

/-- The values of a word's fields at the places of R91. A format leaves the fields it does not use at 0 (R92). -/
structure WordFields where
  op : Opcode
  rd : RegIdx := 0
  rs1 : RegIdx := 0
  rs2 : RegIdx := 0
  ip : Bool := false
  sg : Bool := false
  bo : ByteOrder := .big
  ew : Nat := 0
  mw : Nat := 0
  x : Nat := 0
  y : Nat := 0

/-- The word of the field values. -/
def WordFields.word (f : WordFields) : Word :=
  pack f.op.number f.rd f.rs1 f.rs2 f.ip.toNat f.sg.toNat f.bo.bit f.ew f.mw f.x f.y

/-- Every value fits its place (R106). -/
def WordFields.fits (f : WordFields) : Bool := fitsWidths f.ew f.mw && fitsX f.x && fitsY f.y

/-- The fields that a word holds, with the opcode `op`. -/
def Opcode.fieldsIn (op : Opcode) (w : Word) : WordFields :=
  ⟨op, fRd w, fRs1 w, fRs2 w, fIp w, fSg w, fBo w, fEw w, fMw w, fX w, fY w⟩

/-- The fields that a format uses, every other one at 0 (R93 to R105). -/
def Format.used : Format → WordFields → WordFields
  | .R, f => { op := f.op, rd := f.rd, rs1 := f.rs1, rs2 := f.rs2, ip := f.ip }
  | .U, f => { op := f.op, rd := f.rd, rs1 := f.rs1 }
  | .C, f => { op := f.op, rs1 := f.rs1, rs2 := f.rs2 }
  | .N, f => { op := f.op, rd := f.rd, sg := f.sg, x := f.x }
  | .X, f => { op := f.op, rd := f.rd, rs1 := f.rs1, sg := f.sg, x := f.x }
  | .S, f => { op := f.op, rd := f.rd }
  | .B, f => { op := f.op, rs1 := f.rs1, x := f.x }
  | .L, f => { op := f.op, rd := f.rd, rs1 := f.rs1, x := f.x, y := f.y }
  | .Q, f => { op := f.op, rs1 := f.rs1 }
  | .MS, f => { op := f.op, rs1 := f.rs1, bo := f.bo, y := f.y }
  | .MLI, f => { op := f.op, rd := f.rd, sg := f.sg, bo := f.bo, x := f.x, y := f.y }
  | .FN, f => { op := f.op, rd := f.rd, ew := f.ew, mw := f.mw }
  | .MLF, f => { op := f.op, rd := f.rd, bo := f.bo, ew := f.ew, mw := f.mw, y := f.y }

/-- The field values of a command; an in-place row has its receiver in RD and in RS1 (R93). -/
def Instr.fields (i : Instr) : WordFields :=
  match i with
  | .inew rd sg w => { op := i.opcode, rd, sg, x := w }
  | .icvt rd rs1 sg w => { op := i.opcode, rd, rs1, sg, x := w }
  | .iset rd | .fset rd => { op := i.opcode, rd }
  | .ineg rd rs1 | .iabs rd rs1 | .inot rd rs1 | .fneg rd rs1 | .fabs rd rs1 | .fpos rd rs1 =>
    { op := i.opcode, rd, rs1 }
  | .iadd rd rs1 rs2 | .isub rd rs1 rs2 | .imul rd rs1 rs2 | .idiv rd rs1 rs2 | .ifdiv rd rs1 rs2
  | .imod rd rs1 rs2 | .ipow rd rs1 rs2 | .iand rd rs1 rs2 | .ior rd rs1 rs2 | .ixor rd rs1 rs2
  | .ishl rd rs1 rs2 | .ishr rd rs1 rs2 | .fadd rd rs1 rs2 | .fsub rd rs1 rs2 | .fmul rd rs1 rs2
  | .fdiv rd rs1 rs2 | .ffdiv rd rs1 rs2 | .fmod rd rs1 rs2 | .fpow rd rs1 rs2 =>
    { op := i.opcode, rd, rs1, rs2 }
  | .iaddIp rs1 rs2 | .isubIp rs1 rs2 | .imulIp rs1 rs2 | .idivIp rs1 rs2 | .ifdivIp rs1 rs2
  | .imodIp rs1 rs2 | .ipowIp rs1 rs2 | .iandIp rs1 rs2 | .iorIp rs1 rs2 | .ixorIp rs1 rs2
  | .ishlIp rs1 rs2 | .ishrIp rs1 rs2 | .faddIp rs1 rs2 | .fsubIp rs1 rs2 | .fmulIp rs1 rs2
  | .fdivIp rs1 rs2 | .ffdivIp rs1 rs2 | .fmodIp rs1 rs2 | .fpowIp rs1 rs2 =>
    { op := i.opcode, rd := rs1, rs1, rs2, ip := true }
  | .ieq rs1 rs2 | .ine rs1 rs2 | .ilt rs1 rs2 | .ile rs1 rs2 | .igt rs1 rs2 | .ige rs1 rs2
  | .feq rs1 rs2 | .fne rs1 rs2 | .flt rs1 rs2 | .fle rs1 rs2 | .fgt rs1 rs2 | .fge rs1 rs2 =>
    { op := i.opcode, rs1, rs2 }
  | .ibit rs1 index => { op := i.opcode, rs1, x := index }
  | .islice rd rs1 start stop => { op := i.opcode, rd, rs1, x := start, y := stop }
  | .iread rs1 | .imin rs1 | .imax rs1 | .fread rs1 => { op := i.opcode, rs1 }
  | .itob rs1 bo addr | .ftob rs1 bo addr => { op := i.opcode, rs1, bo, y := addr }
  | .ifromb rd sg bo w addr => { op := i.opcode, rd, sg, bo, x := w, y := addr }
  | .fnew rd ew mw => { op := i.opcode, rd, ew, mw }
  | .ffromb rd bo ew mw addr => { op := i.opcode, rd, bo, ew, mw, y := addr }

/-! ## A command and its fields -/

theorem encode_eq_word (i : Instr) : encode i = i.fields.word := by cases i <;> rfl

@[simp] theorem fields_op (i : Instr) : i.fields.op = i.opcode := by cases i <;> rfl

theorem used_fields (i : Instr) : i.opcode.format.used i.fields = i.fields := by cases i <;> rfl

theorem fields_fits (i : Instr) : i.fields.fits = i.wf := by
  have h0 : fitsWidths 0 0 = true := rfl
  have hx : fitsX 0 = true := rfl
  have hy : fitsY 0 = true := rfl
  cases i <;> simp [Instr.fields, WordFields.fits, Instr.wf, h0, hx, hy]

/-- An in-place row names its receiver in both places (R93). -/
theorem fields_rd_of_ip (i : Instr) : i.fields.ip = true → i.fields.rd = i.fields.rs1 := by
  cases i <;> simp [Instr.fields]

/-! ## A word and its fields -/

section
variable (w : Word)

theorem bits_lt {hi lo n : Nat} (h : 2 ^ (hi + 1 - lo) = n) : bits w hi lo < n :=
  h ▸ Nat.mod_lt _ (by positivity)

theorem fRd_val : (fRd w : Nat) = bits w 55 52 := Nat.mod_eq_of_lt (bits_lt w rfl)

theorem fRs1_val : (fRs1 w : Nat) = bits w 51 48 := Nat.mod_eq_of_lt (bits_lt w rfl)

theorem fRs2_val : (fRs2 w : Nat) = bits w 47 44 := Nat.mod_eq_of_lt (bits_lt w rfl)

theorem fIp_toNat : (fIp w).toNat = bits w 43 43 := by
  have := bits_lt w (hi := 43) (lo := 43) rfl
  unfold fIp
  interval_cases bits w 43 43 <;> rfl

theorem fSg_toNat : (fSg w).toNat = bits w 42 42 := by
  have := bits_lt w (hi := 42) (lo := 42) rfl
  unfold fSg
  interval_cases bits w 42 42 <;> rfl

theorem fBo_bit : (fBo w).bit = bits w 41 41 := by
  have := bits_lt w (hi := 41) (lo := 41) rfl
  unfold fBo
  interval_cases bits w 41 41 <;> rfl

/-- The bits from `lo` upward are those above `hi` and the field between them. -/
theorem div_two_pow_eq_field_add {hi lo : Nat} (h : lo ≤ hi + 1) :
    w.toNat / 2 ^ lo = 2 ^ (hi + 1 - lo) * (w.toNat / 2 ^ (hi + 1)) + bits w hi lo := by
  have hdiv : w.toNat / 2 ^ (hi + 1) = w.toNat / 2 ^ lo / 2 ^ (hi + 1 - lo) := by
    rw [Nat.div_div_eq_div_mul, ← pow_add, Nat.add_sub_cancel' h]
  rw [hdiv, bits, Nat.div_add_mod]

/-- The fields of R91 cover all 64 bits of a word. -/
theorem toNat_eq_sum_fields : bits w 63 56 * 2 ^ 56 + bits w 55 52 * 2 ^ 52 + bits w 51 48 * 2 ^ 48 +
    bits w 47 44 * 2 ^ 44 + bits w 43 43 * 2 ^ 43 + bits w 42 42 * 2 ^ 42 + bits w 41 41 * 2 ^ 41 +
    bits w 40 37 * 2 ^ 37 + bits w 36 31 * 2 ^ 31 + bits w 30 16 * 2 ^ 16 + bits w 15 0 = w.toNat := by
  have htop : w.toNat / 2 ^ 64 = 0 := Nat.div_eq_of_lt w.isLt
  have hop := div_two_pow_eq_field_add w (hi := 63) (lo := 56) (by decide)
  have hrd := div_two_pow_eq_field_add w (hi := 55) (lo := 52) (by decide)
  have hrs1 := div_two_pow_eq_field_add w (hi := 51) (lo := 48) (by decide)
  have hrs2 := div_two_pow_eq_field_add w (hi := 47) (lo := 44) (by decide)
  have hip := div_two_pow_eq_field_add w (hi := 43) (lo := 43) (by decide)
  have hsg := div_two_pow_eq_field_add w (hi := 42) (lo := 42) (by decide)
  have hbo := div_two_pow_eq_field_add w (hi := 41) (lo := 41) (by decide)
  have hew := div_two_pow_eq_field_add w (hi := 40) (lo := 37) (by decide)
  have hmw := div_two_pow_eq_field_add w (hi := 36) (lo := 31) (by decide)
  have hx := div_two_pow_eq_field_add w (hi := 30) (lo := 16) (by decide)
  have hy := div_two_pow_eq_field_add w (hi := 15) (lo := 0) (by decide)
  simp only [Nat.reduceAdd, Nat.reduceSub, htop, pow_zero, Nat.div_one] at hop hrd hrs1 hrs2 hip hsg hbo hew hmw hx hy
  rw [hy, hx, hmw, hew, hbo, hsg, hip, hrs2, hrs1, hrd, hop]
  ring

/-- A word is the word of its fields. -/
theorem word_fieldsIn {op : Opcode} (h : op.number = fOp w) : (op.fieldsIn w).word = w := by
  simp only [WordFields.word, Opcode.fieldsIn, h, pack, fOp, fRd_val, fRs1_val, fRs2_val, fIp_toNat, fSg_toNat,
    fBo_bit, fEw, fMw, fX, fY, toNat_eq_sum_fields, BitVec.ofNat_toNat, BitVec.setWidth_eq]

end

theorem boolToNat_beq_one (b : Bool) : (b.toNat == 1) = b := by cases b <;> rfl

theorem orderBit_eq_one (bo : ByteOrder) : (if bo.bit = 1 then ByteOrder.little else .big) = bo := by
  cases bo <;> rfl

/-- The fields of a word of fields are the fields, when each fits its place. -/
theorem WordFields.fits_pack {f : WordFields} (h : f.fits = true) :
    Fits f.op.number f.rd f.rs1 f.rs2 f.ip.toNat f.sg.toNat f.bo.bit f.ew f.mw f.x f.y := by
  simp only [WordFields.fits, fitsWidths, fitsX, fitsY, Bool.and_eq_true, decide_eq_true_eq] at h
  obtain ⟨⟨⟨hew, hmw⟩, hx⟩, hy⟩ := h
  exact ⟨number_lt _, f.rd.isLt, f.rs1.isLt, f.rs2.isLt, Bool.toNat_lt _, Bool.toNat_lt _,
    Laws.EncodedFields.orderBit_lt _, hew, hmw, hx, hy⟩

theorem fOp_word {f : WordFields} (h : f.fits = true) : fOp f.word = f.op.number := pack_op (f.fits_pack h)

theorem fieldsIn_word {f : WordFields} (h : f.fits = true) : f.op.fieldsIn f.word = f := by
  have hp := f.fits_pack h
  simp only [Opcode.fieldsIn, WordFields.word, fRd, fRs1, fRs2, fIp, fSg, fBo, fEw, fMw, fX, fY, regAt,
    pack_rd hp, pack_rs1 hp, pack_rs2 hp, pack_ip hp, pack_sg hp, pack_bo hp, pack_ew hp, pack_mw hp,
    pack_x hp, pack_y hp, Fin.ofNat_val_eq_self, boolToNat_beq_one, orderBit_eq_one]

/-! ## Reserved bits are unused fields (R92) -/

theorem eq_big_iff (bo : ByteOrder) : bo = .big ↔ bo.bit = 0 := by cases bo <;> decide

/-- A range of bits is 0 when both its parts are. -/
theorem bits_eq_zero_split (w : Word) {hi lo : Nat} (mid : Nat) (hlo : lo ≤ mid) (hhi : mid < hi) :
    bits w hi lo = 0 ↔ bits w hi (mid + 1) = 0 ∧ bits w mid lo = 0 := by
  simp only [bits_eq_zero_iff]
  constructor
  · exact fun h => ⟨fun i h1 h2 => h i (by omega) h2, fun i h1 h2 => h i h1 (by omega)⟩
  · rintro ⟨htop, hbottom⟩ i h1 h2
    rcases Nat.lt_or_ge mid i with hi | hi
    · exact htop i hi h2
    · exact hbottom i h1 hi

/-- No reserved bit of a format is set exactly when each field it does not use is 0: a reserved range is a run of
neighbouring fields, split off from the top one by one. -/
theorem clear_iff_used (φ : Format) (op : Opcode) (w : Word) :
    φ.clear w = true ↔ φ.used (op.fieldsIn w) = op.fieldsIn w := by
  cases φ <;>
    simp (disch := decide) only [Format.clear, Format.reserved, List.all_cons, List.all_nil, Bool.and_true,
      Bool.and_eq_true, beq_iff_eq, Format.used, Opcode.fieldsIn, WordFields.mk.injEq, true_and, and_true, and_assoc,
      eq_comm (a := (0 : RegIdx)), eq_comm (a := false), eq_comm (a := ByteOrder.big), eq_comm (a := (0 : Nat)),
      ← Fin.val_eq_zero_iff, ← Bool.toNat_eq_zero, eq_big_iff, fRd_val, fRs1_val, fRs2_val, fIp_toNat, fSg_toNat,
      fBo_bit, fEw, fMw, fX, fY,
      bits_eq_zero_split w (hi := 51) 47, bits_eq_zero_split w (hi := 47) 43, bits_eq_zero_split w (hi := 43) 42,
      bits_eq_zero_split w (hi := 42) 41, bits_eq_zero_split w (hi := 41) 40, bits_eq_zero_split w (hi := 40) 36,
      bits_eq_zero_split w (hi := 36) 30, bits_eq_zero_split w (hi := 30) 15]

/-! ## What a word's opcode and fields make -/

theorem build_of_fieldsIn {i : Instr} {w : Word} (h : i.opcode.fieldsIn w = i.fields) : i.opcode.build w = i := by
  have hrd : fRd w = i.fields.rd := congrArg WordFields.rd h
  have hrs1 : fRs1 w = i.fields.rs1 := congrArg WordFields.rs1 h
  have hrs2 : fRs2 w = i.fields.rs2 := congrArg WordFields.rs2 h
  have hip : fIp w = i.fields.ip := congrArg WordFields.ip h
  have hsg : fSg w = i.fields.sg := congrArg WordFields.sg h
  have hbo : fBo w = i.fields.bo := congrArg WordFields.bo h
  have hew : fEw w = i.fields.ew := congrArg WordFields.ew h
  have hmw : fMw w = i.fields.mw := congrArg WordFields.mw h
  have hx : fX w = i.fields.x := congrArg WordFields.x h
  have hy : fY w = i.fields.y := congrArg WordFields.y h
  cases i <;> simp only [Instr.opcode, Opcode.build, buildR, hrd, hrs1, hrs2, hip, hsg, hbo, hew, hmw, hx, hy] <;> rfl

/-- A format-R word without a receiver mismatch makes a row of its own fields (R93). -/
theorem fields_buildR {op : Opcode} {w : Word} {copy : RegIdx → RegIdx → RegIdx → Instr}
    {inPlace : RegIdx → RegIdx → Instr} (h : fIp w = true → fRd w = fRs1 w)
    (hcopy : ∀ rd rs1 rs2, (copy rd rs1 rs2).fields = { op, rd, rs1, rs2 })
    (hip : ∀ rs1 rs2, (inPlace rs1 rs2).fields = { op, rd := rs1, rs1, rs2, ip := true }) :
    (buildR w copy inPlace).fields = Format.R.used (op.fieldsIn w) := by
  unfold buildR
  split <;> rename_i hb
  · rw [hip, ← h hb, Format.used, Opcode.fieldsIn, hb, ← h hb]
  · rw [hcopy, Format.used, Opcode.fieldsIn, Bool.eq_false_of_not_eq_true hb]

/-- The command that an opcode and a word make has the word's fields that its format uses. -/
theorem fields_build {op : Opcode} {w : Word} (h : op.format = .R → fIp w = true → fRd w = fRs1 w) :
    (op.build w).fields = op.format.used (op.fieldsIn w) := by
  cases op
  case iadd | isub | imul | idiv | ifdiv | imod | ipow | iand | ior | ixor | ishl | ishr
     | fadd | fsub | fmul | fdiv | ffdiv | fmod | fpow =>
    exact fields_buildR (h rfl) (fun _ _ _ => rfl) (fun _ _ => rfl)
  all_goals rfl

/-! ## The decode procedure (R108) -/

/-- A word decodes exactly when its OP field is assigned, no reserved bit is set, and an in-place word names one
receiver. -/
theorem decode_eq_ok_iff {w : Word} {i : Instr} :
    decode w = .ok i ↔ ∃ op : Opcode, op.number = fOp w ∧ op.format.clear w = true ∧
      ¬(op.format = .R ∧ fIp w = true ∧ fRd w ≠ fRs1 w) ∧ op.build w = i := by
  unfold decode
  constructor
  · intro h
    split at h
    · cases h
    · rename_i op hop
      split_ifs at h with hc hr
      cases h
      exact ⟨op, number_of_ofNumber hop, by simpa using hc, hr, rfl⟩
  · rintro ⟨op, hop, hc, hr, rfl⟩
    simp [← hop, hc, hr]

/-- A word that decodes holds the fields of its command. -/
theorem fields_of_decode {w : Word} {i : Instr} (h : decode w = .ok i) :
    i.opcode.number = fOp w ∧ i.fields = i.opcode.fieldsIn w := by
  obtain ⟨op, hop, hc, hr, rfl⟩ := decode_eq_ok_iff.1 h
  have hf : (op.build w).fields = op.fieldsIn w :=
    (fields_build fun hR hip => by_contra fun hne => hr ⟨hR, hip, hne⟩).trans ((clear_iff_used _ _ _).1 hc)
  have ho : (op.build w).opcode = op := by rw [← fields_op, hf]; rfl
  rw [ho]
  exact ⟨hop, hf⟩

/-- The word of a decoded command is the word it was decoded from. -/
theorem encode_of_decode {w : Word} {i : Instr} (h : decode w = .ok i) : encode i = w := by
  obtain ⟨hop, hf⟩ := fields_of_decode h
  rw [encode_eq_word, hf, word_fieldsIn w hop]

/-- The word of a well-formed command holds the command's fields. -/
theorem fieldsIn_encode {i : Instr} (h : i.wf = true) :
    i.opcode.number = fOp (encode i) ∧ i.opcode.fieldsIn (encode i) = i.fields := by
  have hfits : i.fields.fits = true := (fields_fits i).trans h
  rw [encode_eq_word, fOp_word hfits, ← fields_op i, fieldsIn_word hfits]
  exact ⟨rfl, rfl⟩

/-- The word of a well-formed command decodes to it. -/
theorem decode_encode {i : Instr} (h : i.wf = true) : decode (encode i) = .ok i := by
  obtain ⟨hop, hf⟩ := fieldsIn_encode h
  refine decode_eq_ok_iff.2 ⟨i.opcode, hop, ?_, ?_, build_of_fieldsIn hf⟩
  · rw [clear_iff_used _ i.opcode, hf, used_fields]
  · rintro ⟨-, hip, hne⟩
    exact hne ((congrArg WordFields.rd hf).trans
      ((fields_rd_of_ip i ((congrArg WordFields.ip hf).symm.trans hip)).trans (congrArg WordFields.rs1 hf).symm))

end Sys2Proof
end

section
/-! PROOFS. The claims of 30_encoding.md: decoder and encoder are inverse to each other, and a step applies the decode
procedure to the host's next word. -/

namespace Sys2Proof.Machine

/-- Settles O2: the word holds the command's fields (`fieldsIn_encode`), so each check of the decoder passes and
`Opcode.build` reads them back. -/
theorem decodeEncode : Obligations.DecodeEncode := fun _ => decode_encode

/-- Settles O3: the fields of the command are the fields of the word, reserved ones included
(`fields_of_decode`), and a word is the word of its fields. -/
theorem encodeDecode : Obligations.EncodeDecode := fun _ _ h => ⟨decode_wf h, encode_of_decode h⟩

theorem fIp_eq_getLsbD (w : Word) : fIp w = w.getLsbD 43 := by
  rw [fIp, bits, ← BitVec.testBit_toNat, Nat.testBit_eq_decide_div_mod_eq]
  rfl

theorem fRd_eq_fRs1_iff (w : Word) : fRd w = fRs1 w ↔ bits w 55 52 = bits w 51 48 := by
  rw [Fin.ext_iff, fRd_val, fRs1_val]

/-- The decoder's checks, as R108 writes them: by the zero mask, bit 43 and the two register fields. -/
theorem decodes_iff (w : Word) : (∃ i, decode w = .ok i) ↔ ∃ op : Opcode, op.number = fOp w ∧
    w &&& op.format.zeroMask = 0#64 ∧
      ¬(op.format = .R ∧ w.getLsbD 43 = true ∧ bits w 55 52 ≠ bits w 51 48) := by
  simp only [decode_eq_ok_iff, clear_iff, fIp_eq_getLsbD, ne_eq, fRd_eq_fRs1_iff]
  constructor
  · exact fun ⟨_, op, hop, hc, hr, _⟩ => ⟨op, hop, hc, hr⟩
  · exact fun ⟨op, hop, hc, hr⟩ => ⟨_, op, hop, hc, hr, rfl⟩

/-- Settles O4: a legal word is one that decodes (`decodes_iff`), and is the word of its command; the step rejects
any other word by raising IllegalCommand. -/
theorem decodeProcedure : Obligations.DecodeProcedure := by
  intro s w p rest hp legal
  refine ⟨fun hlegal => ?_, fun hlegal => ?_⟩
  · obtain ⟨i, hi⟩ := (decodes_iff w).2 hlegal
    exact ⟨i, hi, (fields_of_decode hi).1, encode_of_decode hi, stepRunsDecodedCommand s w p rest i hp hi⟩
  · cases hd : decode w with
    | ok i => exact absurd ((decodes_iff w).1 ⟨i, hd⟩) hlegal
    | error e =>
      exact ⟨(takeCommand s rest p).respond .illegalCommand none, by simp [step, hp, hd], rfl, fun _ => rfl, rfl,
        rfl, rfl⟩

/-- Settles O1: the decoder, run on each word. -/
theorem specWordsDecode : Obligations.SpecWordsDecode := by
  unfold Obligations.SpecWordsDecode
  decide

end Sys2Proof.Machine
end

section
/-! PROOFS. The claims of 40_int_construct.md on masking, construction and commutative commands (R133, R138, R140 to
R142). -/

namespace Sys2Proof.Machine

/-! ## Masking into the range of a shape (10_state.md R33; 44_int_bits_bytes.md R264, R265) -/

section
variable {n : Nat} (hn : 1 ≤ n) (s : Bool)
include hn

/-- A shape has `2^n` canonical values. -/
theorem shapeMax_add_one : shapeMax n s + 1 = shapeMin n s + 2 ^ n := by
  cases s
  case false => simp [shapeMin, shapeMax]
  case true =>
    have h2 := two_pow_pred n hn
    simp only [shapeMin, shapeMax, if_true, Bool.toNat_true]
    omega

theorem mask_mem_shape (x : Int) : shapeMin n s ≤ mask n s x ∧ mask n s x ≤ shapeMax n s := by
  cases s
  case false => exact (mask_unsigned_range n x).imp_right Int.le_sub_one_of_lt
  case true => exact (mask_signed_range n hn x).imp_right Int.le_sub_one_of_lt

theorem mask_eq_self_of_mem_shape {y : Int} (h0 : shapeMin n s ≤ y) (h1 : y ≤ shapeMax n s) : mask n s y = y := by
  cases s
  case false => exact mask_eq_self_unsigned h0 (Int.lt_of_le_sub_one h1)
  case true => exact mask_eq_self_signed hn h0 (Int.lt_of_le_sub_one h1)

/-- The mask is the only value of the shape that is congruent to its argument modulo `2^n` (R133). -/
theorem eq_mask_of_mem_shape {x y : Int} (h0 : shapeMin n s ≤ y) (h1 : y ≤ shapeMax n s)
    (h : (2 : Int) ^ n ∣ y - x) : y = mask n s x :=
  calc y = mask n s y := (mask_eq_self_of_mem_shape hn s h0 h1).symm
    _ = mask n s x := mask_congr s (Int.modEq_iff_dvd.2 h).symm

/-- One past the greatest value wraps to the least (R133). -/
theorem mask_shapeMax_add_one : mask n s (shapeMax n s + 1) = shapeMin n s := by
  have h := shapeMax_add_one hn s
  have hp := two_pow_pos_int n
  exact (eq_mask_of_mem_shape hn s le_rfl (by omega) ⟨-1, by rw [h]; ring⟩).symm

/-- One below the least value wraps to the greatest (R133). -/
theorem mask_shapeMin_sub_one : mask n s (shapeMin n s - 1) = shapeMax n s := by
  have h := shapeMax_add_one hn s
  have hp := two_pow_pos_int n
  exact (eq_mask_of_mem_shape hn s (by omega) le_rfl ⟨1, by linarith⟩).symm

end

theorem shapeMax_eq (n : Nat) (s : Bool) :
    (if s then 2 ^ (n - 1) - 1 else 2 ^ n - 1 : Int) = shapeMax n s := by cases s <;> rfl

theorem mask_modEq (n : Nat) (s : Bool) (x : Int) : mask n s x ≡ x [ZMOD 2 ^ n] := mask_emod n s x

/-- Settles O19: the mask lies in the shape and is congruent to its argument, and it is the only such value. -/
theorem maskIsModularReduction : Obligations.MaskIsModularReduction := by
  intro n s x hn lo hi
  have hhi : hi = shapeMax n s := shapeMax_eq n s
  rw [hhi]
  obtain ⟨hlo, hle⟩ := mask_mem_shape hn s x
  exact ⟨mask_add_mul n s x, ⟨hlo, hle, (mask_modEq n s x).symm.dvd⟩, fun y => eq_mask_of_mem_shape hn s,
    mask_shapeMax_add_one hn s, mask_shapeMin_sub_one hn s, mask_mask n s x⟩

/-! ## Exchanging the operands (R138) -/

theorem promN_comm (a b : IntC) : promN a b = promN b a := Nat.max_comm a.n b.n

theorem promS_comm (a b : IntC) : promS a b = promS b a := Bool.and_comm a.s b.s

theorem promA_eq_promB_swap (a b : IntC) : promA a b = promB b a := by
  rw [promA, promB, promN_comm, promS_comm]

theorem promoted_comm {op : Int → Int → Except Status Int} (h : ∀ A B, op A B = op B A) (a b : IntC) :
    promoted op a b = promoted op b a := by
  unfold promoted
  rw [h, promA_eq_promB_swap a b, ← promA_eq_promB_swap b a, promN_comm, promS_comm]

theorem withInt2_swap (s : State) (i j : RegIdx) {k k' : IntC → IntC → Result} (h : ∀ a b, k a b = k' b a) :
    withInt2 s i j k = withInt2 s j i k' := by
  cases hi : s.reg i <;> cases hj : s.reg j <;> simp [withInt2, hi, hj, h]

theorem intCopy_swap {f : IntC → IntC → Except Status IntC} (h : ∀ a b, f a b = f b a) (rd i j : RegIdx)
    (s : State) : intCopy f rd i j s = intCopy f rd j i s :=
  withInt2_swap s i j fun a b => by rw [h]

theorem intCompare_swap {rel : Int → Int → Bool} (h : ∀ A B, rel A B = rel B A) (i j : RegIdx) (s : State) :
    intCompare rel i j s = intCompare rel j i s :=
  withInt2_swap s i j fun a b => by rw [h, promA_eq_promB_swap a b, promA_eq_promB_swap b a]

/-- A copying command whose operator on integers is commutative. -/
theorem intCopy_promoted_swap {op : Int → Int → Int} (h : ∀ A B, op A B = op B A) (rd i j : RegIdx)
    (s : State) :
    intCopy (promoted fun A B => .ok (op A B)) rd i j s = intCopy (promoted fun A B => .ok (op A B)) rd j i s :=
  intCopy_swap (promoted_comm fun A B => congrArg Except.ok (h A B)) rd i j s

theorem intAnd_comm : ∀ A B, intAnd A B = intAnd B A
  | .ofNat m, .ofNat n => congrArg Int.ofNat (Nat.and_comm m n)
  | .ofNat _, .negSucc _ | .negSucc _, .ofNat _ => rfl
  | .negSucc m, .negSucc n => congrArg Int.negSucc (Nat.or_comm m n)

theorem intOr_comm : ∀ A B, intOr A B = intOr B A
  | .ofNat m, .ofNat n => congrArg Int.ofNat (Nat.or_comm m n)
  | .ofNat _, .negSucc _ | .negSucc _, .ofNat _ => rfl
  | .negSucc m, .negSucc n => congrArg Int.negSucc (Nat.and_comm m n)

theorem intXor_comm : ∀ A B, intXor A B = intXor B A
  | .ofNat m, .ofNat n | .negSucc m, .negSucc n => congrArg Int.ofNat (Nat.xor_comm m n)
  | .ofNat m, .negSucc n | .negSucc m, .ofNat n => congrArg Int.negSucc (Nat.xor_comm m n)

theorem relEq_comm (A B : Int) : relEq A B = relEq B A := decide_eq_decide.2 eq_comm

theorem relNe_comm (A B : Int) : relNe A B = relNe B A := decide_eq_decide.2 ne_comm

/-- Settles O20: promotion is symmetric in the two shapes, and so is each operator and relation. -/
theorem commutativeCommands : Obligations.CommutativeCommands :=
  ⟨fun a b => ⟨promN_comm a b, promS_comm a b⟩, fun rd i j s =>
    ⟨intCopy_promoted_swap Int.add_comm rd i j s, intCopy_promoted_swap Int.mul_comm rd i j s,
     intCopy_promoted_swap intAnd_comm rd i j s, intCopy_promoted_swap intOr_comm rd i j s,
     intCopy_promoted_swap intXor_comm rd i j s,
     intCompare_swap relEq_comm i j s, intCompare_swap relNe_comm i j s⟩⟩

/-! ## Construction (R140 to R142) -/

section
variable {s : State} {rd rs1 : RegIdx} {sg : Bool} {w : Nat} {x : Int} {c : IntC}

theorem exec_inew (h : s.hostIn = some (.int x)) : exec (.inew rd sg w) s =
    if widthOk w then writeInt s rd (mkInt w sg x) else raise s .invalidWidth := withHostInt_int h

theorem exec_icvt (h : s.reg rs1 = .int c) : exec (.icvt rd rs1 sg w) s =
    if widthOk w then writeInt s rd (mkInt w sg c.v) else raise s .invalidWidth := withInt_int h

theorem exec_iset (hx : s.hostIn = some (.int x)) (hc : s.reg rd = .int c) :
    exec (.iset rd) s = writeInt s rd (mkInt c.n c.s x) := (withHostInt_int hx).trans (withInt_int hc)

end

theorem widthOk_of_one_le {w : Nat} (h : 1 ≤ w) : widthOk w = true := decide_eq_true h

/-- Settles O21: the width check is the only condition left once the operand is there, and a width of 0 fails it. -/
theorem constructInt : Obligations.ConstructInt :=
  ⟨fun _ _ _ _ _ hx => ⟨fun hw => writes_of_writeInt ((exec_inew hx).trans (if_pos (widthOk_of_one_le hw))),
      takesFault_of_raise (exec_inew hx)⟩,
   fun _ _ _ _ _ _ hc => ⟨fun hw => writes_of_writeInt ((exec_icvt hc).trans (if_pos (widthOk_of_one_le hw))),
      takesFault_of_raise (exec_icvt hc)⟩,
   fun _ _ _ _ hx hc => writes_of_writeInt (exec_iset hx hc)⟩

end Sys2Proof.Machine
end

section
/-! PROOFS. Integer arithmetic, copying and in place (41_int_arith.md R165 to R171, R180 to R186; 40_int_construct.md
R139). -/

namespace Sys2Proof.Machine

/-! ## Sums, differences, products -/

/-- Masking into a shape keeps the value modulo each smaller power of two. -/
theorem mask_modEq_of_le {m n : Nat} (h : m ≤ n) (g : Bool) (x : Int) : mask n g x ≡ x [ZMOD 2 ^ m] :=
  (mask_modEq n g x).of_dvd (pow_dvd_pow 2 h)

/-- A promoted result masked into a narrower shape depends only on what it is congruent to there (R139). -/
theorem mask_mask_of_modEq {m n : Nat} (h : m ≤ n) (s g : Bool) {r x : Int} (hr : r ≡ x [ZMOD 2 ^ m]) :
    mask m s (mask n g r) = mask m s x :=
  mask_congr s ((mask_modEq_of_le h g r).trans hr)

section
variable (a b : IntC)

theorem iaddResult_eq : iaddResult a b = .ok (mkInt (promN a b) (promS a b) (promA a b + promB a b)) := rfl

theorem isubResult_eq : isubResult a b = .ok (mkInt (promN a b) (promS a b) (promA a b - promB a b)) := rfl

theorem imulResult_eq : imulResult a b = .ok (mkInt (promN a b) (promS a b) (promA a b * promB a b)) := rfl

end

/-- Settles O23: each command writes its promoted result. -/
theorem intAddSubMul : Obligations.IntAddSubMul := by
  intro rd rs1 rs2 a b s ha hb n g A B
  exact ⟨writes_of_intCopy ha hb (iaddResult_eq a b) rfl, writes_of_intCopy ha hb (isubResult_eq a b) rfl,
    writes_of_intCopy ha hb (imulResult_eq a b) rfl⟩

/-- Settles O24: the promoted width is no less than the receiver's, so reinterpretation and the first mask keep every
value modulo the receiver's `2^n`. -/
theorem intAddSubMulInPlace : Obligations.IntAddSubMulInPlace := by
  intro rs1 rs2 a b s ha hb n g A B
  have hn : a.n ≤ n := Nat.le_max_left a.n b.n
  have hA : A ≡ a.v [ZMOD 2 ^ a.n] := mask_modEq_of_le hn g a.v
  have hB : B ≡ b.v [ZMOD 2 ^ a.n] := mask_modEq_of_le hn g b.v
  exact ⟨⟨writes_of_intInPlace ha hb (iaddResult_eq a b) rfl, mask_mask_of_modEq hn a.s g (hA.add hB)⟩,
    ⟨writes_of_intInPlace ha hb (isubResult_eq a b) rfl, mask_mask_of_modEq hn a.s g (hA.sub hB)⟩,
    ⟨writes_of_intInPlace ha hb (imulResult_eq a b) rfl, mask_mask_of_modEq hn a.s g (hA.mul hB)⟩⟩

/-! ## Quotients (00_scope.md R16) -/

/-- `a // b` is the floor of the rational quotient. -/
theorem floorDiv_eq_floor (A B : Int) : floorDiv A B = ⌊(A : ℚ) / B⌋ := by
  have natural (A : Int) (d : Nat) : floorDiv A d = ⌊(A : ℚ) / d⌋ := by
    rw [Rat.floor_intCast_div_natCast, floorDiv, Int.fdiv_eq_ediv_of_nonneg A (Int.natCast_nonneg d)]
  obtain ⟨d, rfl | rfl⟩ := Int.eq_nat_or_neg B
  · exact_mod_cast natural A d
  · calc floorDiv A (-d) = floorDiv (-A) d := by rw [floorDiv, ← Int.neg_fdiv_neg, neg_neg, floorDiv]
      _ = ⌊((-A : Int) : ℚ) / d⌋ := natural (-A) d
      _ = ⌊(A : ℚ) / ((-d : Int) : ℚ)⌋ := by push_cast; rw [neg_div, div_neg]

/-- A quotient that is not negative is rounded the same way by `tdiv` and `//`. -/
theorem truncDiv_eq_floorDiv {A B : Int} (h : 0 ≤ (A : ℚ) / B) : truncDiv A B = floorDiv A B := by
  obtain ⟨hA, hB⟩ | ⟨hA, hB⟩ := div_nonneg_iff.1 h <;> norm_cast at hA hB
  · exact (Int.fdiv_eq_tdiv_of_nonneg hA hB).symm
  · rw [truncDiv, floorDiv, ← Int.neg_tdiv_neg, ← Int.neg_fdiv_neg,
      Int.fdiv_eq_tdiv_of_nonneg (Int.neg_nonneg_of_nonpos hA) (Int.neg_nonneg_of_nonpos hB)]

/-- `tdiv` rounds the rational quotient toward zero. -/
theorem truncDiv_eq_round (A B : Int) :
    truncDiv A B = if (0 : ℚ) ≤ (A : ℚ) / B then ⌊(A : ℚ) / B⌋ else ⌈(A : ℚ) / B⌉ := by
  split <;> rename_i h
  · rw [truncDiv_eq_floorDiv h, floorDiv_eq_floor]
  · have hneg : ((-A : Int) : ℚ) / B = -((A : ℚ) / B) := by push_cast; rw [neg_div]
    calc truncDiv A B = -truncDiv (-A) B := by rw [truncDiv, truncDiv, Int.neg_tdiv, neg_neg]
      _ = -⌊((-A : Int) : ℚ) / B⌋ := by rw [truncDiv_eq_floorDiv (by rw [hneg]; linarith), floorDiv_eq_floor]
      _ = ⌈(A : ℚ) / B⌉ := by rw [hneg, Int.floor_neg, neg_neg]

/-- The result of a division whose divisor is not 0 after reinterpretation. -/
theorem promoted_guardDivisor {op : Int → Int → Int} {a b : IntC} {x : Int} (hB : promB a b ≠ 0)
    (h : op (promA a b) (promB a b) = x) :
    promoted (guardDivisor op) a b = .ok (mkInt (promN a b) (promS a b) x) :=
  promoted_of_ok ((if_neg hB).trans (congrArg Except.ok h))

/-- Settles O26: the model's quotients are the rounded rational ones, and each command masks the promoted result into
the receiver's shape. -/
theorem intDivisionInPlace : Obligations.IntDivisionInPlace := by
  intro rs1 rs2 a b s ha hb n g A B down toZero own hB
  have hdown : floorDiv A B = down := floorDiv_eq_floor A B
  have hzero : truncDiv A B = toZero := truncDiv_eq_round A B
  refine ⟨writes_of_intInPlace ha hb (promoted_guardDivisor hB hzero) rfl,
    writes_of_intInPlace ha hb (promoted_guardDivisor hB hdown) rfl, fun hk => ?_, fun hk => ?_⟩
  · have hmod : imodResult s.config.modKind a b = .ok (mkInt n g (A - B * down)) := by
      rw [hk]
      exact promoted_guardDivisor hB (congrArg (A - B * ·) hdown)
    exact writes_of_intInPlace ha hb hmod rfl
  · have hmod : imodResult s.config.modKind a b = .ok (mkInt n g (A - B * toZero)) := by
      rw [hk]
      exact promoted_guardDivisor hB (congrArg (A - B * ·) hzero)
    exact writes_of_intInPlace ha hb hmod rfl

/-! ## Powers (R171) -/

section
variable {a b : IntC}

theorem ipowResult_nonneg (h : 0 ≤ promB a b) :
    ipowResult a b = .ok (mkInt (promN a b) (promS a b) (promA a b ^ (promB a b).toNat)) := by
  rw [mkInt, ← mask_powMasked]
  exact promoted_of_ok (if_neg (not_lt.2 h))

theorem ipowResult_neg (h : promB a b < 0) : ipowResult a b = .error .negativeExponent := by
  simp [ipowResult, promoted, h]

end

section
variable {i : Instr} {s : State} {rd rs1 rs2 : RegIdx} {a b : IntC} {e : Status}
  {f : IntC → IntC → Except Status IntC}

/-- A copying form whose result is a fault takes that fault. -/
theorem takesFault_of_intCopy (ha : s.reg rs1 = .int a) (hb : s.reg rs2 = .int b) (hf : f a b = .error e)
    (h : exec i s = intCopy f rd rs1 rs2 s) : TakesFault i s e :=
  takesFault_of_raise (h.trans (by simp [intCopy, ha, hb, hf]))

/-- An in-place form whose result is a fault takes that fault. -/
theorem takesFault_of_intInPlace (ha : s.reg rs1 = .int a) (hb : s.reg rs2 = .int b) (hf : f a b = .error e)
    (h : exec i s = intInPlace f rs1 rs2 s) : TakesFault i s e :=
  takesFault_of_raise (h.trans (by simp [intInPlace, ha, hb, hf]))

end

/-- Settles O28: the bounded power has the mask of the exact one, and the exponent's sign decides between result and
fault. -/
theorem intPower : Obligations.IntPower := by
  intro rd rs1 rs2 a b s ha hb n g A B
  exact ⟨fun h => ⟨writes_of_intCopy ha hb (ipowResult_nonneg h) rfl,
      writes_of_intInPlace ha hb (ipowResult_nonneg h) rfl⟩,
    fun h => ⟨takesFault_of_intCopy ha hb (ipowResult_neg h) rfl,
      takesFault_of_intInPlace ha hb (ipowResult_neg h) rfl⟩⟩

end Sys2Proof.Machine
end

section
/-! PROOFS. The remaining integer arithmetic (41_int_arith.md R160 to R163, R168 to R170). -/

namespace Sys2Proof.Machine

/-! ## Unary commands (R160 to R163) -/

/-- A unary command writes its operator's value in the operand's shape (R160). -/
theorem writes_of_intUnary {i : Instr} {s : State} {rd rs1 : RegIdx} {a : IntC} (op : Int → Int)
    (ha : s.reg rs1 = .int a) (h : exec i s = intUnary op rd rs1 s) :
    Writes i s rd (.int (mkInt a.n a.s (op a.v))) :=
  writes_of_writeInt (h.trans (withInt_int ha))

theorem lnot_eq_neg_sub_one : ∀ v : Int, v.lnot = -v - 1
  | .ofNat m => (Int.negSucc_eq m).trans (neg_add' (m : Int) 1)
  | .negSucc m => by simp [Int.lnot, Int.negSucc_eq]

/-- `-v - 1` inverts every bit of the two's-complement form (R163). -/
theorem testBit_neg_sub_one (v : Int) (k : Nat) : (-v - 1).testBit k = !v.testBit k := by
  rw [← lnot_eq_neg_sub_one, Int.testBit_lnot]

/-- Settles O22: each command writes its operator's value, and INOT's operator inverts the bits. -/
theorem intUnaryCommands : Obligations.IntUnary := by
  intro rd rs1 a s ha
  have habs : Writes (.iabs rd rs1) s rd (.int (mkInt a.n a.s a.v.natAbs)) :=
    writes_of_intUnary (fun v => (v.natAbs : Int)) ha rfl
  rw [← Int.abs_eq_natAbs] at habs
  exact ⟨writes_of_intUnary (fun v => -v) ha rfl, habs, -a.v - 1, testBit_neg_sub_one a.v,
    writes_of_intUnary (fun v => -v - 1) ha rfl⟩

/-! ## Copying divisions (R168 to R170) -/

theorem modBy_floor_eq (A B : Int) : modBy .floor A B = A - B * ⌊(A : ℚ) / B⌋ := by
  rw [modBy, floorDiv_eq_floor]

theorem modBy_trunc_eq (A B : Int) :
    modBy .trunc A B = A - B * (if (0 : ℚ) ≤ (A : ℚ) / B then ⌊(A : ℚ) / B⌋ else ⌈(A : ℚ) / B⌉) := by
  rw [modBy, truncDiv_eq_round]

/-- The result of IMOD under the block's `mod_kind` (R170). -/
theorem imodResult_of_modKind {k k' : ModKind} (hk : k = k') {a b : IntC} {x : Int} (hB : promB a b ≠ 0)
    (h : modBy k' (promA a b) (promB a b) = x) :
    imodResult k a b = .ok (mkInt (promN a b) (promS a b) x) := by
  subst hk
  exact promoted_guardDivisor hB h

/-- Settles O25: the model's quotients are the rounded rational ones, and each command writes its promoted result. -/
theorem intDivision : Obligations.IntDivision := by
  intro rd rs1 rs2 a b s ha hb n g A B down toZero hB
  exact ⟨writes_of_intCopy ha hb (promoted_guardDivisor hB (truncDiv_eq_round A B)) rfl,
    writes_of_intCopy ha hb (promoted_guardDivisor hB (floorDiv_eq_floor A B)) rfl,
    fun hk => writes_of_intCopy ha hb (imodResult_of_modKind hk hB (modBy_floor_eq A B)) rfl,
    fun hk => writes_of_intCopy ha hb (imodResult_of_modKind hk hB (modBy_trunc_eq A B)) rfl⟩

/-! ## The remainder before the mask (R170) -/

theorem modBy_floor_eq_fmod (A B : Int) : modBy .floor A B = A.fmod B := (Int.fmod_def A B).symm

theorem modBy_trunc_eq_tmod (A B : Int) : modBy .trunc A B = A.tmod B := (Int.tmod_def A B).symm

/-- Under `floor` the remainder lies between 0 and the divisor, on the divisor's side. -/
theorem modBy_floor_between (A : Int) {B : Int} (hB : B ≠ 0) :
    (0 ≤ modBy .floor A B ∧ modBy .floor A B < B) ∨ (B < modBy .floor A B ∧ modBy .floor A B ≤ 0) := by
  rw [modBy_floor_eq_fmod]
  rcases hB.lt_or_gt with h | h
  · have h0 := Int.fmod_nonneg_of_pos (-A) (neg_pos.2 h)
    have h1 := Int.fmod_lt_of_pos (-A) (neg_pos.2 h)
    rw [Int.neg_fmod_neg] at h0 h1
    exact .inr ⟨neg_lt_neg_iff.1 h1, neg_nonneg.1 h0⟩
  · exact .inl ⟨Int.fmod_nonneg_of_pos A h, Int.fmod_lt_of_pos A h⟩

theorem modBy_floor_mul_divisor_nonneg (A : Int) {B : Int} (hB : B ≠ 0) : 0 ≤ modBy .floor A B * B := by
  obtain ⟨h0, h1⟩ | ⟨h0, h1⟩ := modBy_floor_between A hB
  · exact mul_nonneg h0 (h0.trans h1.le)
  · exact mul_nonneg_of_nonpos_of_nonpos h1 (h0.le.trans h1)

theorem modBy_trunc_mul_dividend_nonneg (A B : Int) : 0 ≤ modBy .trunc A B * A := by
  rw [modBy_trunc_eq_tmod]
  rcases le_total 0 A with h | h
  · exact mul_nonneg (Int.tmod_nonneg B h) h
  · rw [← neg_mul_neg, ← Int.neg_tmod]
    exact mul_nonneg (Int.tmod_nonneg B (neg_nonneg.2 h)) (neg_nonneg.2 h)

/-- Both remainders are smaller than the divisor. -/
theorem abs_modBy_lt (k : ModKind) (A : Int) {B : Int} (hB : B ≠ 0) : |modBy k A B| < |B| := by
  cases k with
  | floor =>
    obtain ⟨h0, h1⟩ | ⟨h0, h1⟩ := modBy_floor_between A hB
    · rwa [abs_of_nonneg h0, abs_of_pos (h0.trans_lt h1)]
    · rwa [abs_of_nonpos h1, abs_of_neg (h0.trans_le h1), neg_lt_neg_iff]
  | trunc =>
    rw [modBy_trunc_eq_tmod, Int.abs_eq_natAbs, Int.abs_eq_natAbs, Int.natAbs_tmod]
    exact_mod_cast Nat.mod_lt _ (Int.natAbs_pos.2 hB)

/-- Operands that are not negative have a remainder that is not negative, whatever the `mod_kind`. -/
theorem modBy_nonneg (k : ModKind) {A B : Int} (hA : 0 ≤ A) (hB : 0 ≤ B) : 0 ≤ modBy k A B := by
  cases k with
  | floor => exact modBy_floor_eq_fmod A B ▸ Int.fmod_nonneg hA hB
  | trunc => exact modBy_trunc_eq_tmod A B ▸ Int.tmod_nonneg B hA

/-- The remainder of two values of a shape is a value of that shape (R170): in an unsigned shape it is not negative
and below the divisor; in a signed one its magnitude is below the divisor's, which is at most `2^(n-1)`. -/
theorem mask_modBy {n : Nat} (hn : 1 ≤ n) (g : Bool) (k : ModKind) (x y : Int) (hB : mask n g y ≠ 0) :
    mask n g (modBy k (mask n g x) (mask n g y)) = modBy k (mask n g x) (mask n g y) := by
  have hlt := abs_modBy_lt k (mask n g x) hB
  cases g with
  | false =>
    obtain ⟨hy0, hy1⟩ := mask_unsigned_range n y
    rw [abs_of_nonneg hy0] at hlt
    exact mask_eq_self_unsigned (modBy_nonneg k (mask_unsigned_range n x).1 hy0)
      ((le_abs_self _).trans_lt (hlt.trans hy1))
  | true =>
    obtain ⟨hy0, hy1⟩ := mask_signed_range n hn y
    obtain ⟨h0, h1⟩ := abs_lt.1 (hlt.trans_le (abs_le.2 ⟨hy0, hy1.le⟩))
    exact mask_eq_self_signed hn h0.le h1

/-- Settles O27: the promoted width is at least 1, and the bound and the signs hold of all integers. -/
theorem moduloInRange : Obligations.ModuloInRange := by
  intro a b ha _ n g A B hB
  have hn : 1 ≤ n := ((IntC.wf_iff a).1 ha).1.trans (Nat.le_max_left a.n b.n)
  exact ⟨fun k => mask_modBy hn g k a.v b.v hB, fun k => abs_modBy_lt k A hB,
    modBy_floor_mul_divisor_nonneg A hB, modBy_trunc_mul_dividend_nonneg A B⟩

end Sys2Proof.Machine
end

section
/-! PROOFS. Integer shifts (42_int_bitwise_shift.md R203 to R206, R213, R214). -/

namespace Sys2Proof.Machine

/-! ## The result of a shift (R204 to R206) -/

/-- `v >> k` is the floor of the rational quotient. -/
theorem shiftRight_eq_floor (v : Int) (k : Nat) : shiftRight v k = ⌊(v : ℚ) / 2 ^ k⌋ := by
  rw [shiftRight_eq]
  exact_mod_cast (Rat.floor_intCast_div_natCast v (2 ^ k)).symm

section
variable {a c : IntC}

theorem ishlResult_nonneg (h : 0 ≤ c.v) : ishlResult a c = .ok (mkInt a.n a.s (a.v * 2 ^ c.v.toNat)) := by
  rw [ishlResult, if_neg (not_lt.2 h), mkInt, mask_shiftLeft, mkInt]

theorem ishrResult_nonneg (h : 0 ≤ c.v) :
    ishrResult a c = .ok (mkInt a.n a.s ⌊(a.v : ℚ) / 2 ^ c.v.toNat⌋) := by
  rw [ishrResult, if_neg (not_lt.2 h), shiftRight_eq_floor]

theorem ishlResult_neg (h : c.v < 0) : ishlResult a c = .error .negativeShift := if_pos h

theorem ishrResult_neg (h : c.v < 0) : ishrResult a c = .error .negativeShift := if_pos h

end

/-- An in-place form whose result has the receiver's shape already writes that result: its second mask (R139) changes
nothing. -/
theorem writes_of_intInPlace_receiverShape {i : Instr} {s : State} {rs1 rs2 : RegIdx} {a b : IntC}
    {f : IntC → IntC → Except Status IntC} {x : Int} (ha : s.reg rs1 = .int a) (hb : s.reg rs2 = .int b)
    (hf : f a b = .ok (mkInt a.n a.s x)) (h : exec i s = intInPlace f rs1 rs2 s) :
    Writes i s rs1 (.int (mkInt a.n a.s x)) := by
  have hmask : mkInt a.n a.s (mkInt a.n a.s x).v = mkInt a.n a.s x := by simp [mkInt]
  exact hmask ▸ writes_of_intInPlace ha hb hf h

/-- Settles O30: the bounded shifts have the masks of the exact ones, and the amount's sign decides between result
and fault. -/
theorem intShift : Obligations.IntShift := by
  intro rd rs1 rs2 a c s ha hc
  refine ⟨fun h => ⟨writes_of_intCopy ha hc (ishlResult_nonneg h) rfl,
    writes_of_intInPlace_receiverShape ha hc (ishlResult_nonneg h) rfl,
    writes_of_intCopy ha hc (ishrResult_nonneg h) rfl,
    writes_of_intInPlace_receiverShape ha hc (ishrResult_nonneg h) rfl⟩, fun h => ?_⟩
  simp only [List.forall_mem_cons]
  exact ⟨takesFault_of_intCopy ha hc (ishlResult_neg h) rfl, takesFault_of_intInPlace ha hc (ishlResult_neg h) rfl,
    takesFault_of_intCopy ha hc (ishrResult_neg h) rfl, takesFault_of_intInPlace ha hc (ishrResult_neg h) rfl,
    List.forall_mem_nil _⟩

end Sys2Proof.Machine
end

section
/-! PROOFS. Integer comparisons (43_int_compare.md R230 to R236). -/

namespace Sys2Proof.Machine

/-- A comparison of two integer containers answers its relation between the reinterpreted operands (R230). -/
theorem answers_of_intCompare {i : Instr} {s : State} {rs1 rs2 : RegIdx} {a b : IntC} (rel : Int → Int → Bool)
    (ha : s.reg rs1 = .int a) (hb : s.reg rs2 = .int b) (h : exec i s = intCompare rel rs1 rs2 s) :
    Answers i s (.bit (rel (promA a b) (promB a b))) :=
  answers_of_complete (h.trans (withInt2_int ha hb))

/-- Settles O32: each command answers its relation between the promoted operands. -/
theorem intCompareCommands : Obligations.IntCompare := by
  intro rs1 rs2 a b s ha hb n g A B
  exact ⟨answers_of_intCompare relEq ha hb rfl, answers_of_intCompare relNe ha hb rfl,
    answers_of_intCompare relLt ha hb rfl, answers_of_intCompare relLe ha hb rfl,
    answers_of_intCompare relGt ha hb rfl, answers_of_intCompare relGe ha hb rfl⟩

end Sys2Proof.Machine
end

section
/-! PROOFS. Integer readouts, the bounds of a shape, byte round trips (44_int_bits_bytes.md R262 to R266, R273;
45_fp_pack_unpack.md R313). -/

namespace Sys2Proof.Machine

/-! ## Readouts (R262, R264, R265) -/

section
variable {s : State} {rs1 : RegIdx} {a : IntC} (h : s.reg rs1 = .int a)
include h

theorem answers_iread : Answers (.iread rs1) s (.int a.v) := answers_of_complete (withInt_int h)

theorem answers_imin : Answers (.imin rs1) s (.int (shapeMin a.n a.s)) := answers_of_complete (withInt_int h)

theorem answers_imax : Answers (.imax rs1) s (.int (shapeMax a.n a.s)) := answers_of_complete (withInt_int h)

end

/-- Settles O34: the answers are the value, `shapeMin` and `shapeMax` of the operand. -/
theorem intReadouts : Obligations.IntReadouts :=
  fun _ _ _ ha => ⟨answers_iread ha, answers_imin ha, answers_imax ha⟩

/-! ## The bounds of a shape (R266) -/

/-- The value of a container lies between the bounds of its shape, because it is its own mask. -/
theorem IntC.v_mem_shape {a : IntC} (h : a.wf = true) : shapeMin a.n a.s ≤ a.v ∧ a.v ≤ shapeMax a.n a.s := by
  obtain ⟨hn, -, hv⟩ := (IntC.wf_iff a).1 h
  rw [hv]
  exact mask_mem_shape hn a.s a.v

/-- Settles O35: a canonical value lies in its shape (`IntC.v_mem_shape`), and `mask_shapeMax_add_one` and
`mask_shapeMin_sub_one` wrap from one bound to the other. -/
theorem shapeBounds : Obligations.ShapeBounds := by
  intro a h lo hi
  obtain ⟨hlo, hhi⟩ := IntC.v_mem_shape h
  obtain ⟨hn, -, -⟩ := (IntC.wf_iff a).1 h
  exact ⟨hlo, hhi, mask_shapeMax_add_one hn a.s, mask_shapeMin_sub_one hn a.s,
    fun _ _ ha => ⟨answers_imin ha, answers_imax ha⟩⟩

/-! ## A store, then a load of the same shape (R273, R313) -/

/-- The container made of a container's pattern is the container (R273). -/
theorem mkInt_pattern {a : IntC} (h : a.wf = true) : mkInt a.n a.s a.pattern = a := by
  rw [mkInt, mask_pattern a h]

/-- Settles O40: the load gets the stored pattern back (`store_then_load`), and the container is made of its pattern
(`mkInt_pattern`, `fltOfPattern_pattern`). -/
theorem byteRoundTrips : Obligations.ByteRoundTrips := by
  constructor
  case left =>
    intro rd rs1 bo addr a s hs ha hr
    have hwf : a.wf = true := Inv.int hs ha
    obtain ⟨hn, -, -⟩ := (IntC.wf_iff a).1 hwf
    obtain ⟨t, ht, -, hload⟩ := store_then_load hs.2 (pattern_lt a) hr bo
    have hu : exec (.ifromb rd a.s bo a.n addr) t = writeInt t rd a := by
      rw [exec_ifromb hn, hload, mkInt_pattern hwf]
    exact ⟨t, _, (exec_itob ha bo addr).trans ht, hu, reg_of_writeInt rfl, rfl⟩
  case right =>
    intro rd rs1 bo addr x s hs hx hr
    have hwf : x.wf = true := Inv.flt hs hx
    have hP : x.pattern < 2 ^ (1 + x.e + x.m) := FltC.pattern_lt hwf
    obtain ⟨t, ht, -, hload⟩ := store_then_load hs.2 hP hr bo
    have hu : exec (.ffromb rd bo x.e x.m addr) t = writeFlt t rd x := by
      rw [exec_ffromb (widths_of_wf hwf), hload, fltOfPattern_pattern hwf]
    exact ⟨t, _, (exec_ftob hx bo addr).trans ht, hu, reg_of_writeFlt rfl, rfl⟩

end Sys2Proof.Machine
end

section
/-! PROOFS. The encode function (45_fp_pack_unpack.md R282 to R289): the exponent field, the rounded mantissa, the carry
rule, and the values of what it gives. -/

namespace Sys2Proof.Machine

/-! ## The exponent field (R283, R284) -/

theorem bias_cast (e : Nat) : (bias e : ℤ) = 2 ^ (e - 1) - 1 := by
  rw [bias, Nat.cast_sub Nat.one_le_two_pow]
  push_cast
  rfl

theorem allOnes_cast (e : Nat) : (allOnes e : ℤ) = 2 ^ e - 1 := by
  rw [allOnes, Nat.cast_sub Nat.one_le_two_pow]
  push_cast
  rfl

theorem allOnes_eq {e : Nat} (he : 1 ≤ e) : allOnes e = 2 * bias e + 1 := by
  rw [allOnes, two_pow_bias he]
  rfl

theorem encExponent_zero (e : Nat) : encExponent e 0 = 0 := if_pos rfl

/-- The greatest exponent that R284 clamps to. -/
theorem clampHigh_eq (e : Nat) : (2 : ℤ) ^ (e - 1) = bias e + 1 := by rw [bias_cast, sub_add_cancel]

/-- The least exponent that R284 clamps to: that of the smallest normal number. -/
theorem clampLow_eq (e : Nat) : -((2 : ℤ) ^ (e - 1) - 2) = 1 - bias e := by
  rw [bias_cast]
  ring

/-- The clamp of R284, its bounds said by the bias. -/
theorem encExponent_cast (e : Nat) {ne : Nat} (h : ne ≠ 0) :
    (encExponent e ne : ℤ) = min (max ((ne : ℤ) - 1023) (1 - bias e)) (bias e + 1) + bias e := by
  simp only [encExponent]
  rw [if_neg h, clampLow_eq, clampHigh_eq, Int.toNat_of_nonneg (by omega)]

section
variable {e ne : Nat} (h : ne ≠ 0)
include h

/-- In the normal range, and one above it, the exponent is re-biased alone. -/
theorem encExponent_of_mem_range (h1 : 1 - bias e ≤ (ne : ℤ) - 1023) (h2 : (ne : ℤ) - 1023 ≤ bias e + 1) :
    (encExponent e ne : ℤ) = (ne : ℤ) - 1023 + bias e := by
  rw [encExponent_cast e h, max_eq_left h1, min_eq_left h2]

theorem encExponent_of_underflow (h1 : (ne : ℤ) - 1023 < 1 - bias e) : encExponent e ne = 1 := by
  have := encExponent_cast e h
  omega

theorem encExponent_of_overflow (he : 1 ≤ e) (h1 : (bias e : ℤ) < (ne : ℤ) - 1023) :
    encExponent e ne = allOnes e := by
  have := encExponent_cast e h
  have := allOnes_eq he
  omega

end

/-- Infinities and NaNs keep the largest exponent in every width. -/
theorem encExponent_2047 {e : Nat} (he1 : 1 ≤ e) (he2 : e ≤ 11) : encExponent e 2047 = allOnes e := by
  have := bias_lt he2
  exact encExponent_of_overflow (by decide) he1 (by omega)

/-- The exponent field of 11 bits is the native one. -/
theorem encExponent_11 {ne : Nat} (h : ne < 2048) : encExponent 11 ne = ne := by
  rcases Nat.eq_zero_or_pos ne with rfl | h0
  · rfl
  · have hb : bias 11 = 1023 := rfl
    have := encExponent_of_mem_range (e := 11) h0.ne' (by omega) (by omega)
    omega

/-! ## The rounded mantissa (R285, R286) -/

/-- The mantissa after rounding and before the carry rule: `M' = T + rb` (R286). -/
def encRounded (m N : Nat) : Nat := encTruncated m N + encRoundBit m N

theorem encRounded_le {m N : Nat} (hm : m ≤ 52) (hN : N < 2 ^ 52) : encRounded m N ≤ 2 ^ m := by
  have := encTruncated_lt hm hN
  have := encRoundBit_le m N
  unfold encRounded
  omega

/-- A mantissa with nothing below the cut is kept. -/
theorem encRounded_shiftUp {m : Nat} (hm : m ≤ 52) (K : Nat) : encRounded m (K * 2 ^ (52 - m)) = K := by
  rw [encRounded, encTruncated, Nat.mul_div_cancel _ (by positivity), encRoundBit]
  split <;> rename_i h
  · rw [show 52 - m = 51 - m + 1 by omega, pow_succ', ← mul_assoc, Nat.mul_div_cancel _ (by positivity),
      Nat.mul_mod_left, Nat.add_zero]
  · rfl

/-- Adding the bit below the cut is adding half a unit and truncating. -/
theorem encRounded_eq_add_half_div {m : Nat} (hm : m < 52) (N : Nat) :
    encRounded m N = (N + 2 ^ (51 - m)) / 2 ^ (52 - m) := by
  rw [encRounded, encTruncated, encRoundBit, if_pos hm, show 52 - m = 51 - m + 1 by omega, pow_succ,
    ← Nat.div_div_eq_div_mul, ← Nat.div_div_eq_div_mul, Nat.add_div_right _ (by positivity)]
  omega

/-- The rounding is half up (R286). -/
theorem encRounded_eq_floor {m : Nat} (hm : m ≤ 52) (N : Nat) :
    (encRounded m N : ℤ) = ⌊(N : ℚ) / 2 ^ (52 - m) + 1 / 2⌋ := by
  rcases Nat.eq_or_lt_of_le hm with rfl | hlt
  · have hkeep : encRounded 52 N = N := by simpa using encRounded_shiftUp le_rfl N
    rw [hkeep, Nat.sub_self, pow_zero, div_one, Int.floor_natCast_add, show ⌊(1 / 2 : ℚ)⌋ = 0 by norm_num, add_zero]
  · have hadd : (N : ℚ) / 2 ^ (52 - m) + 1 / 2 = (N + 2 ^ (51 - m) : Nat) / (2 ^ (52 - m) : Nat) := by
      rw [show 52 - m = 51 - m + 1 by omega, pow_succ]
      push_cast
      field_simp
      ring
    rw [hadd, encRounded_eq_add_half_div hlt, Rat.floor_natCast_div_natCast, Int.natCast_ediv]

/-! ## The container (R287, R288) -/

section
variable {p : CarryPolicy} {b : F64} {e m : Nat}

theorem fenc_of_lt (h : encRounded m (f64Man b) < 2 ^ m) :
    fenc p b e m = ⟨e, m, f64Sign b, encExponent e (f64Exp b), encRounded m (f64Man b)⟩ := by
  have hc : encCarry p e m (encExponent e (f64Exp b)) (encRounded m (f64Man b)) = (_, _) := if_neg h.ne
  rw [fenc, ← encRounded, hc]

/-- A mantissa with nothing below the cut: the exponent field is the only one that can change. -/
theorem fenc_of_shiftUp {K : Nat} (hm : m ≤ 52) (hK : K < 2 ^ m) (h : f64Man b = K * 2 ^ (52 - m)) :
    fenc p b e m = ⟨e, m, f64Sign b, encExponent e (f64Exp b), K⟩ := by
  have hr : encRounded m (f64Man b) = K := by rw [h, encRounded_shiftUp hm]
  rw [fenc_of_lt (hr ▸ hK), hr]

section
variable (h : encRounded m (f64Man b) = 2 ^ m)
include h

theorem fenc_of_carry : fenc p b e m =
    ⟨e, m, f64Sign b, (encCarry p e m (encExponent e (f64Exp b)) (2 ^ m)).1,
      (encCarry p e m (encExponent e (f64Exp b)) (2 ^ m)).2⟩ := by
  rw [← h]
  rfl

theorem fenc_propagate_of_carry (hE : encExponent e (f64Exp b) < allOnes e) :
    fenc .propagate b e m = ⟨e, m, f64Sign b, encExponent e (f64Exp b) + 1, 0⟩ := by
  rw [fenc_of_carry h, encCarry, if_pos rfl]
  simp only [if_pos hE]

theorem fenc_propagate_of_carry_top (hE : encExponent e (f64Exp b) = allOnes e) :
    fenc .propagate b e m = ⟨e, m, f64Sign b, encExponent e (f64Exp b), 2 ^ m - 1⟩ := by
  rw [fenc_of_carry h, encCarry, if_pos rfl]
  simp only [if_neg hE.not_lt]

theorem fenc_drop_of_carry : fenc .drop b e m = ⟨e, m, f64Sign b, encExponent e (f64Exp b), 0⟩ := by
  rw [fenc_of_carry h, encCarry, if_pos rfl]

end

end

/-- The widths of binary64 keep the pattern (R289). -/
theorem fenc_11_52 (p : CarryPolicy) (b : F64) : fenc p b 11 52 = ⟨11, 52, f64Sign b, f64Exp b, f64Man b⟩ := by
  rw [fenc_of_shiftUp le_rfl (f64Man_lt b) (Nat.mul_one _).symm, encExponent_11 (f64Exp_lt b)]

/-! ## The claims on the encode function -/

theorem extractLsb'_exp (b : F64) : (b.extractLsb' 52 11).toNat = f64Exp b := by
  rw [BitVec.extractLsb'_toNat, Nat.shiftRight_eq_div_pow, f64Exp]

theorem extractLsb'_man (b : F64) : (b.extractLsb' 0 52).toNat = f64Man b := by
  rw [BitVec.extractLsb'_toNat, Nat.shiftRight_zero, f64Man]

theorem getLsbD_sign (b : F64) : b.getLsbD 63 = f64Sign b := by
  rw [BitVec.getLsbD, f64Sign, Nat.testBit_eq_decide_div_mod_eq]
  rfl

/-- `M'` with the bit below the cut read as a bit. -/
theorem encRounded_eq_testBit (m N : Nat) :
    N / 2 ^ (52 - m) + (if m < 52 then (N.testBit (51 - m)).toNat else 0) = encRounded m N := by
  rw [encRounded, encTruncated, encRoundBit, Nat.toNat_testBit]

/-- The exponent field as R284 writes it. -/
theorem encExponent_eq_clamp (e ne : Nat) :
    (if ne = 0 then 0 else min (max ((ne : ℤ) - 1023) (-(2 ^ (e - 1) - 2))) (2 ^ (e - 1)) + 2 ^ (e - 1) - 1) =
      (encExponent e ne : ℤ) := by
  split <;> rename_i h
  · rw [h, encExponent_zero, Nat.cast_zero]
  · rw [encExponent_cast e h, clampLow_eq, clampHigh_eq]
    ring

/-- Settles O43: the fields and the exponent are those of the model (`encExponent_eq_clamp`, `encRounded_eq_testBit`),
and each carry case is one equation of `fenc`. -/
theorem encodeFormula : Obligations.EncodeFormula := by
  intro p b e m he1 he2 hm1 hm2 ne N E M' x
  have hE : E = encExponent e (f64Exp b) := by
    rw [← encExponent_eq_clamp, ← extractLsb'_exp]
  have hM : M' = encRounded m (f64Man b) := by
    rw [← encRounded_eq_testBit, ← extractLsb'_man]
  rw [hE, hM, ← allOnes_cast, getLsbD_sign]
  refine ⟨fenc_wf p b ((floatWidthsOk_iff e m).2 ⟨he1, he2, hm1, hm2⟩), rfl, rfl, rfl, fun h => ?_, fun h hp hlt => ?_,
    fun h hp htop => ?_, fun h hp => ?_, encRounded_le hm2 (f64Man_lt b)⟩
  · rw [show x = _ from fenc_of_lt h]
    exact ⟨rfl, rfl⟩
  · subst hp
    rw [show x = _ from fenc_propagate_of_carry h (by exact_mod_cast hlt)]
    exact ⟨rfl, rfl⟩
  · subst hp
    rw [show x = _ from fenc_propagate_of_carry_top h (by exact_mod_cast htop)]
    exact ⟨rfl, rfl⟩
  · subst hp
    rw [show x = _ from fenc_drop_of_carry h]
    exact ⟨rfl, rfl⟩

/-- Settles O44: each consequence is a case of the exponent field, the mantissa being kept (`fenc_of_lt`). -/
theorem encodeConsequences : Obligations.EncodeConsequences := by
  refine ⟨?_, fenc_11_52, fun p => by cases p <;> decide⟩
  intro p b e m he1 he2 hm1 hm2 M' x h
  have hx : x = ⟨e, m, f64Sign b, encExponent e (f64Exp b), M'⟩ := fenc_of_lt h
  rw [hx]
  refine ⟨fun _ hu => ⟨encExponent_of_overflow (by omega) he1 hu, rfl⟩,
    fun h0 hu => ⟨encExponent_of_underflow h0 hu, rfl⟩, fun h0 => ⟨?_, rfl⟩, fun hnan hM => ⟨?_, hM⟩, ?_⟩
  · exact h0 ▸ encExponent_zero e
  · obtain ⟨h2047, -⟩ : f64Exp b = 2047 ∧ _ := by simpa [f64IsNan] using hnan
    exact h2047 ▸ encExponent_2047 he1 he2
  · rintro rfl h0
    have hb : bias 1 = 0 := rfl
    have : (encExponent 1 (f64Exp b) : ℤ) = _ := encExponent_cast 1 h0
    dsimp only
    omega

end Sys2Proof.Machine
end

section
/-! PROOFS. Values of containers and of what the decode function gives (45_fp_pack_unpack.md R290 to R292), and of
what the encode function gives in the normal range (R286). -/

namespace Sys2Proof.Machine

/-! ## The value of a container, in closed form (R291) -/

theorem slice_self (x i : Nat) : slice x i i = x / 2 ^ i % 2 := by
  rw [slice, Nat.add_sub_cancel_left, pow_one]

/-- The source's sum over the bits of a mantissa is the mantissa as a fraction. -/
theorem sum_mantissa_bits {m M : Nat} (hM : M < 2 ^ m) :
    ∑ i ∈ Finset.Icc 1 m, (slice M (m - i) (m - i) : ℚ) * (2 : ℚ) ^ (-(i : ℤ)) = M / 2 ^ m := by
  induction m generalizing M with
  | zero =>
    obtain rfl : M = 0 := by simpa using hM
    simp
  | succ m ih =>
    have hhalf : ∑ i ∈ Finset.Icc 1 m, (slice M (m + 1 - i) (m + 1 - i) : ℚ) * (2 : ℚ) ^ (-(i : ℤ)) =
        ((M / 2 : Nat) : ℚ) / 2 ^ m := by
      rw [← ih (by rw [pow_succ] at hM; omega)]
      refine Finset.sum_congr rfl fun i hi => ?_
      have hi := (Finset.mem_Icc.1 hi).2
      rw [slice_self, slice_self, Nat.div_div_eq_div_mul, ← pow_succ', show m - i + 1 = m + 1 - i by omega]
    have hbit : (M : ℚ) = 2 * (M / 2 : Nat) + (M % 2 : Nat) := by exact_mod_cast (Nat.div_add_mod M 2).symm
    rw [Finset.sum_Icc_succ_top (by omega), hhalf, slice_self, Nat.sub_self, pow_zero, Nat.div_one, zpow_neg,
      zpow_natCast, hbit, pow_succ]
    have : ((2 : ℚ) ^ m) ≠ 0 := by positivity
    field_simp

/-- A power of two with the exponent cut in two, for exponents whose sum is that of the goal. -/
theorem two_pow_mul_two_zpow (k : Nat) {i j : ℤ} (h : k + i = j) : (2 : ℚ) ^ k * 2 ^ i = 2 ^ j := by
  rw [← zpow_natCast, ← zpow_add₀ (by norm_num), h]

section
variable {x : FltC} (hM : x.M < 2 ^ x.m)
include hM

theorem FltC.mantissa_eq : x.mantissa = (if x.E = 0 then 0 else 1) + x.M / 2 ^ x.m := by
  rw [FltC.mantissa, sum_mantissa_bits hM]

/-- A container with an exponent field above 0. -/
theorem FltC.value_of_pos (h : 0 < x.E) :
    x.value = signFactor x.sg * (1 + x.M / 2 ^ x.m) * (2 : ℚ) ^ ((x.E : ℤ) - bias x.e) := by
  rw [FltC.value, FltC.mantissa_eq hM, FltC.exponent, clampLow_eq, if_neg h.ne', if_neg h.ne']
  congr 2
  ring

/-- The value in units of the last place, for the exponent `u`. -/
theorem FltC.value_of_exponent {u : ℤ} (h : 0 < x.E) (hE : (x.E : ℤ) = u + bias x.e) :
    x.value = signFactor x.sg * (2 ^ x.m + x.M) * (2 : ℚ) ^ (u - x.m) := by
  rw [FltC.value_of_pos hM h, hE, add_sub_cancel_right, ← two_pow_mul_two_zpow x.m (add_sub_cancel (x.m : ℤ) u)]
  field_simp

/-- A zero or a denormal. -/
theorem FltC.value_of_zero (h : x.E = 0) :
    x.value = signFactor x.sg * (x.M / 2 ^ x.m) * (2 : ℚ) ^ (1 - (bias x.e : ℤ)) := by
  rw [FltC.value, FltC.mantissa_eq hM, FltC.exponent, clampLow_eq, if_pos h, if_pos h, zero_add, add_zero]

end

/-! ## The value of a pattern -/

theorem f64Value_of_exp {b : F64} (h : f64Exp b ≠ 0) :
    f64Value b = signFactor (f64Sign b) * (2 ^ 52 + f64Man b) * (2 : ℚ) ^ ((f64Exp b : ℤ) - 1075) := by
  rw [f64Value, f64Dyadic, if_neg h]
  push_cast
  rfl

theorem f64Value_of_exp_zero {b : F64} (h : f64Exp b = 0) :
    f64Value b = signFactor (f64Sign b) * f64Man b * (2 : ℚ) ^ (-1074 : ℤ) := by
  rw [f64Value, f64Dyadic, if_pos h]

/-! ## The decode function is exact (R292) -/

section
variable {x : FltC} (h : x.wf = true)
include h

theorem f64Value_fdec_normal (h0 : 0 < x.E) (h1 : x.E < allOnes x.e) : f64Value (fdec x) = x.value := by
  obtain ⟨-, he2, -, hm2, -, hM⟩ := (FltC.wf_iff x).1 h
  obtain ⟨hs, hE, hN⟩ := fdec_normal h h0 h1
  have hb := bias_lt he2
  have hpow := two_pow_mul_two_zpow 52 (i := ((x.E + 1023 - bias x.e : Nat) : ℤ) - 1075) (j := x.E - bias x.e)
    (by omega)
  rw [f64Value_of_exp (by omega), FltC.value_of_pos hM h0, hs, hE, hN, ← hpow]
  push_cast
  rw [← pow_mul_pow_sub 2 hm2]
  field_simp

theorem f64Value_fdec_zero (h0 : x.E = 0) (hM0 : x.M = 0) : f64Value (fdec x) = x.value := by
  obtain ⟨-, -, -, -, -, hM⟩ := (FltC.wf_iff x).1 h
  rw [fdec_zero h h0 hM0, f64Value_f64Zero, FltC.value_of_zero hM h0, hM0]
  simp

theorem f64Value_fdec_native_denormal (h0 : x.E = 0) (hM0 : x.M ≠ 0) (he : x.e = 11) :
    f64Value (fdec x) = x.value := by
  obtain ⟨-, -, -, hm2, -, hM⟩ := (FltC.wf_iff x).1 h
  obtain ⟨hs, hE, hN⟩ := fdec_native_denormal h h0 hM0 he
  have hb : bias 11 = 1023 := rfl
  have hpow := two_pow_mul_two_zpow 52 (i := -1074) (j := 1 - bias x.e) (by rw [he, hb]; norm_num)
  rw [f64Value_of_exp_zero hE, FltC.value_of_zero hM h0, hs, hN, ← hpow, ← pow_mul_pow_sub 2 hm2, Nat.cast_mul,
    Nat.cast_pow, Nat.cast_ofNat]
  field_simp

/-- The exponent field of a decoded denormal with `e < 11`: the subtraction of R292 does not go below 0. -/
theorem f64Exp_fdec_denormal (h0 : x.E = 0) (hM0 : x.M ≠ 0) (he : x.e < 11) :
    (f64Exp (fdec x) : ℤ) = 1024 + Nat.log2 x.M - bias x.e - x.m ∧ Nat.log2 x.M < x.m ∧ 0 < f64Exp (fdec x) := by
  obtain ⟨-, -, -, hm2, -, hM⟩ := (FltC.wf_iff x).1 h
  obtain ⟨-, hE, -⟩ := fdec_denormal h h0 hM0 he
  have hlog : Nat.log2 x.M < x.m := (Nat.log2_lt hM0).2 hM
  have hpow : 2 ^ (x.e - 1) ≤ 2 ^ 9 := Nat.pow_le_pow_right (by decide) (by omega)
  unfold bias at *
  omega

theorem f64Value_fdec_denormal (h0 : x.E = 0) (hM0 : x.M ≠ 0) (he : x.e < 11) : f64Value (fdec x) = x.value := by
  obtain ⟨-, -, -, hm2, -, hM⟩ := (FltC.wf_iff x).1 h
  obtain ⟨hs, -, hN⟩ := fdec_denormal h h0 hM0 he
  obtain ⟨hE, hlog, hpos⟩ := f64Exp_fdec_denormal h h0 hM0 he
  have hpow : (2 : ℚ) ^ x.m * (2 ^ (52 - Nat.log2 x.M) * 2 ^ ((f64Exp (fdec x) : ℤ) - 1075)) =
      2 ^ (1 - (bias x.e : ℤ)) := by
    rw [two_pow_mul_two_zpow _ rfl, two_pow_mul_two_zpow]
    omega
  rw [f64Value_of_exp hpos.ne', FltC.value_of_zero hM h0, hs, hN, ← hpow,
    ← pow_mul_pow_sub 2 (hlog.le.trans hm2), Nat.cast_mul, Nat.cast_sub (Nat.log2_self_le hM0)]
  push_cast
  field_simp
  ring

/-- The classes of the containers that are neither infinities nor NaNs, as R292 treats them. -/
theorem finite_cases (h1 : x.E ≠ allOnes x.e) :
    (0 < x.E ∧ x.E < allOnes x.e) ∨ (x.E = 0 ∧ x.M = 0) ∨ (x.E = 0 ∧ x.M ≠ 0 ∧ x.e = 11) ∨
      (x.E = 0 ∧ x.M ≠ 0 ∧ x.e < 11) := by
  obtain ⟨-, he2, -, -, hE, -⟩ := (FltC.wf_iff x).1 h
  unfold allOnes at *
  omega

/-- A container that is neither an infinity nor a NaN decodes to its exact value. -/
theorem fdec_of_finite (h1 : x.E ≠ allOnes x.e) :
    f64Finite (fdec x) ∧ f64Sign (fdec x) = x.sg ∧ f64Value (fdec x) = x.value := by
  obtain ⟨he1, he2, -, hm2, -, -⟩ := (FltC.wf_iff x).1 h
  have hb := bias_lt he2
  have hones := allOnes_eq he1
  unfold f64Finite
  obtain ⟨h0, hlt⟩ | ⟨h0, hM0⟩ | ⟨h0, hM0, he⟩ | ⟨h0, hM0, he⟩ := finite_cases h h1
  · obtain ⟨hs, hE, -⟩ := fdec_normal h h0 hlt
    exact ⟨by omega, hs, f64Value_fdec_normal h h0 hlt⟩
  · have hfields : f64Exp (f64Zero x.sg) ≠ 2047 ∧ f64Sign (f64Zero x.sg) = x.sg := by cases x.sg <;> decide
    rw [← fdec_zero h h0 hM0] at hfields
    exact ⟨hfields.1, hfields.2, f64Value_fdec_zero h h0 hM0⟩
  · obtain ⟨hs, hE, -⟩ := fdec_native_denormal h h0 hM0 he
    exact ⟨by omega, hs, f64Value_fdec_native_denormal h h0 hM0 he⟩
  · obtain ⟨hs, -, -⟩ := fdec_denormal h h0 hM0 he
    obtain ⟨hE, hlog, -⟩ := f64Exp_fdec_denormal h h0 hM0 he
    exact ⟨by omega, hs, f64Value_fdec_denormal h h0 hM0 he⟩

end

/-- Settles O46: infinities, NaNs and zeros by the field, the others by `fdec_of_finite`; the closed forms are
`FltC.value_of_pos` and `FltC.value_of_zero`. -/
theorem decodeValue : Obligations.DecodeValue := by
  refine ⟨fun rs1 x s hx => answers_of_complete (withFlt_flt hx), fun x hx => ?_⟩
  obtain ⟨-, -, -, -, -, hM⟩ := (FltC.wf_iff x).1 hx
  rw [← bias_cast]
  refine ⟨fun h1 hM0 => ?_, fdec_nan, fdec_of_finite hx, fun h0 _ => FltC.value_of_pos hM h0,
    FltC.value_of_zero hM, fun h0 hM0 => ?_⟩
  · rw [fdec_inf h1 hM0]
    cases x.sg <;> rfl
  · rw [fdec_zero hx h0 hM0]
    cases x.sg <;> rfl

/-! ## The encode function in the normal range (R286) -/

/-- The value in units of the last place of `m` mantissa bits, rounded half up, is the leading one and the rounded
mantissa. -/
theorem floor_f64Value_lastPlace {b : F64} {m : Nat} (h : f64Exp b ≠ 0) (hm : m ≤ 52) :
    ⌊|f64Value b| / (2 : ℚ) ^ ((f64Exp b : ℤ) - 1023 - m) + 1 / 2⌋ = 2 ^ m + (encRounded m (f64Man b) : ℤ) := by
  have hpow := two_pow_mul_two_zpow (52 - m) (i := (f64Exp b : ℤ) - 1075) (j := (f64Exp b : ℤ) - 1023 - m) (by omega)
  have hunits : |f64Value b| / (2 : ℚ) ^ ((f64Exp b : ℤ) - 1023 - m) = (2 ^ m : ℤ) + f64Man b / 2 ^ (52 - m) := by
    rw [f64Value_of_exp h, mul_assoc, abs_signFactor_mul, abs_of_nonneg (by positivity), ← hpow,
      ← pow_mul_pow_sub 2 hm]
    push_cast
    field_simp
  rw [hunits, add_assoc, Int.floor_intCast_add, ← encRounded_eq_floor hm]

/-- Settles O45: in the normal range the exponent is re-biased alone (`encExponent_of_mem_range`), and the rounded
mantissa is a floor (`floor_f64Value_lastPlace`), whether it carries or not. -/
theorem encodeRoundsHalfUp : Obligations.EncodeRoundsHalfUp := by
  intro p b e m he1 he2 hm1 hm2 h0 u M' x hlo hhi _
  have hE : (encExponent e (f64Exp b) : ℤ) = u + bias e := encExponent_of_mem_range h0 hlo (by omega)
  have hpow : (2 : ℚ) ^ m * 2 ^ (u - m) = 2 ^ u := two_pow_mul_two_zpow m (by omega)
  have hfloor : ⌊|f64Value b| / (2 : ℚ) ^ (u - m) + 1 / 2⌋ = 2 ^ m + (M' : ℤ) := floor_f64Value_lastPlace h0 hm2
  have hle : M' ≤ 2 ^ m := encRounded_le hm2 (f64Man_lt b)
  have hpos : 0 < encExponent e (f64Exp b) := by omega
  rw [hfloor]
  push_cast
  refine ⟨fun hp => ?_, fun hp hM => ?_⟩
  · rcases Nat.lt_or_eq_of_le hle with hM | hM
    · rw [show x = _ from fenc_of_lt hM, FltC.value_of_exponent hM hpos hE]
      rfl
    · obtain rfl : p = .propagate := hp.resolve_right hM.not_lt
      have htop : encExponent e (f64Exp b) < allOnes e := by
        rw [allOnes_eq he1]
        omega
      rw [show x = _ from fenc_propagate_of_carry hM htop,
        FltC.value_of_exponent (u := u + 1) (Nat.two_pow_pos m) (Nat.succ_pos _) (by dsimp only; omega), hM,
        add_sub_right_comm, zpow_add_one₀ (by norm_num)]
      push_cast
      ring
  · subst hp
    rw [show x = _ from fenc_drop_of_carry hM, FltC.value_of_exponent (Nat.two_pow_pos m) hpos hE, ← hpow]
    push_cast
    ring

end Sys2Proof.Machine
end

section
/-! PROOFS. Decoding, then encoding (45_fp_pack_unpack.md R293); FNEG, FABS and FPOS with the default host, which do
so (46_fp_arith.md R335 to R337); FNEW and FSET (45_fp_pack_unpack.md R300, R302). -/

namespace Sys2Proof.Machine

/-! ## Round trips (R293) -/

/-- A pattern with the fields of a container, re-biased and shifted, encodes to it. -/
theorem fenc_eq_of_fields {p : CarryPolicy} {b : F64} {x : FltC} (hm : x.m ≤ 52) (hM : x.M < 2 ^ x.m)
    (hs : f64Sign b = x.sg) (hE : encExponent x.e (f64Exp b) = x.E) (hN : f64Man b = x.M * 2 ^ (52 - x.m)) :
    fenc p b x.e x.m = x := by
  rw [fenc_of_shiftUp hm hM hN, hs, hE]

section
variable (p : CarryPolicy) {x : FltC} (h : x.wf = true)
include h

theorem fenc_fdec_normal (h0 : 0 < x.E) (h1 : x.E < allOnes x.e) : fenc p (fdec x) x.e x.m = x := by
  obtain ⟨he1, he2, -, hm2, -, hM⟩ := (FltC.wf_iff x).1 h
  obtain ⟨hs, hE, hN⟩ := fdec_normal h h0 h1
  have hb := bias_lt he2
  have hones := allOnes_eq he1
  have hrebias := encExponent_of_mem_range (e := x.e) (ne := x.E + 1023 - bias x.e) (by omega) (by omega) (by omega)
  exact fenc_eq_of_fields hm2 hM hs (by rw [hE]; omega) hN

theorem fenc_fdec_zero (h0 : x.E = 0) (hM0 : x.M = 0) : fenc p (fdec x) x.e x.m = x := by
  obtain ⟨-, -, -, hm2, -, hM⟩ := (FltC.wf_iff x).1 h
  obtain ⟨hs, hE, hN⟩ := f64OfMag_fields x.sg (E := 0) (M := 0) (by decide) (by decide)
  rw [fdec_zero h h0 hM0]
  exact fenc_eq_of_fields hm2 hM hs ((congrArg _ hE).trans h0.symm) (by rw [hM0, Nat.zero_mul]; exact hN)

theorem fenc_fdec_inf (h1 : x.E = allOnes x.e) (hM0 : x.M = 0) : fenc p (fdec x) x.e x.m = x := by
  obtain ⟨he1, he2, -, hm2, -, hM⟩ := (FltC.wf_iff x).1 h
  obtain ⟨hs, hE, hN⟩ := f64OfMag_fields x.sg (E := 2047) (M := 0) (by decide) (by decide)
  rw [fdec_inf h1 hM0]
  refine fenc_eq_of_fields hm2 hM hs ?_ (by rw [hM0, Nat.zero_mul]; exact hN)
  rw [h1, ← encExponent_2047 he1 he2]
  exact congrArg _ hE

theorem fenc_fdec_native_denormal (h0 : x.E = 0) (hM0 : x.M ≠ 0) (he : x.e = 11) : fenc p (fdec x) x.e x.m = x := by
  obtain ⟨-, -, -, hm2, -, hM⟩ := (FltC.wf_iff x).1 h
  obtain ⟨hs, hE, hN⟩ := fdec_native_denormal h h0 hM0 he
  exact fenc_eq_of_fields hm2 hM hs (by rw [hE, encExponent_zero, h0]) hN

/-- Normal numbers, zeros and infinities survive. -/
theorem fenc_fdec_self (hx : (0 < x.E ∧ x.E < allOnes x.e) ∨ x.M = 0) : fenc p (fdec x) x.e x.m = x := by
  by_cases h1 : x.E = allOnes x.e
  · exact fenc_fdec_inf p h h1 (hx.resolve_left fun hn => hn.2.ne h1)
  · obtain ⟨h0, hlt⟩ | ⟨h0, hM0⟩ | ⟨h0, hM0, -⟩ | ⟨h0, hM0, -⟩ := finite_cases h h1
    · exact fenc_fdec_normal p h h0 hlt
    · exact fenc_fdec_zero p h h0 hM0
    · omega
    · omega

/-- A NaN becomes the one NaN of R293. -/
theorem fenc_fdec_nan (h1 : x.E = allOnes x.e) (hM0 : x.M ≠ 0) :
    fenc p (fdec x) x.e x.m = ⟨x.e, x.m, false, allOnes x.e, 2 ^ (x.m - 1)⟩ := by
  obtain ⟨he1, he2, hm1, hm2, -, -⟩ := (FltC.wf_iff x).1 h
  have hman : (2 : Nat) ^ 51 = 2 ^ (x.m - 1) * 2 ^ (52 - x.m) := by
    rw [← pow_add, show x.m - 1 + (52 - x.m) = 51 by omega]
  rw [fdec_nan h1 hM0]
  exact fenc_eq_of_fields (x := ⟨x.e, x.m, false, allOnes x.e, 2 ^ (x.m - 1)⟩) hm2
    (Nat.pow_lt_pow_right (by decide) (Nat.sub_lt hm1 one_pos)) rfl (encExponent_2047 he1 he2) hman

/-- A denormal with `e < 11` gets the smallest normal exponent and keeps the bits below its leading one. -/
theorem fenc_fdec_denormal (h0 : x.E = 0) (hM0 : x.M ≠ 0) (he : x.e < 11) : fenc p (fdec x) x.e x.m =
    ⟨x.e, x.m, x.sg, 1, (x.M - 2 ^ Nat.log2 x.M) * 2 ^ (x.m - Nat.log2 x.M)⟩ := by
  obtain ⟨-, -, -, hm2, -, -⟩ := (FltC.wf_iff x).1 h
  obtain ⟨hs, -, hN⟩ := fdec_denormal h h0 hM0 he
  obtain ⟨hE, hlog, hpos⟩ := f64Exp_fdec_denormal h h0 hM0 he
  have hlow : x.M - 2 ^ Nat.log2 x.M < 2 ^ Nat.log2 x.M := by
    have hhi : x.M < 2 ^ (Nat.log2 x.M + 1) := Nat.lt_log2_self
    rw [pow_succ] at hhi
    omega
  have hM : (x.M - 2 ^ Nat.log2 x.M) * 2 ^ (x.m - Nat.log2 x.M) < 2 ^ x.m :=
    calc _ < 2 ^ Nat.log2 x.M * 2 ^ (x.m - Nat.log2 x.M) := Nat.mul_lt_mul_of_pos_right hlow (by positivity)
      _ = 2 ^ x.m := pow_mul_pow_sub 2 hlog.le
  have hman : f64Man (fdec x) = (x.M - 2 ^ Nat.log2 x.M) * 2 ^ (x.m - Nat.log2 x.M) * 2 ^ (52 - x.m) := by
    rw [hN, mul_assoc, ← pow_add, show x.m - Nat.log2 x.M + (52 - x.m) = 52 - Nat.log2 x.M by omega]
  have hone : encExponent x.e (f64Exp (fdec x)) = 1 := encExponent_of_underflow hpos.ne' (by omega)
  exact fenc_eq_of_fields (x := ⟨x.e, x.m, x.sg, 1, _⟩) hm2 hM hs hone hman

end

/-- Settles O47: one lemma per class of container; a decoded denormal with `e < 11` is a normal number
(`f64Exp_fdec_denormal`), which the encode function clamps to the exponent field 1. -/
theorem decodeEncodeRoundTrips : Obligations.DecodeEncodeRoundTrips := by
  intro p x h
  refine ⟨fenc_fdec_self p h, fenc_fdec_nan p h, fun h0 hM0 he => ?_, fenc_fdec_native_denormal p h⟩
  have h1 : x.E ≠ allOnes x.e := by
    rw [allOnes_eq ((FltC.wf_iff x).1 h).1]
    omega
  have hone : (fenc p (fdec x) x.e x.m).E = 1 := congrArg FltC.E (fenc_fdec_denormal p h h0 hM0 he)
  obtain ⟨-, -, hpos⟩ := f64Exp_fdec_denormal h h0 hM0 he
  refine ⟨hpos.ne', (fdec_of_finite h h1).1, hone, fun heq => ?_⟩
  rw [heq, h0] at hone
  exact absurd hone (by decide)

/-! ## Patterns that differ in the sign alone -/

/-- Encoding acts on the sign by itself: it is copied (R282). -/
theorem fenc_of_mag_eq (p : CarryPolicy) {b c : F64} (h : f64Mag b = f64Mag c) (e m : Nat) :
    fenc p b e m = { fenc p c e m with sg := f64Sign b } := by
  have hE : f64Exp b = f64Exp c := by rw [← f64Mag_div, h, f64Mag_div]
  have hN : f64Man b = f64Man c := by rw [← f64Mag_mod, h, f64Mag_mod]
  rw [fenc, fenc, hE, hN]

/-- Clearing bit 63 leaves the rest of the pattern. -/
theorem refAbs_toNat (b : F64) : (refAbs b).toNat = f64Mag b := by
  rw [refAbs, BitVec.toNat_and, f64Mag]
  exact Nat.and_two_pow_sub_one_eq_mod b.toNat 63

theorem refAbs_mag (b : F64) : f64Mag (refAbs b) = f64Mag b := by
  rw [f64Mag, refAbs_toNat, f64Mag, Nat.mod_mod]

theorem refAbs_sign (b : F64) : f64Sign (refAbs b) = false := by
  rw [f64Sign, refAbs_toNat, f64Mag, Nat.div_eq_of_lt (Nat.mod_lt _ (by positivity))]
  rfl

/-! ## Commands -/

section
variable {s : State} {rd rs1 : RegIdx} {a x : FltC} {i : Instr} {op : F64 → F64}

theorem writes_fltUnary (ha : s.reg rs1 = .flt a) (hi : exec i s = fltUnary op rd rs1 s) :
    Writes i s rd (.flt (fenc s.config.carryPolicy (op (fdec a)) a.e a.m)) :=
  writes_of_writeFlt (hi.trans (withFlt_flt ha))

/-- The default host's sign commands, by what decoding and encoding alone give: they act on its sign. -/
theorem writes_sign_commands (ha : s.reg rs1 = .flt a) (hh : s.config.host = .reference)
    (hx : fenc s.config.carryPolicy (fdec a) a.e a.m = x) :
    Writes (.fneg rd rs1) s rd (.flt { x with sg := !x.sg }) ∧
    Writes (.fabs rd rs1) s rd (.flt { x with sg := false }) ∧
    Writes (.fpos rd rs1) s rd (.flt x) := by
  have hhost : s.host = referenceHost := by rw [State.host, hh]; rfl
  have hneg : exec (.fneg rd rs1) s = fltUnary refNeg rd rs1 s := by rw [exec, execFneg, hhost, referenceHost]
  have habs : exec (.fabs rd rs1) s = fltUnary refAbs rd rs1 s := by rw [exec, execFabs, hhost, referenceHost]
  have hpos : exec (.fpos rd rs1) s = fltUnary refPos rd rs1 s := by rw [exec, execFpos, hhost, referenceHost]
  refine ⟨?_, ?_, ?_⟩
  · have := writes_fltUnary ha hneg
    rwa [fenc_of_mag_eq _ (refNeg_mag (fdec a)), refNeg_sign, hx, show f64Sign (fdec a) = x.sg from congrArg FltC.sg hx]
      at this
  · have := writes_fltUnary ha habs
    rwa [fenc_of_mag_eq _ (refAbs_mag (fdec a)), refAbs_sign, hx] at this
  · rw [← hx]
    exact writes_fltUnary ha hpos

end

/-- Settles O49: the three commands act on the sign of what decoding and encoding give (`writes_sign_commands`), and
that is one of the round trips of R293. -/
theorem fltUnaryDefaultHost : Obligations.FltUnaryDefaultHost := by
  intro rd rs1 a s ha h hh
  refine ⟨fun hc => ?_, fun h0 hM0 he => ?_, fun h1 hM0 => ?_⟩
  · refine writes_sign_commands ha hh ?_
    obtain hn | hM0 | ⟨h0, he⟩ := hc
    · exact fenc_fdec_self _ h (.inl hn)
    · exact fenc_fdec_self _ h (.inr hM0)
    · by_cases hM0 : a.M = 0
      · exact fenc_fdec_zero _ h h0 hM0
      · exact fenc_fdec_native_denormal _ h h0 hM0 he
  · exact writes_sign_commands ha hh (fenc_fdec_denormal _ h h0 hM0 he)
  · exact writes_sign_commands ha hh (fenc_fdec_nan _ h h1 hM0)

/-- Settles O42: FNEW by its width check, FSET by its receiver's widths. -/
theorem constructFlt : Obligations.ConstructFlt := by
  intro rd b s hb
  refine ⟨fun ew mw h1 h2 h3 h4 => ?_, fun ew mw hw => ?_, fun x hx => ?_⟩
  · have hw : floatWidthsOk ew mw = true := (floatWidthsOk_iff ew mw).2 ⟨h1, h2, h3, h4⟩
    exact writes_of_writeFlt ((withHostF64_f64 hb).trans (if_pos hw))
  · have hw : ¬floatWidthsOk ew mw = true := by
      rw [floatWidthsOk_iff]
      omega
    exact takesFault_of_raise ((withHostF64_f64 hb).trans (if_neg hw))
  · exact writes_of_writeFlt ((withHostF64_f64 hb).trans (withFlt_flt hx))

end Sys2Proof.Machine
end

section
/-! PROOFS. Float commands with any host (46_fp_arith.md R330 to R356, R360 to R366): what the copying and the in-place
shape do with a value and with a fault; divisions by zero (60_exceptions.md R380); the encoded NaN result (R333). -/

namespace Sys2Proof.Machine

/-! ## What the binary float shapes do (R331, R334) -/

/-- A copying command and its in-place form write this value: the first in the promoted widths, the second in the
receiver's. -/
def WritesBoth (copy inPlace : Instr) (s : State) (rd rs1 : RegIdx) (a b : FltC) (r : F64) : Prop :=
  Writes copy s rd (.flt (fenc s.config.carryPolicy r (max a.e b.e) (max a.m b.m))) ∧
  Writes inPlace s rs1 (.flt (fenc s.config.carryPolicy r a.e a.m))

section
variable {copy inPlace : Instr} {s : State} {rd rs1 rs2 : RegIdx} {a b : FltC} {f : F64 → F64 → Except Status F64}
  (ha : s.reg rs1 = .flt a) (hb : s.reg rs2 = .flt b) (hc : exec copy s = fltCopy f rd rs1 rs2 s)
  (hi : exec inPlace s = fltInPlace f rs1 rs2 s)
include ha hb hc hi

theorem writesBoth_of_ok {r : F64} (hf : f (fdec a) (fdec b) = .ok r) : WritesBoth copy inPlace s rd rs1 a b r :=
  ⟨writes_of_writeFlt (hc.trans (by simp [fltCopy, ha, hb, hf])),
    writes_of_writeFlt (hi.trans (by simp [fltInPlace, ha, hb, hf]))⟩

theorem takesFault_of_error {e : Status} (hf : f (fdec a) (fdec b) = .error e) :
    TakesFault copy s e ∧ TakesFault inPlace s e :=
  ⟨takesFault_of_raise (hc.trans (by simp [fltCopy, ha, hb, hf])),
    takesFault_of_raise (hi.trans (by simp [fltInPlace, ha, hb, hf]))⟩

end

/-! ## Values of host operations (R331, R332, R383) -/

theorem hostValue_some {d : NanDraw} {o : Option F64} {r : F64} (h : o = some r) :
    hostValue d o = .ok (drawNan d r) := by
  rw [h, hostValue]

theorem hostValue_none {d : NanDraw} {o : Option F64} (h : o = none) : hostValue d o = .error .hostFloatFault := by
  rw [h, hostValue]

section
variable {d : NanDraw} {op : F64 → F64 → Option F64} {x y r : F64}

theorem guardZero_zero (h : f64IsZero y = true) : guardZero d op x y = .error .divideByZero := if_pos h

theorem guardZero_some (hy : f64IsZero y = false) (h : op x y = some r) : guardZero d op x y = .ok (drawNan d r) :=
  (if_neg (by rw [hy]; decide)).trans (hostValue_some h)

end

/-- The zeros are the two patterns whose bits below the sign are 0. -/
theorem f64IsZero_iff (y : F64) : f64IsZero y = true ↔ y = 0x0000000000000000#64 ∨ y = 0x8000000000000000#64 := by
  have hlt := y.isLt
  rw [f64IsZero, beq_iff_eq, f64Mag, ← BitVec.toNat_inj, ← BitVec.toNat_inj,
    show (0x0000000000000000#64).toNat = 0 from rfl, show (0x8000000000000000#64).toNat = 2 ^ 63 from rfl]
  omega

/-! ## The claims on commands -/

/-- Settles O48: each command is `fltUnary` of the host's function. -/
theorem fltUnaryCommands : Obligations.FltUnary := fun _ _ _ _ ha =>
  ⟨writes_fltUnary ha rfl, writes_fltUnary ha rfl, writes_fltUnary ha rfl⟩

/-- Settles O50: these host operations cannot fail, and one rounding follows the NaN draw. -/
theorem fltAddSubMul : Obligations.FltAddSubMul := by
  intro rd rs1 rs2 a b s ha hb drawn put own
  have hadd : WritesBoth (.fadd rd rs1 rs2) (.faddIp rs1 rs2) s rd rs1 a b (drawn (s.host.add (fdec a) (fdec b))) :=
    writesBoth_of_ok (f := faddValue s.config) ha hb rfl rfl (hostValue_some rfl)
  have hsub : WritesBoth (.fsub rd rs1 rs2) (.fsubIp rs1 rs2) s rd rs1 a b (drawn (s.host.sub (fdec a) (fdec b))) :=
    writesBoth_of_ok (f := fsubValue s.config) ha hb rfl rfl (hostValue_some rfl)
  have hmul : WritesBoth (.fmul rd rs1 rs2) (.fmulIp rs1 rs2) s rd rs1 a b (drawn (s.host.mul (fdec a) (fdec b))) :=
    writesBoth_of_ok (f := fmulValue s.config) ha hb rfl rfl (hostValue_some rfl)
  exact ⟨hadd.1, hsub.1, hmul.1, hadd.2, hsub.2, hmul.2⟩

/-- Settles O51: past the zero check the host's result is written; the default host's floor division and modulo are
total. -/
theorem fltDivision : Obligations.FltDivision := by
  refine ⟨fun rd rs1 rs2 a b s ha hb hpos hneg => ?_, fun x y => ⟨⟨_, rfl⟩, ⟨_, rfl⟩⟩⟩
  have hz : f64IsZero (fdec b) = false :=
    Bool.eq_false_iff.2 fun h => ((f64IsZero_iff _).1 h).elim hpos hneg
  exact ⟨writesBoth_of_ok ha hb rfl rfl (guardZero_some hz rfl),
    fun r hr => writesBoth_of_ok ha hb rfl rfl (guardZero_some hz hr),
    fun r hr => writesBoth_of_ok ha hb rfl rfl (guardZero_some hz hr)⟩

/-- Settles O52: the host's power is written, or its failure is HostFloatFault. -/
theorem fltPower : Obligations.FltPower := fun _ _ _ _ _ _ ha hb =>
  ⟨fun _ hr => writesBoth_of_ok ha hb rfl rfl (hostValue_some hr),
    fun hr => takesFault_of_error ha hb rfl rfl (hostValue_none hr)⟩

/-- Settles O31: the divisor is checked before the operation, in the integer and in the float shapes. -/
theorem divideByZero : Obligations.DivideByZero := by
  refine ⟨fun rd rs1 rs2 a b s ha hb hB => ?_, fun rd rs1 rs2 a b s ha hb hB => ?_⟩
  · have hguard (op : Int → Int → Int) : promoted (guardDivisor op) a b = .error .divideByZero := by
      rw [promoted, guardDivisor, if_pos (show promB a b = 0 from hB)]
    simp only [List.forall_mem_cons, List.not_mem_nil, false_implies, implies_true, and_true]
    exact ⟨takesFault_of_intCopy ha hb (hguard _) rfl, takesFault_of_intInPlace ha hb (hguard _) rfl,
      takesFault_of_intCopy ha hb (hguard _) rfl, takesFault_of_intInPlace ha hb (hguard _) rfl,
      takesFault_of_intCopy ha hb (hguard _) rfl, takesFault_of_intInPlace ha hb (hguard _) rfl⟩
  · have hz := (f64IsZero_iff _).2 hB
    simp only [List.forall_mem_cons, List.not_mem_nil, false_implies, implies_true, and_true]
    have hdiv : TakesFault (.fdiv rd rs1 rs2) s .divideByZero ∧ TakesFault (.fdivIp rs1 rs2) s .divideByZero :=
      takesFault_of_error ha hb rfl rfl (guardZero_zero hz)
    have hfdiv : TakesFault (.ffdiv rd rs1 rs2) s .divideByZero ∧ TakesFault (.ffdivIp rs1 rs2) s .divideByZero :=
      takesFault_of_error ha hb rfl rfl (guardZero_zero hz)
    have hmod : TakesFault (.fmod rd rs1 rs2) s .divideByZero ∧ TakesFault (.fmodIp rs1 rs2) s .divideByZero :=
      takesFault_of_error ha hb rfl rfl (guardZero_zero hz)
    exact ⟨hdiv.1, hdiv.2, hfdiv.1, hfdiv.2, hmod.1, hmod.2⟩

/-- A float comparison answers its relation between the decoded operands (R360). -/
theorem answers_of_fltCompare {i : Instr} {s : State} {rs1 rs2 : RegIdx} {a b : FltC} (rel : F64 → F64 → Bool)
    (ha : s.reg rs1 = .flt a) (hb : s.reg rs2 = .flt b) (h : exec i s = fltCompare rel rs1 rs2 s) :
    Answers i s (.bit (rel (fdec a) (fdec b))) :=
  answers_of_complete (h.trans (withFlt2_flt ha hb))

/-- Settles O55: each command answers the host's relation. -/
theorem fltCompareCommands : Obligations.FltCompare := fun _ _ _ _ s ha hb =>
  ⟨answers_of_fltCompare s.host.eq ha hb rfl, answers_of_fltCompare (fun x y => !s.host.eq x y) ha hb rfl,
    answers_of_fltCompare s.host.lt ha hb rfl,
    answers_of_fltCompare (fun x y => s.host.lt x y || s.host.eq x y) ha hb rfl,
    answers_of_fltCompare (fun x y => s.host.lt y x) ha hb rfl,
    answers_of_fltCompare (fun x y => s.host.lt y x || s.host.eq x y) ha hb rfl⟩

/-! ## The encoded NaN result (R333) -/

/-- Either pattern of `nan_draw` has the largest exponent and the top mantissa bit alone. -/
theorem nanPattern_fields (d : NanDraw) : f64Exp (nanPattern d) = 2047 ∧ f64Man (nanPattern d) = 2 ^ 51 := by
  cases d <;> decide

/-- Settles O57: the one mantissa bit of a drawn NaN is above every cut, so nothing carries. -/
theorem nanResult : Obligations.NanResult := by
  intro p d e m he1 he2 hm1 hm2
  obtain ⟨hE, hM⟩ := nanPattern_fields d
  have hshift : f64Man (nanPattern d) = 2 ^ (m - 1) * 2 ^ (52 - m) := by
    rw [hM, ← pow_add]
    congr 1
    omega
  refine ⟨?_, ?_, ?_⟩
  · rw [fenc_of_shiftUp hm2 (Nat.pow_lt_pow_right (by decide) (by omega)) hshift, hE, encExponent_2047 he1 he2,
      getLsbD_sign, allOnes]
  · rintro rfl
    rfl
  · rintro rfl
    rfl

end Sys2Proof.Machine
end

section
/-! PROOFS. The order of binary64 values (46_fp_arith.md R360) and the corner cases of the default host's arithmetic
(R340 to R343). A pattern's class is a range of its magnitude, and its value a strictly rising function of its key. -/

namespace Sys2Proof.Machine

/-! ## Classes by magnitude (00_scope.md R21) -/

/-- The magnitude of the infinities. -/
def infMag : Nat := 2047 * 2 ^ 52

section
variable (x : F64)

theorem f64Finite_iff : f64Finite x ↔ f64Mag x < infMag := by
  have := f64Exp_lt x
  have := f64Man_lt x
  rw [f64Finite, f64Mag_eq, infMag]
  omega

theorem f64IsInf_iff : f64IsInf x = true ↔ f64Mag x = infMag := by
  have := f64Man_lt x
  rw [f64IsInf, Bool.and_eq_true, beq_iff_eq, beq_iff_eq, f64Mag_eq, infMag]
  omega

theorem f64IsNan_iff : f64IsNan x = true ↔ infMag < f64Mag x := by
  have := f64Exp_lt x
  have := f64Man_lt x
  rw [f64IsNan, Bool.and_eq_true, beq_iff_eq, bne_iff_ne, f64Mag_eq, infMag]
  omega

theorem f64IsZero_iff_mag : f64IsZero x = true ↔ f64Mag x = 0 := beq_iff_eq

end

section
variable {x : F64}

theorem f64IsNan_eq_false_iff : f64IsNan x = false ↔ f64Mag x ≤ infMag := by
  rw [Bool.eq_false_iff, ne_eq, f64IsNan_iff, not_lt]

theorem f64IsZero_eq_false_iff : f64IsZero x = false ↔ f64Mag x ≠ 0 := by
  rw [Bool.eq_false_iff, ne_eq, f64IsZero_iff_mag]

theorem f64IsNan_of_isInf (h : f64IsInf x = true) : f64IsNan x = false :=
  f64IsNan_eq_false_iff.2 ((f64IsInf_iff x).1 h).le

theorem f64IsZero_of_isInf (h : f64IsInf x = true) : f64IsZero x = false := by
  rw [f64IsZero_eq_false_iff, (f64IsInf_iff x).1 h]
  decide

theorem f64Finite_of_isZero (h : f64IsZero x = true) : f64Finite x := by
  rw [f64Finite_iff, (f64IsZero_iff_mag x).1 h]
  decide

theorem f64IsZero_of_isNan (h : f64IsNan x = true) : f64IsZero x = false := by
  rw [f64IsNan_iff] at h
  exact f64IsZero_eq_false_iff.2 (by omega)

/-- A pattern that is no NaN is finite or an infinity. -/
theorem f64Finite_or_isInf (h : f64IsNan x = false) : f64Finite x ∨ f64IsInf x = true := by
  rw [f64Finite_iff, f64IsInf_iff]
  exact (f64IsNan_eq_false_iff.1 h).lt_or_eq

end

/-- A pattern is its sign and its magnitude. -/
theorem f64_ext_mag {x y : F64} (hs : f64Sign x = f64Sign y) (hm : f64Mag x = f64Mag y) : x = y := by
  apply BitVec.eq_of_toNat_eq
  rw [f64_toNat, f64_toNat, hs, hm]

@[simp] theorem f64Zero_sign (neg : Bool) : f64Sign (f64Zero neg) = neg := f64OfMag_sign neg (by norm_num)

@[simp] theorem f64Zero_mag (neg : Bool) : f64Mag (f64Zero neg) = 0 := f64OfMag_mag neg (by norm_num)

@[simp] theorem f64Inf_sign (neg : Bool) : f64Sign (f64Inf neg) = neg := f64OfMag_sign neg (by norm_num)

@[simp] theorem f64Inf_mag (neg : Bool) : f64Mag (f64Inf neg) = infMag := f64OfMag_mag neg (by norm_num)

theorem f64IsNan_f64Nan : f64IsNan f64Nan = true := by decide

theorem f64IsNan_refNeg (x : F64) : f64IsNan (refNeg x) = f64IsNan x := by
  rw [Bool.eq_iff_iff, f64IsNan_iff, f64IsNan_iff, refNeg_mag]

theorem f64IsInf_refNeg (x : F64) : f64IsInf (refNeg x) = f64IsInf x := by
  rw [Bool.eq_iff_iff, f64IsInf_iff, f64IsInf_iff, refNeg_mag]

/-! ## The key orders the values (R360) -/

/-- Every magnitude is a number of units of its binade, with room for one more. -/
theorem mag_units (m : Nat) : ∃ k q, m = q + k * 2 ^ 52 ∧ q < 2 ^ 53 ∧ (k = 0 ∨ 2 ^ 52 ≤ q) :=
  ⟨m / 2 ^ 52 - 1, m - (m / 2 ^ 52 - 1) * 2 ^ 52, by omega, by omega, by omega⟩

/-- The next magnitude is one unit more. -/
theorem magValue_strictMono : StrictMono magValue := by
  refine strictMono_nat_of_lt_succ fun m => ?_
  obtain ⟨k, q, rfl, hq, hk⟩ := mag_units m
  rw [show q + k * 2 ^ 52 + 1 = (q + 1) + k * 2 ^ 52 by omega, magValue_units hq.le hk,
    magValue_units (by omega) (by omega)]
  push_cast
  linarith [ulp_pos k]

theorem magValue_zero : magValue 0 = 0 := by
  rw [magValue_of_lt (by norm_num), Nat.cast_zero, zero_mul]

/-- The value that a key stands for. -/
def keyValue (k : ℤ) : ℚ := magValue k.toNat - magValue (-k).toNat

theorem keyValue_strictMono : StrictMono keyValue := by
  intro i j hij
  have hpos := magValue_strictMono.monotone (Int.toNat_le_toNat hij.le)
  have hneg := magValue_strictMono.monotone (Int.toNat_le_toNat (neg_le_neg hij.le))
  unfold keyValue
  rcases lt_or_ge i 0 with hi | hi
  · linarith [magValue_strictMono (show (-j).toNat < (-i).toNat by omega)]
  · linarith [magValue_strictMono (show i.toNat < j.toNat by omega)]

theorem f64Key_eq (x : F64) : f64Key x = if f64Sign x then -(f64Mag x : ℤ) else f64Mag x := rfl

theorem f64Value_eq_keyValue (x : F64) : f64Value x = keyValue (f64Key x) := by
  rw [f64Value_eq_magValue, f64Key_eq, keyValue, signFactor]
  cases f64Sign x <;> simp [magValue_zero]

section
variable (x y : F64)

theorem f64Value_lt_iff : f64Value x < f64Value y ↔ f64Key x < f64Key y := by
  rw [f64Value_eq_keyValue, f64Value_eq_keyValue, keyValue_strictMono.lt_iff_lt]

theorem f64Value_eq_iff : f64Value x = f64Value y ↔ f64Key x = f64Key y := by
  rw [f64Value_eq_keyValue, f64Value_eq_keyValue, keyValue_strictMono.injective.eq_iff]

end

/-- Patterns of the same value and the same sign are the same. -/
theorem f64_ext_value {x y : F64} (hs : f64Sign x = f64Sign y) (hv : f64Value x = f64Value y) : x = y := by
  refine f64_ext_mag hs ?_
  rw [f64Value_eq_iff, f64Key_eq, f64Key_eq, hs] at hv
  split at hv <;> omega

section
variable {x y : F64} (hx : f64IsNan x = false) (hy : f64IsNan y = false)
include hx hy

theorem refLt_eq : refLt x y = decide (f64Key x < f64Key y) := by simp [refLt, hx, hy]

theorem refEq_eq : refEq x y = decide (f64Key x = f64Key y) := by simp [refEq, hx, hy]

end

theorem refLt_of_isNan {x y : F64} (h : f64IsNan x = true ∨ f64IsNan y = true) : refLt x y = false := by
  obtain h | h := h <;> simp [refLt, h]

theorem refEq_of_isNan {x y : F64} (h : f64IsNan x = true ∨ f64IsNan y = true) : refEq x y = false := by
  obtain h | h := h <;> simp [refEq, h]

/-! ## Extended values of containers -/

/-- The extended real that a key stands for, for the keys of patterns that are no NaN. -/
def keyExtended (k : ℤ) : WithBot (WithTop ℚ) :=
  if k = infMag then ((⊤ : WithTop ℚ) : WithBot (WithTop ℚ)) else if k = -infMag then ⊥
  else ((keyValue k : WithTop ℚ) : WithBot (WithTop ℚ))

theorem keyExtended_strictMonoOn : StrictMonoOn keyExtended (Set.Icc (-infMag) infMag) := by
  rintro i ⟨hi, -⟩ j ⟨-, hj⟩ hij
  unfold keyExtended
  rw [if_neg (show i ≠ infMag by omega), if_neg (show j ≠ -infMag by omega)]
  split <;> split
  · exact WithBot.bot_lt_coe _
  · exact WithBot.bot_lt_coe _
  · exact WithBot.coe_lt_coe.2 (WithTop.coe_lt_top _)
  · exact WithBot.coe_lt_coe.2 (WithTop.coe_lt_coe.2 (keyValue_strictMono hij))

theorem f64Key_mem_of_not_nan {x : F64} (h : f64IsNan x = false) : f64Key x ∈ Set.Icc (-(infMag : ℤ)) infMag := by
  have := f64IsNan_eq_false_iff.1 h
  rw [f64Key_eq, Set.mem_Icc]
  split <;> omega

/-- The extended value of a container that is no NaN (R291, R360). -/
def FltC.extended (c : FltC) : WithBot (WithTop ℚ) :=
  if c.E = allOnes c.e then (if c.sg then ⊥ else ((⊤ : WithTop ℚ) : WithBot (WithTop ℚ)))
  else ((c.value : WithTop ℚ) : WithBot (WithTop ℚ))

section
variable {a b : FltC} (ha : a.wf = true) (hb : b.wf = true)

include ha in
/-- A container decodes to a NaN exactly if it is one. -/
theorem f64IsNan_fdec : f64IsNan (fdec a) = a.isNan := by
  by_cases h1 : a.E = allOnes a.e
  · by_cases hM0 : a.M = 0
    · rw [fdec_inf h1 hM0, f64IsNan_eq_false_iff.2 (f64Inf_mag _).le, FltC.isNan, hM0]
      simp
    · rw [fdec_nan h1 hM0, f64IsNan_f64Nan, FltC.isNan]
      simp [h1, hM0]
  · rw [f64IsNan_of_finite (fdec_of_finite ha h1).1, FltC.isNan]
    simp [h1]

include ha in
theorem FltC.extended_eq_keyExtended (hn : a.isNan = false) : a.extended = keyExtended (f64Key (fdec a)) := by
  by_cases h1 : a.E = allOnes a.e
  · have hM0 : a.M = 0 := by simpa [FltC.isNan, h1] using hn
    rw [FltC.extended, if_pos h1, fdec_inf h1 hM0, f64Key_eq, f64Inf_sign, f64Inf_mag, keyExtended]
    cases a.sg
    · rfl
    · rfl
  · obtain ⟨hfin, -, hvalue⟩ := fdec_of_finite ha h1
    have hmag := (f64Finite_iff _).1 hfin
    have hkey : f64Key (fdec a) ≠ infMag ∧ f64Key (fdec a) ≠ -infMag := by
      rw [f64Key_eq]
      split <;> omega
    rw [FltC.extended, if_neg h1, keyExtended, if_neg hkey.1, if_neg hkey.2, ← f64Value_eq_keyValue, hvalue]

variable (hna : a.isNan = false) (hnb : b.isNan = false)
include ha hb hna hnb

theorem refLt_fdec : refLt (fdec a) (fdec b) = decide (a.extended < b.extended) := by
  have hka := f64IsNan_fdec ha ▸ hna
  have hkb := f64IsNan_fdec hb ▸ hnb
  rw [refLt_eq hka hkb, decide_eq_decide, FltC.extended_eq_keyExtended ha hna, FltC.extended_eq_keyExtended hb hnb,
    keyExtended_strictMonoOn.lt_iff_lt (f64Key_mem_of_not_nan hka) (f64Key_mem_of_not_nan hkb)]

theorem refEq_fdec : refEq (fdec a) (fdec b) = decide (a.extended = b.extended) := by
  have hka := f64IsNan_fdec ha ▸ hna
  have hkb := f64IsNan_fdec hb ▸ hnb
  rw [refEq_eq hka hkb, decide_eq_decide, FltC.extended_eq_keyExtended ha hna, FltC.extended_eq_keyExtended hb hnb,
    keyExtended_strictMonoOn.injOn.eq_iff (f64Key_mem_of_not_nan hka) (f64Key_mem_of_not_nan hkb)]

end

theorem host_eq_referenceHost {s : State} (h : s.config.host = .reference) : s.host = referenceHost := by
  rw [State.host, h, hostOf]

/-- Settles O56: the default host compares keys, and keys of patterns that are no NaN are ordered as the extended
values (`keyExtended_strictMonoOn`). -/
theorem fltCompareValues : Obligations.FltCompareValues := by
  intro rs1 rs2 a b s ha hb hwa hwb hh
  obtain ⟨feq, fne, flt, fle, fgt, fge⟩ := fltCompareCommands rs1 rs2 a b s ha hb
  rw [host_eq_referenceHost hh] at feq fne flt fle fgt fge
  dsimp only [referenceHost] at feq fne flt fle fgt fge
  refine ⟨fun hn => ?_, fun hna hnb => ?_⟩
  · rw [← f64IsNan_fdec hwa, ← f64IsNan_fdec hwb] at hn
    rw [refEq_of_isNan hn] at feq fne fle fge
    rw [refLt_of_isNan hn] at flt fle
    rw [refLt_of_isNan hn.symm] at fgt fge
    simp only [List.forall_mem_cons, List.not_mem_nil, false_implies, implies_true, and_true]
    exact ⟨fne, feq, flt, fle, fgt, fge⟩
  · rw [refEq_fdec hwa hwb hna hnb] at feq fne fle fge
    rw [refLt_fdec hwa hwb hna hnb] at flt fle
    rw [refLt_fdec hwb hwa hnb hna] at fgt fge
    rw [← decide_not] at fne
    rw [← Bool.decide_or, decide_eq_decide.2 le_iff_lt_or_eq.symm] at fle
    rw [← Bool.decide_or, decide_eq_decide.2 (le_iff_lt_or_eq.trans (or_congr_right eq_comm)).symm] at fge
    exact ⟨feq, fne, flt, fle, fgt, fge⟩

/-! ## Corner cases of the default host (R340 to R343) -/

section
variable {x y : F64}

section
variable (h : f64IsNan x = true ∨ f64IsNan y = true)
include h

theorem refAdd_of_isNan : refAdd x y = f64Nan := by rw [refAdd, if_pos (by simpa using h)]

theorem refSub_of_isNan : refSub x y = f64Nan := refAdd_of_isNan (by rwa [f64IsNan_refNeg])

theorem refMul_of_isNan : refMul x y = f64Nan := by rw [refMul, if_pos (by simpa using h)]

theorem refDiv_of_isNan : refDiv x y = f64Nan := by rw [refDiv, if_pos (by simpa using h)]

end

/-- A finite value divided by an infinity (R343). -/
theorem refDiv_inf (hx : f64Finite x) (hy : f64IsInf y = true) : refDiv x y = f64Zero (f64Sign x != f64Sign y) := by
  simp [refDiv, f64IsNan_of_finite hx, f64IsInf_of_finite hx, f64IsNan_of_isInf hy, hy]

theorem refDiv_inf_inf (hx : f64IsInf x = true) (hy : f64IsInf y = true) : refDiv x y = f64Nan := by
  simp [refDiv, f64IsNan_of_isInf hx, f64IsNan_of_isInf hy, hx, hy]

/-- A zero times an infinity, in either order (R342). -/
theorem refMul_zero_inf (hx : f64IsZero x = true) (hy : f64IsInf y = true) :
    refMul x y = f64Nan ∧ refMul y x = f64Nan := by
  have hnx := f64IsNan_of_finite (f64Finite_of_isZero hx)
  constructor <;> simp [refMul, hnx, f64IsNan_of_isInf hy, hx, hy]

/-- An infinity absorbs a finite summand. -/
theorem refAdd_finite_inf (hx : f64Finite x) (hy : f64IsInf y = true) : refAdd x y = y := by
  simp [refAdd, f64IsNan_of_finite hx, f64IsInf_of_finite hx, f64IsNan_of_isInf hy, hy]

theorem refAdd_inf_finite (hx : f64IsInf x = true) (hy : f64Finite y) : refAdd x y = x := by
  simp [refAdd, f64IsNan_of_isInf hx, f64IsNan_of_finite hy, f64IsInf_of_finite hy, hx]

/-- An infinity minus itself (R341). -/
theorem refSub_inf_self (hx : f64IsInf x = true) : refSub x x = f64Nan := by
  simp [refSub, refAdd, f64IsNan_refNeg, f64IsInf_refNeg, f64IsNan_of_isInf hx, hx, refNeg_sign]

/-- A pattern and its negation differ in the sign of the dyadic. -/
theorem f64Dyadic_refNeg (y : F64) : f64Dyadic (refNeg y) = { f64Dyadic y with neg := !f64Sign y } := by
  unfold f64Dyadic
  rw [← f64Mag_div, ← f64Mag_mod, refNeg_mag, f64Mag_div, f64Mag_mod, refNeg_sign]
  split <;> rfl

/-- A finite value minus itself is `+0` (R341). -/
theorem refSub_self (hx : f64Finite x) : refSub x x = f64Zero false := by
  have hunits (e : ℤ) : (f64Dyadic (refNeg x)).units e = -(f64Dyadic x).units e := by
    simp only [Dyadic.units, f64Dyadic_refNeg, f64Dyadic_neg]
    cases f64Sign x <;> simp
  rw [refSub, refAdd_of_finite hx (f64Finite_refNeg hx)]
  simp only [addFinite, hunits, add_neg_cancel, if_true, f64Dyadic_neg, refNeg_sign, Bool.and_not_self]

end

/-- Settles O59: each corner is one branch of its operation. -/
theorem defaultHostCorners : Obligations.DefaultHostCorners := by
  refine ⟨by decide, by decide, fun x y hx hy => ?_, fun x y hx hy => ?_, fun x => refSub_self, fun x y hx hy => ?_,
    fun x y h => ?_⟩
  · obtain ⟨hxy, hyx⟩ := refMul_zero_inf hx hy
    rw [hxy, hyx]
    exact ⟨f64IsNan_f64Nan, f64IsNan_f64Nan⟩
  · rw [refDiv_inf_inf hx hy, f64IsNan_f64Nan]
  · rw [refDiv_inf hx hy]
    cases f64Sign x <;> cases f64Sign y <;> rfl
  · rw [refAdd_of_isNan h, refSub_of_isNan h, refMul_of_isNan h, refDiv_of_isNan h]
    exact ⟨f64IsNan_f64Nan, f64IsNan_f64Nan, f64IsNan_f64Nan, f64IsNan_f64Nan⟩

end Sys2Proof.Machine
end

section
/-! PROOFS. The default host's `fmod`, `mod` and `floordiv` (46_fp_arith.md R344, R345): a remainder and a floor are
exact values, so their one rounding changes nothing; every other operation is one correct rounding. -/

namespace Sys2Proof.Machine

/-! ## Values that rounding keeps (10_state.md R45) -/

theorem abs_f64Value (x : F64) : |f64Value x| = magValue (f64Mag x) := by
  rw [f64Value_eq_magValue, abs_signFactor_mul, abs_of_nonneg (magValue_nonneg _)]

/-- A finite value is below the overflow threshold: the greatest one is half a unit below it. -/
theorem abs_f64Value_lt_overflow {c : F64} (h : f64Finite c) : |f64Value c| < 2 ^ 1024 - 2 ^ 970 := by
  have hle : f64Mag c ≤ (2 ^ 53 - 1) + 2045 * 2 ^ 52 := by
    have := (f64Finite_iff c).1 h
    unfold infMag at this
    omega
  have hmax := magValue_strictMono.monotone hle
  rw [magValue_units (by norm_num) (by norm_num)] at hmax
  rw [abs_f64Value, overflow_threshold]
  refine hmax.trans_lt (mul_lt_mul_of_pos_right ?_ (ulp_pos 2045))
  norm_num

section
variable {q : ℚ} {r c : F64} (h : RoundsTo q r) (hc : f64Finite c)
include h hc

/-- What is rounded from no further out than a finite value is finite. -/
theorem RoundsTo.finite_of_abs_le (hq : |q| ≤ |f64Value c|) : f64Finite r := by
  obtain ⟨hnan, -, hinf, -⟩ := h
  exact (f64Finite_or_isInf hnan).resolve_right fun hr =>
    (hinf.1 hr).not_gt (hq.trans_lt (abs_f64Value_lt_overflow hc))

/-- A finite value is rounded to itself. -/
theorem RoundsTo.value_eq (hq : f64Value c = q) : f64Finite r ∧ f64Value r = q := by
  have hfin := h.finite_of_abs_le hc (by rw [hq])
  obtain ⟨-, -, -, hnear⟩ := h
  have := (hnear hfin c hc).1
  rw [hq, sub_self, abs_zero] at this
  exact ⟨hfin, sub_eq_zero.1 (abs_eq_zero.1 (le_antisymm this (abs_nonneg _)))⟩

end

/-- A mantissa of 53 bits is a value for every unit: a short one is shifted up. -/
theorem exists_magValue_eq (k : Nat) {n : Nat} (hn : n ≤ 2 ^ 53) :
    ∃ m ≤ n + k * 2 ^ 52, magValue m = n * ulp k := by
  induction k generalizing n with
  | zero => exact ⟨n, by omega, by simpa using magValue_units hn (.inl rfl)⟩
  | succ k ih =>
    rcases Nat.lt_or_ge n (2 ^ 52) with h | h
    · obtain ⟨m, hm, hv⟩ := ih (n := 2 * n) (by omega)
      refine ⟨m, by omega, ?_⟩
      rw [hv, ulp_add]
      push_cast
      ring
    · exact ⟨_, le_rfl, magValue_units hn (.inr h)⟩

theorem roundTo_sign (neg : Bool) (num den : Nat) (e : ℤ) : f64Sign (roundTo neg num den e) = neg := by
  refine f64OfMag_sign neg ?_
  unfold roundMag
  split
  · norm_num
  · dsimp only
    omega

/-- A number with a mantissa of 53 bits and an exponent of the format is rounded to itself. -/
theorem roundTo_exact (neg : Bool) {n : Nat} {e : ℤ} (hn : n < 2 ^ 53) (h1 : -1074 ≤ e) (h2 : e ≤ 971) :
    f64Finite (roundTo neg n 1 e) ∧ f64Value (roundTo neg n 1 e) = signFactor neg * (n * 2 ^ e) := by
  obtain ⟨k, hk⟩ := Int.eq_ofNat_of_zero_le (show 0 ≤ e + 1074 by omega)
  obtain ⟨m, hm, hv⟩ := exists_magValue_eq k hn.le
  have hulp : ulp k = 2 ^ e := by
    rw [ulp]
    congr 1
    omega
  have hlt : m < infMag := by
    unfold infMag
    omega
  have hlt' : m < 2 ^ 63 := hlt.trans (by decide)
  have hround := roundsTo_roundTo neg n one_pos e
  rw [Nat.cast_one, div_one] at hround
  refine hround.value_eq (c := f64OfMag neg m) ?_ ?_
  · rwa [f64Finite_iff, f64OfMag_mag neg hlt']
  · rw [f64Value_eq_magValue, f64OfMag_sign neg hlt', f64OfMag_mag neg hlt', hv, hulp]

/-! ## Dyadics of finite patterns -/

theorem f64Dyadic_man_lt (x : F64) : (f64Dyadic x).man < 2 ^ 53 := by
  have := f64Man_lt x
  unfold f64Dyadic
  split <;> dsimp only <;> omega

theorem f64Dyadic_exp_ge (x : F64) : -1074 ≤ (f64Dyadic x).exp := by
  unfold f64Dyadic
  split <;> dsimp only <;> omega

theorem f64Dyadic_exp_le {x : F64} (h : f64Finite x) : (f64Dyadic x).exp ≤ 971 := by
  have := f64Exp_lt x
  unfold f64Finite at h
  unfold f64Dyadic
  split <;> dsimp only <;> omega

/-- The integer of this sign and magnitude. -/
def withSign (neg : Bool) (n : Nat) : ℤ := if neg then -n else n

theorem withSign_cast (neg : Bool) (n : Nat) : (withSign neg n : ℚ) = signFactor neg * n := by
  rw [withSign, signFactor]
  split <;> push_cast <;> ring

theorem withSign_natAbs (neg : Bool) (n : Nat) : (withSign neg n).natAbs = n := by
  unfold withSign
  split <;> omega

/-- The truncated remainder is that of the magnitudes, with the sign of the dividend. -/
theorem withSign_tmod (neg : Bool) (n : Nat) (Y : ℤ) : (withSign neg n).tmod Y = withSign neg (n % Y.natAbs) := by
  have hnat : (n : ℤ).tmod Y = (n % Y.natAbs : Nat) := by
    obtain ⟨k, rfl | rfl⟩ := Int.eq_nat_or_neg Y
    · rw [Int.natAbs_natCast, Int.ofNat_tmod]
    · rw [Int.tmod_neg, Int.natAbs_neg, Int.natAbs_natCast, Int.ofNat_tmod]
  rw [withSign, withSign]
  split
  · rw [Int.neg_tmod, hnat]
  · exact hnat

theorem Dyadic.units_eq (d : Dyadic) (e : ℤ) : d.units e = withSign d.neg (d.man * 2 ^ (d.exp - e).toNat) := by
  rw [Dyadic.units, withSign]
  push_cast
  rfl

theorem Dyadic.units_natAbs (d : Dyadic) (e : ℤ) : (d.units e).natAbs = d.man * 2 ^ (d.exp - e).toNat := by
  rw [d.units_eq, withSign_natAbs]

theorem Dyadic.units_tmod (d : Dyadic) (e Y : ℤ) :
    (((d.units e).tmod Y : ℤ) : ℚ) = signFactor d.neg * ((d.units e).natAbs % Y.natAbs : Nat) := by
  rw [d.units_natAbs, d.units_eq, withSign_tmod, withSign_cast]

/-! ## `fmod` (R344) -/

section
variable {x y : F64}

theorem fmod_of_invalid (h : f64IsInf x = true ∨ f64IsNan x = true ∨ f64IsNan y = true) : fmod x y = f64Nan := by
  rw [fmod, if_pos (by simp only [Bool.or_eq_true]; tauto)]

theorem fmod_inf (hx : f64Finite x) (hy : f64IsInf y = true) : fmod x y = x := by
  simp [fmod, f64IsNan_of_finite hx, f64IsInf_of_finite hx, f64IsNan_of_isInf hy, f64IsZero_of_isInf hy, hy]

variable (hx : f64Finite x) (hy : f64Finite y) (hz : f64IsZero y = false)

/-- The common exponent in which `fmod` counts both operands. -/
def commonExp (x y : F64) : ℤ := min (f64Dyadic x).exp (f64Dyadic y).exp

/-- An operand of `fmod` as a number of common units. -/
def leftUnits (x y : F64) : ℤ := (f64Dyadic x).units (commonExp x y)

def rightUnits (x y : F64) : ℤ := (f64Dyadic y).units (commonExp x y)

theorem f64Value_eq_leftUnits (x y : F64) : f64Value x = leftUnits x y * 2 ^ commonExp x y :=
  (f64Dyadic x).value_eq_units (min_le_left _ _)

theorem f64Value_eq_rightUnits (x y : F64) : f64Value y = rightUnits x y * 2 ^ commonExp x y :=
  (f64Dyadic y).value_eq_units (min_le_right _ _)

/-- The operand with the lower exponent has no more units than its mantissa, and it bounds the remainder. -/
theorem units_mod_lt (hz : f64IsZero y = false) : (leftUnits x y).natAbs % (rightUnits x y).natAbs < 2 ^ 53 := by
  rw [leftUnits, rightUnits, Dyadic.units_natAbs, Dyadic.units_natAbs, commonExp]
  rcases le_total (f64Dyadic x).exp (f64Dyadic y).exp with h | h
  · rw [min_eq_left h, sub_self, Int.toNat_zero, pow_zero, mul_one]
    exact (Nat.mod_le _ _).trans_lt (f64Dyadic_man_lt x)
  · rw [min_eq_right h, sub_self, Int.toNat_zero, pow_zero, mul_one]
    exact (Nat.mod_lt _ (f64Dyadic_man_pos hz)).trans (f64Dyadic_man_lt y)

theorem f64Value_div_eq_units (x y : F64) :
    f64Value x / f64Value y = (leftUnits x y : ℚ) / rightUnits x y := by
  rw [f64Value_eq_leftUnits x y, f64Value_eq_rightUnits x y, mul_div_mul_right _ _ (by positivity)]

include hx hy hz

theorem fmod_of_finite : fmod x y =
    roundTo (f64Sign x) ((leftUnits x y).natAbs % (rightUnits x y).natAbs) 1 (commonExp x y) := by
  simp [fmod, f64IsNan_of_finite, f64IsInf_of_finite, hx, hy, hz, f64Dyadic_neg, leftUnits, rightUnits, commonExp]

theorem fmod_sign : f64Sign (fmod x y) = f64Sign x := by
  rw [fmod_of_finite hx hy hz, roundTo_sign]

/-- The remainder is exact. -/
theorem fmod_exact : f64Finite (fmod x y) ∧
    f64Value (fmod x y) = ((leftUnits x y).tmod (rightUnits x y) : ℤ) * 2 ^ commonExp x y := by
  have h1 := f64Dyadic_exp_ge x
  have h2 := f64Dyadic_exp_ge y
  have h3 := f64Dyadic_exp_le hx
  obtain ⟨hfin, hvalue⟩ := roundTo_exact (f64Sign x) (units_mod_lt (x := x) hz) (e := commonExp x y)
    (by unfold commonExp; omega) (by unfold commonExp; omega)
  rw [fmod_of_finite hx hy hz]
  refine ⟨hfin, hvalue.trans ?_⟩
  rw [leftUnits, Dyadic.units_tmod, f64Dyadic_neg, mul_assoc]

end

end Sys2Proof.Machine
end

section
/-! PROOFS. `mod` and `floordiv` of the default host (46_fp_arith.md R344, R345), one step of the algorithms at a
time. -/

namespace Sys2Proof.Machine

/-! ## Signs of values -/

section
variable {x y : F64}

theorem f64Value_eq_zero_iff : f64Value x = 0 ↔ f64IsZero x = true := by
  rw [← abs_eq_zero, abs_f64Value, ← magValue_zero, magValue_strictMono.injective.eq_iff, f64IsZero_iff_mag]

theorem f64Value_ne_zero (h : f64IsZero x = false) : f64Value x ≠ 0 := by
  rw [ne_eq, f64Value_eq_zero_iff, h]
  decide

theorem magValue_pos (h : f64IsZero x = false) : 0 < magValue (f64Mag x) := by
  rw [← abs_f64Value]
  exact abs_pos.2 (f64Value_ne_zero h)

/-- `y < 0` of the algorithms is the sign, but for zeros and NaNs. -/
theorem f64Neg_eq_sign (hn : f64IsNan y = false) (hz : f64IsZero y = false) : f64Neg y = f64Sign y := by
  rw [f64Neg, refLt_eq hn (by decide), f64Key_eq, f64Key_eq (f64Zero false), f64Zero_sign, f64Zero_mag]
  have := f64IsZero_eq_false_iff.1 hz
  cases f64Sign y <;> simp; omega

/-- Values of the same sign differ by the difference of their magnitudes. -/
theorem abs_sub_of_sign_eq (h : f64Sign x = f64Sign y) :
    |f64Value x - f64Value y| = |(|f64Value x| - |f64Value y|)| := by
  rw [abs_f64Value, abs_f64Value, f64Value_eq_magValue x, f64Value_eq_magValue y, h, ← mul_sub, abs_signFactor_mul]

/-- The sum with a smaller value of the other sign keeps the sign. -/
theorem sign_add_of_abs_lt (hs : f64Sign x ≠ f64Sign y) (h : |f64Value x| < |f64Value y|) :
    f64Value x + f64Value y ≠ 0 ∧ decide (f64Value x + f64Value y < 0) = f64Sign y := by
  have hsum : f64Value x + f64Value y = signFactor (f64Sign y) * (|f64Value y| - |f64Value x|) := by
    rw [abs_f64Value, abs_f64Value, f64Value_eq_magValue x, f64Value_eq_magValue y, Bool.eq_not_of_ne hs,
      signFactor_not]
    ring
  rw [hsum, decide_signFactor_mul_neg _ (sub_pos.2 h)]
  exact ⟨mul_ne_zero (left_ne_zero_of_mul_eq_one (signFactor_mul_self _)) (sub_pos.2 h).ne', rfl⟩

end

theorem value_f64One : f64Value f64One = 1 := by
  rw [f64Value, show f64Dyadic f64One = ⟨false, 2 ^ 52, -52⟩ by decide]
  norm_num [signFactor]

theorem value_f64Half : f64Value f64Half = 1 / 2 := by
  rw [f64Value, show f64Dyadic f64Half = ⟨false, 2 ^ 52, -53⟩ by decide]
  norm_num [signFactor]

theorem copysign_zero (y : F64) : copysign (f64Zero false) y = f64Zero (f64Sign y) := by
  rw [copysign, f64Zero_mag, f64Zero]

theorem roundsTo_refSub {x y : F64} (hx : f64Finite x) (hy : f64Finite y) :
    RoundsTo (f64Value x - f64Value y) (refSub x y) := (defaultHostRounds x y hx hy).2.1

theorem refSub_inf_finite {x y : F64} (hx : f64IsInf x = true) (hy : f64Finite y) : refSub x y = x :=
  refAdd_inf_finite hx (f64Finite_refNeg hy)

/-! ## The remainder in values (R344) -/

theorem abs_mul_two_zpow (t e : ℤ) : |(t : ℚ) * 2 ^ e| = t.natAbs * 2 ^ e := by
  rw [abs_mul, abs_of_pos (show (0 : ℚ) < 2 ^ e by positivity), Nat.cast_natAbs, Int.cast_abs]

section
variable {x y : F64} (hx : f64Finite x) (hy : f64Finite y) (hz : f64IsZero y = false)
include hx hy hz

theorem fmod_value : f64Value (fmod x y) = f64Value x - f64Value y *
    ((if 0 ≤ f64Value x / f64Value y then ⌊f64Value x / f64Value y⌋ else ⌈f64Value x / f64Value y⌉ : ℤ) : ℚ) := by
  rw [(fmod_exact hx hy hz).2, f64Value_div_eq_units, ← truncDiv_eq_round, Int.tmod_def, truncDiv,
    f64Value_eq_leftUnits x y, f64Value_eq_rightUnits x y]
  push_cast
  ring

theorem abs_fmod : |f64Value (fmod x y)| =
    ((leftUnits x y).natAbs % (rightUnits x y).natAbs : Nat) * 2 ^ commonExp x y := by
  rw [(fmod_exact hx hy hz).2, leftUnits, Dyadic.units_tmod, mul_assoc, abs_signFactor_mul,
    abs_of_nonneg (by positivity)]

theorem abs_fmod_lt : |f64Value (fmod x y)| < |f64Value y| := by
  have hy0 : rightUnits x y ≠ 0 := fun h => f64Value_ne_zero hz (by rw [f64Value_eq_rightUnits x y, h]; simp)
  rw [abs_fmod hx hy hz, f64Value_eq_rightUnits x y, abs_mul_two_zpow]
  exact mul_lt_mul_of_pos_right (Nat.cast_lt.2 (Nat.mod_lt _ (Int.natAbs_pos.2 hy0))) (by positivity)

theorem abs_fmod_le : |f64Value (fmod x y)| ≤ |f64Value x| := by
  rw [abs_fmod hx hy hz, f64Value_eq_leftUnits x y, abs_mul_two_zpow]
  exact mul_le_mul_of_nonneg_right (Nat.cast_le.2 (Nat.mod_le _ _)) (by positivity)

/-- Taking the remainder away brings the dividend no further out. -/
theorem abs_sub_fmod_le : |f64Value x - f64Value (fmod x y)| ≤ |f64Value x| := by
  have hle := abs_fmod_le hx hy hz
  rw [abs_sub_of_sign_eq (fmod_sign hx hy hz).symm, abs_of_nonneg (sub_nonneg.2 hle)]
  exact sub_le_self _ (abs_nonneg _)

end

/-! ## `mod` (R345) -/

section
variable {x y : F64} (hx : f64Finite x) (hn : f64IsNan y = false) (hz : f64IsZero y = false)

theorem fmod_finite (hx : f64Finite x) (hn : f64IsNan y = false) (hz : f64IsZero y = false) : f64Finite (fmod x y) := by
  obtain hy | hy := f64Finite_or_isInf hn
  · exact (fmod_exact hx hy hz).1
  · rwa [fmod_inf hx hy]

/-- The remainder is not 0 and has the sign that the divisor has not: the divisor is added to it. -/
def modAdjusts (x y : F64) : Bool := !f64IsZero (fmod x y) && (f64Sign (fmod x y) != f64Sign y)

theorem modAdjusts_eq_true_iff :
    modAdjusts x y = true ↔ f64IsZero (fmod x y) = false ∧ f64Sign (fmod x y) ≠ f64Sign y := by
  simp [modAdjusts]

theorem refMod_of_isZero (h : f64IsZero (fmod x y) = true) : refMod x y = f64Zero (f64Sign y) := by
  simp only [refMod, h, if_true, copysign_zero]

include hx hn hz

/-- The algorithms' own test. -/
theorem modAdjusts_eq :
    modAdjusts x y = (!f64IsZero (fmod x y) && (f64Neg y != f64Neg (fmod x y))) := by
  rw [modAdjusts]
  cases hzero : f64IsZero (fmod x y)
  · rw [f64Neg_eq_sign hn hz, f64Neg_eq_sign (f64IsNan_of_finite (fmod_finite hx hn hz)) hzero, bne_comm]
  · rfl

theorem refMod_of_not_isZero (h : f64IsZero (fmod x y) = false) :
    refMod x y = if modAdjusts x y then refAdd (fmod x y) y else fmod x y := by
  rw [modAdjusts_eq hx hn hz]
  simp only [refMod, h, Bool.false_eq_true, if_false, Bool.not_false, Bool.true_and]

theorem refMod_of_adjusts (h : modAdjusts x y = true) : refMod x y = refAdd (fmod x y) y := by
  rw [refMod_of_not_isZero hx hn hz (modAdjusts_eq_true_iff.1 h).1, if_pos h]

theorem refMod_of_adjusts_inf (h : modAdjusts x y = true) (hy : f64IsInf y = true) : refMod x y = y := by
  rw [refMod_of_adjusts hx hn hz h, refAdd_finite_inf (fmod_finite hx hn hz) hy]

theorem roundsTo_refMod (h : modAdjusts x y = true) (hy : f64Finite y) :
    RoundsTo (f64Value (fmod x y) + f64Value y) (refMod x y) := by
  rw [refMod_of_adjusts hx hn hz h]
  exact roundsTo_refAdd (fmod_finite hx hn hz) hy

/-- `mod` has the sign of the divisor. -/
theorem refMod_sign : f64IsNan (refMod x y) = false ∧ f64Sign (refMod x y) = f64Sign y := by
  cases hzero : f64IsZero (fmod x y)
  · cases hadj : modAdjusts x y
    · rw [refMod_of_not_isZero hx hn hz hzero, hadj, if_neg (by decide)]
      refine ⟨f64IsNan_of_finite (fmod_finite hx hn hz), ?_⟩
      simpa [modAdjusts, hzero] using hadj
    · obtain hy | hy := f64Finite_or_isInf hn
      · obtain ⟨hnan, hsign, -⟩ := roundsTo_refMod hx hn hz hadj hy
        obtain ⟨hne, hdec⟩ := sign_add_of_abs_lt (modAdjusts_eq_true_iff.1 hadj).2 (abs_fmod_lt hx hy hz)
        exact ⟨hnan, (hsign hne).trans hdec⟩
      · rw [refMod_of_adjusts_inf hx hn hz hadj hy]
        exact ⟨hn, rfl⟩
  · rw [refMod_of_isZero hzero, f64Zero_sign]
    exact ⟨f64IsNan_of_finite (f64Finite_of_isZero ((f64IsZero_iff_mag _).2 (f64Zero_mag _))), rfl⟩

end

/-! ## The floor (R344) -/

/-- The magnitude of the floor of `n / D` with this sign: one more below 0, unless the quotient is whole. -/
def floorMag (neg : Bool) (n D : Nat) : Nat := if neg && (n % D != 0) then n / D + 1 else n / D

theorem floor_signFactor_mul_div (neg : Bool) (n : Nat) {D : Nat} (hD : 0 < D) :
    (⌊signFactor neg * (n / D : ℚ)⌋ : ℚ) = signFactor neg * floorMag neg n D := by
  have hD' : (0 : ℚ) < D := by exact_mod_cast hD
  have hn : (n : ℚ) = D * (n / D : Nat) + (n % D : Nat) := by exact_mod_cast (Nat.div_add_mod n D).symm
  have hlt := Nat.mod_lt n hD
  rw [floorMag, hn]
  generalize n / D = q at *
  generalize n % D = r at *
  have hsplit : (D * q + r : ℚ) / D = q + r / D := by field_simp
  have hr1 : (r / D : ℚ) < 1 := (div_lt_one hD').2 (Nat.cast_lt.2 hlt)
  have hr0 : (0 : ℚ) ≤ r / D := by positivity
  rw [hsplit]
  cases neg
  · rw [signFactor, if_neg (by decide), one_mul, one_mul, Int.floor_natCast_add, Int.floor_eq_zero_iff.2 ⟨hr0, hr1⟩]
    simp
  · rw [signFactor, if_pos rfl]
    rcases Nat.eq_zero_or_pos r with rfl | hr
    · rw [Nat.cast_zero, zero_div, add_zero, neg_one_mul, ← Int.cast_natCast q, ← Int.cast_neg, Int.floor_intCast]
      simp
    · have hpos : (0 : ℚ) < r / D := div_pos (Nat.cast_pos.2 hr) hD'
      have hfloor : ⌊-1 * (q + r / D : ℚ)⌋ = -(q + 1 : ℤ) := by
        rw [Int.floor_eq_iff]
        push_cast
        constructor <;> linarith
      rw [hfloor, if_pos (by simpa using hr.ne')]
      push_cast
      ring

/-- The magnitude of a value as a fraction of natural numbers. -/
def f64Num (y : F64) : Nat := (f64Dyadic y).man * 2 ^ (f64Dyadic y).exp.toNat

def f64Den (y : F64) : Nat := 2 ^ (-(f64Dyadic y).exp).toNat

theorem f64Value_eq_fraction (y : F64) : f64Value y = signFactor (f64Sign y) * (f64Num y / f64Den y) := by
  have hscale := div_scaled (f64Dyadic y).man 1 (f64Dyadic y).exp
  rw [one_mul, Nat.cast_one, div_one] at hscale
  rw [f64Num, f64Den, hscale, ← mul_assoc, ← f64Dyadic_neg]
  rfl

section
variable {d : F64}

theorem f64Floor_of_isInf (h : f64IsInf d = true) : f64Floor d = d := by
  simp [f64Floor, h]

theorem f64Floor_of_isNan (h : f64IsNan d = true) : f64Floor d = d := by
  simp [f64Floor, h]

/-- Below an exponent of 0 the mantissa is the numerator. -/
theorem f64Value_eq_div (h : (f64Dyadic d).exp < 0) : f64Value d =
    signFactor (f64Sign d) * ((f64Dyadic d).man / (2 ^ (-(f64Dyadic d).exp).toNat : Nat)) := by
  rw [f64Value_eq_fraction, f64Num, Int.toNat_of_nonpos h.le, pow_zero, mul_one, f64Den]

theorem f64Floor_of_exp_nonneg (h : 0 ≤ (f64Dyadic d).exp) : f64Floor d = d := by
  simp [f64Floor, h]

variable (hd : f64Finite d) (hz : f64IsZero d = false)
include hd hz

theorem f64Floor_of_exp_neg (h : (f64Dyadic d).exp < 0) : f64Floor d =
    roundTo (f64Sign d) (floorMag (f64Sign d) (f64Dyadic d).man (2 ^ (-(f64Dyadic d).exp).toNat)) 1 0 := by
  simp only [f64Floor, f64IsNan_of_finite hd, f64IsInf_of_finite hd, hz, Bool.or_false, Bool.false_eq_true, if_false,
    if_neg h.not_ge, floorMag, f64Dyadic_neg]
  split <;> rfl

/-- The floor is exact and keeps the sign. -/
theorem f64Floor_exact : f64Finite (f64Floor d) ∧ f64Value (f64Floor d) = ⌊f64Value d⌋ ∧
    f64Sign (f64Floor d) = f64Sign d := by
  rcases le_or_gt 0 (f64Dyadic d).exp with h | h
  · rw [f64Floor_of_exp_nonneg h]
    have hunits : f64Value d = (f64Dyadic d).units 0 :=
      ((f64Dyadic d).value_eq_units h).trans (by rw [zpow_zero, mul_one])
    refine ⟨hd, ?_, rfl⟩
    rw [hunits, Int.floor_intCast]
  · have hman := f64Dyadic_man_lt d
    have hD : 2 ≤ 2 ^ (-(f64Dyadic d).exp).toNat := Nat.le_self_pow (by omega) 2
    have hlt : floorMag (f64Sign d) (f64Dyadic d).man (2 ^ (-(f64Dyadic d).exp).toNat) < 2 ^ 53 := by
      have := Nat.div_le_div_left (a := (f64Dyadic d).man) hD (by norm_num)
      unfold floorMag
      split <;> omega
    obtain ⟨hfin, hvalue⟩ := roundTo_exact (f64Sign d) hlt (e := 0) (by decide) (by decide)
    rw [f64Floor_of_exp_neg hd hz h, f64Value_eq_div h, floor_signFactor_mul_div _ _ (by omega)]
    refine ⟨hfin, ?_, roundTo_sign _ _ _ _⟩
    rw [hvalue, zpow_zero, mul_one]

end

/-! ## `floordiv` (R344) -/

/-- The quotient of `floordiv` before its floor, less one where the remainder has the other sign. -/
def floordivQuotient (x y : F64) : F64 :=
  if modAdjusts x y then refSub (refDiv (refSub x (fmod x y)) y) f64One else refDiv (refSub x (fmod x y)) y

/-- The last step of `floordiv`: the floor, or one more where the quotient is nearer to that. -/
def nearFloor (d : F64) : F64 :=
  if refLt f64Half (refSub d (f64Floor d)) then refAdd (f64Floor d) f64One else f64Floor d

section
variable {d : F64}

theorem nearFloor_of_isInf (h : f64IsInf d = true) : nearFloor d = d := by
  rw [nearFloor, f64Floor_of_isInf h, refSub_inf_self h, refLt_of_isNan (.inr f64IsNan_f64Nan), if_neg (by decide)]

theorem nearFloor_of_isNan (h : f64IsNan d = true) : nearFloor d = d := by
  rw [nearFloor, f64Floor_of_isNan h, refSub_of_isNan (.inl h), refLt_of_isNan (.inr f64IsNan_f64Nan),
    if_neg (by decide)]

theorem nearFloor_zero_sub_one (neg : Bool) : f64IsZero (refSub (f64Zero neg) f64One) = false ∧
    nearFloor (refSub (f64Zero neg) f64One) = f64MinusOne := by
  cases neg <;> decide +kernel

theorem refLt_f64Half {g : F64} (h : f64IsNan g = false) : refLt f64Half g = decide (1 / 2 < f64Value g) := by
  rw [refLt_eq (by decide) h, decide_eq_decide, ← f64Value_lt_iff, value_f64Half]

/-- The floor of a finite value that is not 0, and the rounded comparison with one half. -/
theorem nearFloor_of_finite (hd : f64Finite d) (hz : f64IsZero d = false) : ∃ f g : F64,
    f64Finite f ∧ f64Value f = ⌊f64Value d⌋ ∧ f64Sign f = f64Sign d ∧ RoundsTo (f64Value d - f64Value f) g ∧
    (1 / 2 < f64Value g → RoundsTo (f64Value f + 1) (nearFloor d)) ∧ (f64Value g ≤ 1 / 2 → nearFloor d = f) := by
  obtain ⟨hfin, hvalue, hsign⟩ := f64Floor_exact hd hz
  have hround := roundsTo_refSub hd hfin
  have hlt := refLt_f64Half hround.1
  refine ⟨f64Floor d, refSub d (f64Floor d), hfin, hvalue, hsign, hround, fun h => ?_, fun h => ?_⟩
  · rw [nearFloor, hlt, if_pos (decide_eq_true h), ← value_f64One]
    exact roundsTo_refAdd hfin (by unfold f64Finite; decide)
  · rw [nearFloor, hlt, if_neg (by simpa using h)]

end

section
variable {x y : F64}

/-- The last steps of the algorithm, for the quotient that its own test gives. -/
theorem refFloordiv_of_quotient {d : F64}
    (hd : (if !f64IsZero (fmod x y) && (f64Neg y != f64Neg (fmod x y)) then
      refSub (refDiv (refSub x (fmod x y)) y) f64One else refDiv (refSub x (fmod x y)) y) = d) :
    refFloordiv x y = if f64IsZero d then f64Zero (f64Sign (refDiv x y)) else nearFloor d := by
  rw [← hd, ← copysign_zero]
  rfl

/-- An operand that the algorithm has no value for makes the remainder a NaN, and every later step. -/
theorem refFloordiv_of_fmod_isNan (h : f64IsNan (fmod x y) = true) : f64IsNan (refFloordiv x y) = true := by
  have hdiv : refDiv (refSub x (fmod x y)) y = f64Nan := by
    rw [refSub_of_isNan (.inr h), refDiv_of_isNan (.inl f64IsNan_f64Nan)]
  rw [refFloordiv_of_quotient (d := f64Nan) (by rw [hdiv, refSub_of_isNan (.inl f64IsNan_f64Nan), ite_self]),
    f64IsZero_of_isNan f64IsNan_f64Nan, if_neg (by decide), nearFloor_of_isNan f64IsNan_f64Nan, f64IsNan_f64Nan]

theorem refMod_of_fmod_isNan (h : f64IsNan (fmod x y) = true) : f64IsNan (refMod x y) = true := by
  simp only [refMod, f64IsZero_of_isNan h, Bool.false_eq_true, if_false]
  split
  · rw [refAdd_of_isNan (.inl h), f64IsNan_f64Nan]
  · exact h

variable (hx : f64Finite x) (hn : f64IsNan y = false) (hz : f64IsZero y = false)
include hx hn hz

theorem refDiv_sign : f64Sign (refDiv x y) = (f64Sign x != f64Sign y) := by
  obtain hy | hy := f64Finite_or_isInf hn
  · rw [refDiv_of_finite hx hy hz, roundTo_sign]
  · rw [refDiv_inf hx hy, f64Zero_sign]

theorem refFloordiv_eq : refFloordiv x y =
    if f64IsZero (floordivQuotient x y) then f64Zero (f64Sign x != f64Sign y)
    else nearFloor (floordivQuotient x y) := by
  rw [← refDiv_sign hx hn hz]
  exact refFloordiv_of_quotient (by rw [floordivQuotient, modAdjusts_eq hx hn hz])

/-- Division by an infinity: the remainder is the dividend, and what is left of it is `+0`. -/
theorem refFloordiv_inf (hy : f64IsInf y = true) :
    refFloordiv x y = if modAdjusts x y then f64MinusOne else f64Zero (f64Sign x != f64Sign y) := by
  have hq : floordivQuotient x y =
      if modAdjusts x y then refSub (f64Zero (f64Sign y)) f64One else f64Zero (f64Sign y) := by
    rw [floordivQuotient, fmod_inf hx hy, refSub_self hx, refDiv_inf (by unfold f64Finite; decide) hy, f64Zero_sign,
      Bool.false_bne]
  rw [refFloordiv_eq hx hn hz]
  by_cases hadj : modAdjusts x y = true
  · rw [if_pos hadj] at hq ⊢
    obtain ⟨hne, hnear⟩ := nearFloor_zero_sub_one (f64Sign y)
    rw [hq, hne, if_neg (by decide), hnear]
  · rw [if_neg hadj] at hq ⊢
    rw [hq, if_pos ((f64IsZero_iff_mag _).2 (f64Zero_mag _))]

/-- The difference that `floordiv` divides is finite. -/
theorem refSub_fmod_finite (hy : f64Finite y) : f64Finite (refSub x (fmod x y)) :=
  (roundsTo_refSub hx (fmod_finite hx hn hz)).finite_of_abs_le hx (abs_sub_fmod_le hx hy hz)

theorem floordivQuotient_spec (hy : f64Finite y) : ∃ a b : F64,
    RoundsTo (f64Value x - f64Value (fmod x y)) a ∧ RoundsTo (f64Value a / f64Value y) b ∧
    (modAdjusts x y = true → f64Finite b → RoundsTo (f64Value b - 1) (floordivQuotient x y)) ∧
    (modAdjusts x y = false ∨ f64IsInf b = true → floordivQuotient x y = b) := by
  have hone : f64Finite f64One := by unfold f64Finite; decide
  refine ⟨_, _, roundsTo_refSub hx (fmod_finite hx hn hz), roundsTo_refDiv (refSub_fmod_finite hx hn hz hy) hy hz,
    fun h hb => ?_, fun h => ?_⟩
  · rw [floordivQuotient, if_pos h, ← value_f64One]
    exact roundsTo_refSub hb hone
  · unfold floordivQuotient
    split <;> rename_i hadj
    · exact refSub_inf_finite (h.resolve_left (by simp [hadj])) hone
    · rfl

end

/-- Settles O60: `fmod` is exact (`fmod_exact`), `mod` adds the divisor where the signs differ, and `floordiv` takes
the steps of R344 (`floordivQuotient_spec`, `nearFloor_of_finite`); a NaN remainder makes both NaNs. -/
theorem defaultHostModulo : Obligations.DefaultHostModulo := by
  refine ⟨fun x y hx hn hz => ?_, fun x y h => ?_⟩
  · refine ⟨fun hy => ⟨fmod_finite hx hn hz, fmod_sign hx hy hz, fmod_value hx hy hz⟩, fmod_inf hx, refMod_of_isZero,
      fun hzero hadj => ?_, roundsTo_refMod hx hn hz, refMod_of_adjusts_inf hx hn hz, refMod_sign hx hn hz,
      refFloordiv_inf hx hn hz, fun hy => ?_⟩
    · rw [refMod_of_not_isZero hx hn hz hzero, show modAdjusts x y = false from hadj, if_neg (by decide)]
    · obtain ⟨a, b, ha, hb, hadjust, hkeep⟩ := floordivQuotient_spec hx hn hz hy
      rw [refFloordiv_eq hx hn hz]
      refine ⟨a, b, _, ha, hb, hadjust, hkeep, fun hd => if_pos hd, fun hd => ?_, fun hd hd0 => ?_⟩
      · rw [f64IsZero_of_isInf hd, if_neg (by decide), nearFloor_of_isInf hd]
      · rw [hd0, if_neg (by decide)]
        exact nearFloor_of_finite hd hd0
  · have hnan : f64IsNan (fmod x y) = true := by rw [fmod_of_invalid h, f64IsNan_f64Nan]
    exact ⟨hnan, refMod_of_fmod_isNan hnan, refFloordiv_of_fmod_isNan hnan⟩

end Sys2Proof.Machine
end

section
/-! PROOFS. The special cases of the float power (46_fp_arith.md R346): integer and odd exponents by their values, and
one equation per case of the spec's order. -/

namespace Sys2Proof.Machine

/-! ## Integer and odd exponents -/

theorem f64Den_pos (y : F64) : 0 < f64Den y := by
  unfold f64Den
  positivity

/-- The magnitude of an integer value. -/
def f64Quotient (y : F64) : Nat := f64Num y / f64Den y

theorem f64Num_of_dvd {y : F64} (h : f64Den y ∣ f64Num y) : f64Num y = f64Quotient y * f64Den y :=
  (Nat.div_mul_cancel h).symm

theorem f64Value_eq_int_iff (y : F64) (k : ℤ) : f64Value y = k ↔
    f64Den y ∣ f64Num y ∧ k = withSign (f64Sign y) (f64Quotient y) := by
  have hden : (f64Den y : ℚ) ≠ 0 := Nat.cast_ne_zero.2 (f64Den_pos y).ne'
  have hint (h : f64Den y ∣ f64Num y) : f64Value y = withSign (f64Sign y) (f64Quotient y) := by
    rw [withSign_cast, f64Value_eq_fraction, f64Num_of_dvd h, Nat.cast_mul, mul_div_cancel_right₀ _ hden]
  constructor
  · intro h
    have hnum : (f64Num y : ℚ) = (k.natAbs * f64Den y : Nat) := by
      rw [← div_mul_cancel₀ (f64Num y : ℚ) hden, Nat.cast_mul, Nat.cast_natAbs, Int.cast_abs, ← h, f64Value_eq_fraction,
        abs_signFactor_mul, abs_of_nonneg (by positivity)]
    have hdvd : f64Den y ∣ f64Num y := Dvd.intro_left _ (Nat.cast_injective hnum).symm
    exact ⟨hdvd, by exact_mod_cast h.symm.trans (hint hdvd)⟩
  · rintro ⟨hdvd, rfl⟩
    exact hint hdvd

/-- An exponent of two at least 0 leaves no denominator, and one at most 0 no factor. -/
theorem f64Num_f64Den_cases (y : F64) :
    (0 < (f64Dyadic y).exp ∧ f64Den y = 1 ∧ f64Num y % 2 = 0) ∨
    ((f64Dyadic y).exp ≤ 0 ∧ f64Num y = (f64Dyadic y).man) := by
  rcases lt_or_ge 0 (f64Dyadic y).exp with h | h
  · refine .inl ⟨h, by rw [f64Den, Int.toNat_of_nonpos (by omega), pow_zero], ?_⟩
    obtain ⟨k, hk⟩ : ∃ k, (f64Dyadic y).exp.toNat = k + 1 := ⟨(f64Dyadic y).exp.toNat - 1, by omega⟩
    rw [f64Num, hk, pow_succ, ← mul_assoc, Nat.mul_mod_left]
  · exact .inr ⟨h, by rw [f64Num, Int.toNat_of_nonpos h, pow_zero, mul_one]⟩

theorem f64IsInteger_iff_dvd (y : F64) : f64IsInteger y = true ↔ f64Den y ∣ f64Num y := by
  rw [f64IsInteger, beq_iff_eq, ← f64Den, ← Nat.dvd_iff_mod_eq_zero]
  obtain ⟨-, hden, -⟩ | ⟨-, hnum⟩ := f64Num_f64Den_cases y
  · rw [hden]
    exact iff_of_true (one_dvd _) (one_dvd _)
  · rw [hnum]

theorem f64IsOdd_iff_mod (y : F64) : f64IsOdd y = true ↔ f64Den y ∣ f64Num y ∧ f64Quotient y % 2 = 1 := by
  rw [f64IsOdd, Bool.and_eq_true, Bool.and_eq_true, f64IsInteger_iff_dvd, decide_eq_true_eq, beq_iff_eq, ← f64Den,
    f64Quotient]
  obtain ⟨hexp, hden, hnum⟩ | ⟨hexp, hnum⟩ := f64Num_f64Den_cases y
  · rw [hden, Nat.div_one, Nat.div_one]
    omega
  · rw [hnum]
    tauto

theorem f64IsInteger_iff (y : F64) : f64IsInteger y = true ↔ ∃ k : ℤ, f64Value y = k := by
  simp only [f64IsInteger_iff_dvd, f64Value_eq_int_iff, exists_and_left, exists_eq, and_true]

theorem f64IsOdd_iff (y : F64) : f64IsOdd y = true ↔ ∃ k : ℤ, f64Value y = 2 * k + 1 := by
  rw [f64IsOdd_iff_mod]
  constructor
  · rintro ⟨hdvd, hodd⟩
    obtain ⟨k, hk⟩ : ∃ k : ℤ, withSign (f64Sign y) (f64Quotient y) = 2 * k + 1 := by
      unfold withSign
      split
      · exact ⟨-(f64Quotient y + 1) / 2, by omega⟩
      · exact ⟨(f64Quotient y - 1) / 2, by omega⟩
    exact ⟨k, by exact_mod_cast (f64Value_eq_int_iff y _).2 ⟨hdvd, hk.symm⟩⟩
  · rintro ⟨k, hk⟩
    obtain ⟨hdvd, hquot⟩ := (f64Value_eq_int_iff y (2 * k + 1)).1 (by exact_mod_cast hk)
    refine ⟨hdvd, ?_⟩
    unfold withSign at hquot
    split at hquot <;> omega

theorem isInteger_of_isOdd {y : F64} (h : f64IsOdd y = true) : f64IsInteger y = true :=
  (f64IsInteger_iff_dvd y).2 ((f64IsOdd_iff_mod y).1 h).1

/-! ## One equation per case of the order (R346) -/

theorem f64IsZero_refNeg (x : F64) : f64IsZero (refNeg x) = f64IsZero x := by
  rw [f64IsZero, refNeg_mag, f64IsZero]

theorem f64One_mag : f64Mag f64One = 0x3FF0000000000000 := by decide

section
variable (h : HostF64) {x y : F64}

theorem hostPower_of_isZero (hy : f64IsZero y = true) : hostPower h x y = some f64One := by
  rw [hostPower, if_pos hy]

section
variable (hy : f64IsZero y = false)
include hy

theorem hostPower_of_isNan_base (hx : f64IsNan x = true) : hostPower h x y = some x := by
  simp [hostPower, hy, hx]

theorem hostPower_of_isNan_exponent (hx : f64IsNan x = false) (hn : f64IsNan y = true) :
    hostPower h x y = some (if x = f64One then f64One else y) := by
  simp [hostPower, hy, hx, hn]

theorem hostPower_of_isInf_base (hx : f64IsInf x = true) (hfin : f64Finite y) :
    hostPower h x y = some (powInfBase x y) := by
  simp [hostPower, hy, f64IsNan_of_isInf hx, f64IsNan_of_finite hfin, f64IsInf_of_finite hfin, hx]

theorem hostPower_of_isZero_base (hx : f64IsZero x = true) (hfin : f64Finite y) :
    hostPower h x y = powZeroBase x y := by
  have hxfin := f64Finite_of_isZero hx
  simp [hostPower, hy, f64IsNan_of_finite, f64IsInf_of_finite, hxfin, hfin, hx]

section
variable (hfin : f64Finite y) (hxfin : f64Finite x) (hx : f64IsZero x = false)
include hfin hxfin hx

theorem hostPower_of_positive (hs : f64Sign x = false) : hostPower h x y = powPositive h false x y := by
  simp [hostPower, hy, f64IsNan_of_finite, f64IsInf_of_finite, hxfin, hfin, hx, hs]

theorem hostPower_of_negative (hs : f64Sign x = true) : hostPower h x y =
    if f64IsInteger y then powPositive h (f64IsOdd y) (refNeg x) y else none := by
  simp [hostPower, hy, f64IsNan_of_finite, f64IsInf_of_finite, hxfin, hfin, hx, hs]

end

end

theorem hostPower_of_isInf_exponent (hx : f64IsNan x = false) (hy : f64IsInf y = true) :
    hostPower h x y = some (powInfExp x y) := by
  simp [hostPower, f64IsZero_of_isInf hy, f64IsNan_of_isInf hy, hx, hy]

/-- `pow` of a positive base with its sign changed. -/
theorem powPositive_neg : powPositive h true x y = (powPositive h false x y).map refNeg := by
  unfold powPositive
  split
  · rfl
  · dsimp only
    split <;> rfl

theorem powPositive_one : powPositive h false f64One y = some f64One := by
  rw [powPositive, if_pos rfl, if_neg (by decide)]

theorem powPositive_of_ne_one (hx : x ≠ f64One) : powPositive h false x y =
    if f64IsInf (generalPow h x y) then none else some (generalPow h x y) := by
  rw [powPositive, if_neg hx]
  rfl

theorem powPositive_not_isInf {neg : Bool} {r : F64} (hr : powPositive h neg x y = some r) : f64IsInf r = false := by
  have hplain : ∀ {r}, powPositive h false x y = some r → f64IsInf r = false := by
    intro r hr
    by_cases hx : x = f64One
    · rw [hx, powPositive_one, Option.some_inj] at hr
      rw [← hr]
      decide
    · rw [powPositive_of_ne_one h hx] at hr
      split at hr <;> rename_i hinf
      · cases hr
      · rw [← Option.some_inj.1 hr]
        exact Bool.eq_false_iff.2 hinf
  cases neg
  · exact hplain hr
  · rw [powPositive_neg, Option.map_eq_some_iff] at hr
    obtain ⟨r, hr, rfl⟩ := hr
    rw [f64IsInf_refNeg, hplain hr]

end

/-! ## The claims on special cases -/

section
variable {x y : F64}

/-- Comparing `y < 0` with `|x| < 1`, said as the spec says it (R346). -/
theorem powInfExp_eq (hy : f64IsInf y = true) (hx : f64Mag x ≠ 0x3FF0000000000000) : powInfExp x y =
    if f64Sign y = false ↔ 0x3FF0000000000000 < f64Mag x then f64Inf false else f64Zero false := by
  rw [powInfExp, f64One_mag, if_neg hx, f64Neg_eq_sign (f64IsNan_of_isInf hy) (f64IsZero_of_isInf hy)]
  refine if_congr ?_ rfl rfl
  rcases Nat.lt_or_gt_of_ne hx with h | h
  · simp [h, h.not_gt]
  · simp [h, h.not_gt]

section
variable (hy : f64Finite y) (hz : f64IsZero y = false)
include hy hz

theorem powInfBase_eq : powInfBase x y =
    if f64Sign y then (if f64IsOdd y then f64Zero (f64Sign x) else f64Zero false)
    else (if f64IsOdd y then x else f64Inf false) := by
  rw [powInfBase, f64Neg_eq_sign (f64IsNan_of_finite hy) hz, copysign_zero]

theorem powZeroBase_eq : powZeroBase x y =
    if f64Sign y then none else some (if f64IsOdd y then x else f64Zero false) := by
  rw [powZeroBase, f64Neg_eq_sign (f64IsNan_of_finite hy) hz]

end

/-- Every power of 1 is 1, a NaN exponent included. -/
theorem hostPower_of_one (h : HostF64) (y : F64) : hostPower h f64One y = some f64One := by
  cases hz : f64IsZero y
  · cases hn : f64IsNan y
    · obtain hy | hy := f64Finite_or_isInf hn
      · rw [hostPower_of_positive h hz hy (by unfold f64Finite; decide) (by decide) (by decide), powPositive_one]
      · rw [hostPower_of_isInf_exponent h (by decide) hy, powInfExp, if_pos rfl]
    · rw [hostPower_of_isNan_exponent h hz (by decide) hn, if_pos rfl]
  · exact hostPower_of_isZero h hz

theorem generalPow_of_exact (h : HostF64) {r : F64} (he : exactPow x y = some r) : generalPow h x y = r := by
  rw [generalPow, he]

theorem generalPow_of_overflow (h : HostF64) (he : exactPow x y = none) (ho : powOverflows x y = true) :
    generalPow h x y = f64Inf false := by
  rw [generalPow, he]
  exact if_pos ho

theorem generalPow_of_no_overflow (h : HostF64) (he : exactPow x y = none) (ho : powOverflows x y = false) :
    generalPow h x y = h.pow x y := by
  rw [generalPow, he]
  exact if_neg (Bool.eq_false_iff.1 ho)

/-- A finite power of finite operands, in each case of the base (R346). -/
theorem hostPower_finite_not_isInf (h : HostF64) (hx : f64Finite x) (hy : f64Finite y) {r : F64}
    (hr : hostPower h x y = some r) : f64IsInf r = false := by
  cases hz : f64IsZero y
  · cases hzx : f64IsZero x
    · cases hs : f64Sign x
      · rw [hostPower_of_positive h hz hy hx hzx hs] at hr
        exact powPositive_not_isInf h hr
      · rw [hostPower_of_negative h hz hy hx hzx hs] at hr
        split at hr
        · exact powPositive_not_isInf h hr
        · cases hr
    · rw [hostPower_of_isZero_base h hz hzx hy, powZeroBase] at hr
      split at hr
      · cases hr
      · rw [← Option.some_inj.1 hr]
        split
        · exact f64IsInf_of_finite hx
        · decide
  · rw [hostPower_of_isZero h hz, Option.some_inj] at hr
    rw [← hr]
    decide

end

/-- Settles O53: each case is one branch of `hostPower`, its tests said of values. -/
theorem powerSpecialCases : Obligations.PowerSpecialCases := by
  intro h x y isInt odd pos mag one
  have hinteger : f64IsInteger y = true ↔ isInt := f64IsInteger_iff y
  have hodd : f64IsOdd y = true ↔ odd := f64IsOdd_iff y
  have hneg : ¬pos → f64Sign y = true := eq_true_of_ne_false
  refine ⟨hostPower_of_isZero h, fun hz => ⟨hostPower_of_isNan_base h hz, hostPower_of_isNan_exponent h hz,
    fun hnx hy => ?_, fun hx hy => ?_, fun hx hy => ?_, fun hx hzx hs hy => ?_, fun hx => ?_,
    fun hx hzx hs hne hy => ?_⟩, fun hx hy r => hostPower_finite_not_isInf h hx hy⟩
  · -- the exponent is an infinity
    rw [hostPower_of_isInf_exponent h hnx hy]
    refine ⟨fun hmag => ?_, fun hmag hsame => ?_, fun hmag hdiff => ?_⟩
    · rw [powInfExp, f64One_mag, if_pos hmag]
      rfl
    · rw [powInfExp_eq hy hmag, if_pos hsame]
      rfl
    · rw [powInfExp_eq hy hmag, if_neg hdiff]
      rfl
  · -- the base is an infinity
    rw [hostPower_of_isInf_base h hz hx hy, powInfBase_eq hy hz]
    refine ⟨fun hp ho => ?_, fun hp ho => ?_, fun hp ho => ?_, fun hp ho => ?_⟩
    · rw [if_neg (Bool.eq_false_iff.1 hp), if_pos (hodd.2 ho)]
    · rw [if_neg (Bool.eq_false_iff.1 hp), if_neg (mt hodd.1 ho)]
      rfl
    · rw [if_pos (hneg hp), if_pos (hodd.2 ho)]
    · rw [if_pos (hneg hp), if_neg (mt hodd.1 ho)]
      rfl
  · -- the base is a zero
    rw [hostPower_of_isZero_base h hz hx hy, powZeroBase_eq hy hz]
    refine ⟨fun hp => ?_, fun hp ho => ?_, fun hp ho => ?_⟩
    · rw [if_pos (hneg hp)]
    · rw [if_neg (Bool.eq_false_iff.1 hp), if_pos (hodd.2 ho)]
    · rw [if_neg (Bool.eq_false_iff.1 hp), if_neg (mt hodd.1 ho)]
      rfl
  · -- the base is negative
    have hminus : hostPower h (refNeg x) y = powPositive h false (refNeg x) y :=
      hostPower_of_positive h hz hy (f64Finite_refNeg hx) (by rwa [f64IsZero_refNeg]) (by rw [refNeg_sign, hs]; rfl)
    rw [hostPower_of_negative h hz hy hx hzx hs, hminus]
    refine ⟨fun hi => if_neg (mt hinteger.1 hi), fun hi ho => ?_, fun ho => ?_⟩
    · rw [if_pos (hinteger.2 hi), Bool.eq_false_iff.2 (mt hodd.1 ho)]
    · rw [if_pos (isInteger_of_isOdd (hodd.2 ho)), hodd.2 ho, powPositive_neg]
  · -- the base is 1
    rw [hx]
    exact hostPower_of_one h y
  · -- the remaining case
    rw [hostPower_of_positive h hz hy hx hzx hs, powPositive_of_ne_one h hne]
    refine ⟨fun he ho => ?_, fun he ho => ?_⟩
    · rw [generalPow_of_overflow h he ho, if_pos (by decide)]
    · rw [generalPow_of_no_overflow h he ho]

end Sys2Proof.Machine
end

section
/-! PROOFS. The float power is exact where it is a binary64 value (46_fp_arith.md R346; 93_implementation_defined.md
I21). A positive value is `m * 2^e` with `m` odd in one way only, so `x^y = c` is one equation on odd parts and one on
exponents, and the model's search for a root follows both. -/

namespace Sys2Proof.Machine

/-! ## Odd parts -/

theorem odd_mul_two_zpow_inj_of_le {a b : Nat} (ha : Odd a) {i j : ℤ} (hij : i ≤ j)
    (h : (a : ℚ) * 2 ^ i = b * 2 ^ j) : a = b ∧ i = j := by
  obtain ⟨k, rfl⟩ := Int.le.dest hij
  have hab : a = b * 2 ^ k := by
    have h' : (a : ℚ) * 2 ^ i = b * 2 ^ k * 2 ^ i := by
      rw [h, zpow_add₀ (by norm_num), zpow_natCast]
      ring
    exact_mod_cast mul_right_cancel₀ (by positivity) h'
  obtain rfl : k = 0 := by
    by_contra hk
    exact (Nat.not_even_iff_odd.2 ha) (hab ▸ (Nat.even_pow.2 ⟨even_two, hk⟩).mul_left b)
  exact ⟨by rw [hab, pow_zero, mul_one], by simp⟩

/-- A number has one odd part and one exponent of two. -/
theorem odd_mul_two_zpow_inj {a b : Nat} (ha : Odd a) (hb : Odd b) {i j : ℤ} (h : (a : ℚ) * 2 ^ i = b * 2 ^ j) :
    a = b ∧ i = j := by
  rcases le_total i j with hij | hij
  · exact odd_mul_two_zpow_inj_of_le ha hij h
  · obtain ⟨hab, hji⟩ := odd_mul_two_zpow_inj_of_le hb hij h.symm
    exact ⟨hab.symm, hji.symm⟩

/-- With fuel for every factor of two, `oddPart` takes them all out. -/
theorem oddPart_spec {fuel m : Nat} (hm : 0 < m) (hlt : m < 2 ^ fuel) (e : ℤ) : ∃ r i, oddPart fuel m e = (r, i) ∧
    Odd r ∧ r ≤ m ∧ e ≤ i ∧ (r : ℚ) * 2 ^ i = m * 2 ^ e := by
  induction fuel generalizing m e with
  | zero => omega
  | succ fuel ih =>
    rw [oddPart]
    rcases Nat.mod_two_eq_zero_or_one m with h | h
    · obtain ⟨n, rfl⟩ := Nat.dvd_of_mod_eq_zero h
      rw [if_pos h, Nat.mul_div_cancel_left n (by decide)]
      obtain ⟨r, i, heq, hodd, hle, hi, hval⟩ := ih (m := n) (by omega) (by rw [pow_succ] at hlt; omega) (e + 1)
      refine ⟨r, i, heq, hodd, by omega, by omega, hval.trans ?_⟩
      rw [zpow_add_one₀ (by norm_num)]
      push_cast
      ring
    · rw [if_neg (by omega)]
      exact ⟨m, e, rfl, Nat.odd_iff.2 h, le_rfl, le_rfl, rfl⟩

/-- The odd part and the exponent that the model computes of a value that is not 0. -/
structure OddForm (x : F64) (m : Nat) (e : ℤ) : Prop where
  computed : oddPart 53 (f64Dyadic x).man (f64Dyadic x).exp = (m, e)
  odd : Odd m
  lt : m < 2 ^ 53
  ge : -1074 ≤ e
  value : |f64Value x| = m * 2 ^ e

theorem abs_f64Value_eq_dyadic (x : F64) : |f64Value x| = (f64Dyadic x).man * 2 ^ (f64Dyadic x).exp := by
  rw [f64Value, mul_assoc, abs_signFactor_mul, abs_of_nonneg (by positivity)]

theorem exists_oddForm {x : F64} (h : f64IsZero x = false) : ∃ m e, OddForm x m e := by
  have hlt := f64Dyadic_man_lt x
  have hge := f64Dyadic_exp_ge x
  obtain ⟨m, e, heq, hodd, hle, he, hval⟩ := oddPart_spec (f64Dyadic_man_pos h) hlt (f64Dyadic x).exp
  exact ⟨m, e, heq, hodd, by omega, by omega, by rw [abs_f64Value_eq_dyadic, hval]⟩

/-! ## Square roots and roots -/

/-- Bit by bit, the greatest number whose square is at most `m`. -/
theorem sqrtFrom_spec {m b r : Nat} (h1 : r * r ≤ m) (h2 : m < (r + 2 ^ (b + 1)) * (r + 2 ^ (b + 1))) :
    sqrtFrom m b r * sqrtFrom m b r ≤ m ∧ m < (sqrtFrom m b r + 1) * (sqrtFrom m b r + 1) := by
  induction b generalizing r with
  | zero =>
    rw [sqrtFrom]
    split <;> rename_i h
    · exact ⟨h, h2⟩
    · exact ⟨h1, not_le.1 h⟩
  | succ b ih =>
    simp only [sqrtFrom]
    split <;> rename_i h
    · refine ih h ?_
      rwa [add_assoc, ← two_mul, ← pow_succ']
    · exact ih h1 (not_le.1 h)

theorem exactSqrt_mul_self {r : Nat} (h : r * r < 2 ^ 53) : exactSqrt (r * r) = some r := by
  obtain ⟨hle, hlt⟩ := sqrtFrom_spec (m := r * r) (b := 26) (r := 0) (by omega) (h.trans (by norm_num))
  have hroot : sqrtFrom (r * r) 26 0 = r := by
    have := Nat.mul_self_le_mul_self_iff.1 hle
    have := Nat.mul_self_lt_mul_self_iff.1 hlt
    omega
  simp only [exactSqrt, hroot, if_true]

/-- A number with a square among its odd powers is a square. -/
theorem exists_mul_self_of_pow_eq_sq {m N s : Nat} (hN : Odd N) (hm : 0 < m) (h : m ^ N = s ^ 2) : ∃ r, m = r * r := by
  obtain ⟨j, rfl⟩ := hN
  rw [pow_succ, mul_comm 2 j, pow_mul] at h
  obtain ⟨t, rfl⟩ := (Nat.pow_dvd_pow_iff two_ne_zero).1 (Dvd.intro _ h)
  rw [mul_pow] at h
  exact ⟨t, (mul_left_cancel₀ (by positivity) h).trans (sq t)⟩

/-- `exactRoot` with any function in the place of its square root. -/
def rootWith (sqrt : Nat → Option Nat) : Nat → Nat → Int → Option (Nat × Int)
  | 0, m, e => some (m, e)
  | k + 1, m, e =>
    if e % 2 = 0 then
      match sqrt m with
      | some r => rootWith sqrt k r (e / 2)
      | none => none
    else none

/-- The kernel would evaluate the square root to unfold `exactRoot` once; a variable in its place keeps it from that. -/
theorem exactRoot_eq_rootWith (k m : Nat) (e : ℤ) : exactRoot k m e = rootWith exactSqrt k m e := by
  delta exactRoot; delta rootWith; rfl

theorem exactRoot_succ {k m r : Nat} {e : ℤ} (he : e % 2 = 0) (hm : exactSqrt m = some r) :
    exactRoot (k + 1) m e = exactRoot k r (e / 2) := by
  rw [exactRoot_eq_rootWith, exactRoot_eq_rootWith, rootWith, if_pos he, hm]

/-- Where `m^N * 2^(e*N)` is a `2^k`-th power, for an odd `N`, the search finds a root `r * 2^i` of `m * 2^e`. -/
theorem exactRoot_spec {k m N c : Nat} {e ec : ℤ} (hm : 0 < m) (hlt : m < 2 ^ 53) (hN : k = 0 ∨ Odd N)
    (hc : c ^ 2 ^ k = m ^ N) (he : ec * 2 ^ k = e * N) :
    ∃ r i, exactRoot k m e = some (r, i) ∧ 0 < r ∧ r ^ N = c ∧ i * N = ec := by
  induction k generalizing m e with
  | zero => exact ⟨m, e, rfl, hm, by simpa using hc.symm, by simpa using he.symm⟩
  | succ k ih =>
    have hN := hN.resolve_left (by omega)
    rw [pow_succ, pow_mul] at hc
    obtain ⟨r, rfl⟩ := exists_mul_self_of_pow_eq_sq hN hm hc.symm
    have hr : 0 < r := Nat.pos_of_mul_pos_left hm
    obtain ⟨i, rfl⟩ : Even e := by
      have heven : Even (e * N) := he ▸ ((Int.even_pow.2 ⟨even_two, by omega⟩).mul_left ec)
      exact (Int.even_mul.1 heven).resolve_right (by exact_mod_cast Nat.not_even_iff_odd.2 hN)
    rw [exactRoot_succ (by omega) (exactSqrt_mul_self hlt), show (i + i) / 2 = i by omega]
    refine ih hr ((Nat.le_mul_self r).trans_lt hlt) (.inr hN) ?_ ?_
    · rw [← sq, pow_right_comm r 2 N] at hc
      exact Nat.pow_left_injective two_ne_zero hc
    · rw [pow_succ] at he
      linarith

/-! ## Powers -/

theorem exactPower_of_lt {r N : Nat} (hr : 0 < r) (h : r ^ N < 2 ^ 53) (i : ℤ) :
    exactPower r i N false = some (r ^ N, i * N) := by
  by_cases h1 : r = 1
  · simp [exactPower, h1]
  · have hN : N ≤ 53 := by
      by_contra hN
      have h2 : 2 ^ N ≤ r ^ N := Nat.pow_le_pow_left (by omega) N
      have h3 : 2 ^ 53 ≤ 2 ^ N := Nat.pow_le_pow_right (by decide) (by omega)
      omega
    simp [exactPower, h1, hN]

theorem exactPower_one_inverse (i : ℤ) (N : Nat) : exactPower 1 i N true = some (1, -(i * N)) := by
  simp [exactPower]

theorem f64Value_of_positive {x : F64} (hs : f64Sign x = false) : f64Value x = |f64Value x| := by
  rw [abs_f64Value, f64Value_eq_magValue, hs, signFactor, if_neg (by decide), one_mul]

section
variable {c : F64} {m : Nat} {e : ℤ} (hc : f64Finite c) (h : OddForm c m e)
include hc h

/-- The exponent of a finite value's leading bit. -/
theorem OddForm.log2_le : (Nat.log2 m : ℤ) + e ≤ 1023 := by
  have hm : (2 : ℚ) ^ Nat.log2 m ≤ m := by exact_mod_cast Nat.log2_self_le h.odd.pos.ne'
  have hlt : (2 : ℚ) ^ ((Nat.log2 m : ℤ) + e) < 2 ^ (1024 : ℤ) :=
    calc (2 : ℚ) ^ ((Nat.log2 m : ℤ) + e) = 2 ^ Nat.log2 m * 2 ^ e := by rw [zpow_add₀ (by norm_num), zpow_natCast]
      _ ≤ m * 2 ^ e := mul_le_mul_of_nonneg_right hm (by positivity)
      _ = |f64Value c| := h.value.symm
      _ < 2 ^ 1024 - 2 ^ 970 := abs_f64Value_lt_overflow hc
      _ < 2 ^ 1024 := sub_lt_self _ (by positivity)
  have := (zpow_lt_zpow_iff_right₀ (by norm_num)).1 hlt
  omega

/-- A finite positive value is found from its odd part and exponent. -/
theorem exactValue_of_oddForm (hs : f64Sign c = false) : exactValue m e = some c := by
  have hvalue : f64Value c = m * 2 ^ e := (f64Value_of_positive hs).trans h.value
  have hround : RoundsTo (m * 2 ^ e) (roundTo false m 1 e) := by
    simpa [signFactor] using roundsTo_roundTo false m one_pos e
  rw [exactValue, if_pos ⟨h.lt, h.ge, h.log2_le hc⟩, Option.some_inj]
  exact f64_ext_value ((roundTo_sign _ _ _ _).trans hs.symm) ((hround.value_eq hc hvalue).2.trans hvalue.symm)

end

/-! ## The power of a value (R346) -/

/-- A power with a fraction `z / 2^k` as its exponent, from the same fraction in any other form. -/
theorem pow_eq_zpow_of_fraction {c x : ℚ} (hc : 0 < c) (hx : 0 < x) {n z : ℤ} {d k : Nat} (h : c ^ 2 ^ d = x ^ n)
    (hz : z * 2 ^ d = n * 2 ^ k) : c ^ 2 ^ k = x ^ z := by
  refine (pow_left_inj₀ (by positivity) (by positivity) (pow_ne_zero d two_ne_zero)).1 ?_
  calc (c ^ 2 ^ k) ^ 2 ^ d = (c ^ 2 ^ d) ^ 2 ^ k := pow_right_comm _ _ _
    _ = x ^ (n * 2 ^ k) := by rw [h, zpow_mul]; norm_cast
    _ = x ^ (z * 2 ^ d) := by rw [hz]
    _ = (x ^ z) ^ 2 ^ d := by rw [zpow_mul]; norm_cast

/-- The power of an odd form. -/
theorem odd_zpow_mul (m : Nat) (e : ℤ) (N : Nat) : ((m : ℚ) * 2 ^ e) ^ N = (m ^ N : Nat) * 2 ^ (e * N) := by
  rw [mul_pow, zpow_mul, zpow_natCast]
  push_cast
  rfl

section
variable {m mc k N : Nat} {e ec : ℤ} (hm : Odd m) (hlt : m < 2 ^ 53) (hc : Odd mc) (hN : k = 0 ∨ Odd N)
include hm hlt hc hN

/-- The model's root and power, for a positive exponent `N / 2^k`. -/
theorem exactRoot_exactPower (hcl : mc < 2 ^ 53) (h : ((mc : ℚ) * 2 ^ ec) ^ 2 ^ k = (m * 2 ^ e) ^ N) :
    ∃ r i, exactRoot k m e = some (r, i) ∧ exactPower r i N false = some (mc, ec) := by
  rw [odd_zpow_mul, odd_zpow_mul] at h
  obtain ⟨hmant, hexp⟩ := odd_mul_two_zpow_inj hc.pow hm.pow h
  obtain ⟨r, i, hroot, hr, rfl, rfl⟩ := exactRoot_spec hm.pos hlt hN hmant (by exact_mod_cast hexp)
  exact ⟨r, i, hroot, exactPower_of_lt hr hcl i⟩

/-- The same for a negative exponent: only a power of two has an inverse that is dyadic. -/
theorem exactRoot_exactPower_inverse (hN0 : N ≠ 0) (h : ((mc : ℚ) * 2 ^ ec) ^ 2 ^ k * (m * 2 ^ e) ^ N = 1) :
    ∃ r i, exactRoot k m e = some (r, i) ∧ exactPower r i N true = some (mc, ec) := by
  rw [odd_zpow_mul, odd_zpow_mul] at h
  have hone : ((mc ^ 2 ^ k * m ^ N : Nat) : ℚ) * 2 ^ (ec * (2 ^ k : Nat) + e * N) = (1 : Nat) * 2 ^ (0 : ℤ) := by
    rw [zpow_add₀ (by norm_num), zpow_zero, mul_one, Nat.cast_one, ← h]
    push_cast
    ring
  obtain ⟨hmant, hexp⟩ := odd_mul_two_zpow_inj (hc.pow.mul hm.pow) odd_one hone
  obtain ⟨hmc, hmN⟩ := mul_eq_one.1 hmant
  obtain rfl := (Nat.pow_eq_one.1 hmc).resolve_right (by positivity)
  obtain rfl := (Nat.pow_eq_one.1 hmN).resolve_right hN0
  have hexp' : -ec * 2 ^ k = e * N := by
    push_cast at hexp
    linarith
  obtain ⟨r, i, hroot, -, hr, hi⟩ := exactRoot_spec (c := 1) one_pos hlt hN (by simp) hexp'
  obtain rfl := (Nat.pow_eq_one.1 hr).resolve_right hN0
  exact ⟨1, i, hroot, by rw [exactPower_one_inverse, hi, neg_neg]⟩

/-- The root and the power that the model takes for the exponent `N / 2^k` of either sign. -/
theorem exactRoot_exactPower_signed (hcl : mc < 2 ^ 53) (hN0 : N ≠ 0) (neg : Bool)
    (h : ((mc : ℚ) * 2 ^ ec) ^ 2 ^ k = (m * 2 ^ e) ^ withSign neg N) :
    ∃ r i, exactRoot k m e = some (r, i) ∧ exactPower r i N neg = some (mc, ec) := by
  cases neg
  · exact exactRoot_exactPower hm hlt hc hN hcl h
  · refine exactRoot_exactPower_inverse hm hlt hc hN hN0 ?_
    have hpos : (0 : ℚ) < m := Nat.cast_pos.2 hm.pos
    rw [h, withSign, if_pos rfl, zpow_neg, zpow_natCast, inv_mul_cancel₀ (by positivity)]

end

theorem exactPow_of_steps {x y : F64} {mx my r m : Nat} {ex ey i e : ℤ} (hx : OddForm x mx ex) (hy : OddForm y my ey)
    (hroot : exactRoot (-ey).toNat mx ex = some (r, i))
    (hpower : exactPower r i (my * 2 ^ ey.toNat) (f64Sign y) = some (m, e)) : exactPow x y = exactValue m e := by
  simp only [exactPow, hx.computed, hy.computed, f64Dyadic_neg, hroot, hpower]

/-- The model's exponent is a fraction over a power of two; its numerator is odd where the denominator is not 1. -/
theorem OddForm.value_eq_fraction {y : F64} {m : Nat} {e : ℤ} (h : OddForm y m e) :
    f64Value y = (withSign (f64Sign y) (m * 2 ^ e.toNat) : ℚ) / 2 ^ (-e).toNat := by
  have hscale := div_scaled m 1 e
  rw [one_mul, Nat.cast_one, div_one, ← h.value, abs_f64Value, Nat.cast_pow, Nat.cast_ofNat] at hscale
  rw [f64Value_eq_magValue, ← hscale, withSign_cast, mul_div_assoc]

theorem OddForm.numerator_odd {y : F64} {m : Nat} {e : ℤ} (h : OddForm y m e) :
    (-e).toNat = 0 ∨ Odd (m * 2 ^ e.toNat) := by
  rcases le_total 0 e with he | he
  · exact .inl (Int.toNat_of_nonpos (by omega))
  · exact .inr (by rw [Int.toNat_of_nonpos he, pow_zero, mul_one]; exact h.odd)

/-- A positive value with a power of 1 is 1. -/
theorem eq_one_of_pow_eq_one {c : F64} {d : Nat} (hsc : f64Sign c = false) (h : f64Value c ^ 2 ^ d = 1) :
    c = f64One := by
  have hvalue : f64Value c = 1 := by
    rw [f64Value_of_positive hsc] at h ⊢
    exact (pow_eq_one_iff_of_nonneg (abs_nonneg _) (by positivity)).1 h
  exact f64_ext_value (hsc.trans (by decide)) (hvalue.trans value_f64One.symm)

/-- The model finds the power that is a value. -/
theorem exactPow_eq {x y c : F64} {n : ℤ} {d : Nat} (hc : f64Finite c) (hsx : f64Sign x = false)
    (hsc : f64Sign c = false) (hzx : f64IsZero x = false) (hzc : f64IsZero c = false) (hzy : f64IsZero y = false)
    (hy : f64Value y = n / 2 ^ d) (h : f64Value c ^ 2 ^ d = f64Value x ^ n) : exactPow x y = some c := by
  obtain ⟨mx, ex, hox⟩ := exists_oddForm hzx
  obtain ⟨my, ey, hoy⟩ := exists_oddForm hzy
  obtain ⟨mc, ec, hoc⟩ := exists_oddForm hzc
  have hN0 : my * 2 ^ ey.toNat ≠ 0 := mul_ne_zero hoy.odd.pos.ne' (by positivity)
  have hfraction : withSign (f64Sign y) (my * 2 ^ ey.toNat) * 2 ^ d = n * 2 ^ (-ey).toNat := by
    rw [hoy.value_eq_fraction, div_eq_div_iff (by positivity) (by positivity)] at hy
    exact_mod_cast hy
  have hpow : ((mc : ℚ) * 2 ^ ec) ^ 2 ^ (-ey).toNat = (mx * 2 ^ ex) ^ withSign (f64Sign y) (my * 2 ^ ey.toNat) := by
    rw [f64Value_of_positive hsc, f64Value_of_positive hsx] at h
    rw [← hoc.value, ← hox.value]
    exact pow_eq_zpow_of_fraction (abs_pos.2 (f64Value_ne_zero hzc)) (abs_pos.2 (f64Value_ne_zero hzx)) h hfraction
  obtain ⟨r, i, hroot, hpower⟩ :=
    exactRoot_exactPower_signed hox.odd hox.lt hoc.odd hoy.numerator_odd hoc.lt hN0 (f64Sign y) hpow
  rw [exactPow_of_steps hox hoy hroot hpower, exactValue_of_oddForm hc hoc hsc]

/-- Settles O54: a power of 1 and one with the exponent 0 are 1; every other one is found by the model's search
(`exactPow_eq`), and is taken because it is finite. -/
theorem powerExact : Obligations.PowerExact := by
  intro h x y c n d hx hy hc hsx hsc hzx hzc hvalue hpow
  cases hzy : f64IsZero y
  · by_cases hx1 : x = f64One
    · rw [eq_one_of_pow_eq_one hsc (hpow.trans (by rw [hx1, value_f64One, one_zpow])), hx1, hostPower_of_one]
    · rw [hostPower_of_positive h hzy hy hx hzx hsx, powPositive_of_ne_one h hx1,
        generalPow_of_exact h (exactPow_eq hc hsx hsc hzx hzc hzy hvalue hpow), f64IsInf_of_finite hc,
        if_neg (by decide)]
  · have hn : n = 0 := by
      rw [f64Value_eq_zero_iff.2 hzy, eq_comm, div_eq_zero_iff] at hvalue
      exact_mod_cast hvalue.resolve_right (by positivity)
    rw [hostPower_of_isZero h hzy, eq_one_of_pow_eq_one hsc (hpow.trans (by rw [hn, zpow_zero]))]

end Sys2Proof.Machine
end

section
/-! PROOFS. The claims of 60_exceptions.md: a fault has no effect (R371), the fault of the lowest code is reported
(R385), and which commands raise which fault (R372). -/

namespace Sys2Proof.Machine

/-! ## A fault has no effect (R371) -/

/-- A command that ends with another status than OK has done nothing but respond. -/
theorem Effect.of_fault {s t : State} {G : Prop} (h : Effect s G (.next t)) {r : Response}
    (hr : t.response = some r) (hf : r.status ≠ .ok) : r.out = none ∧ t = s.respond r.status none := by
  generalize ht : Host.Outcome.next t = res at h
  cases h with
  | fault f _ =>
    obtain rfl := raise_eq_next.1 ht.symm
    cases hr
    exact ⟨rfl, rfl⟩
  | answer _ | writeInt _ _ _ | writeFlt _ _ _ | store _ _ _ =>
    obtain rfl := complete_eq_next.1 ht.symm
    cases hr
    exact absurd rfl hf

/-- Settles O13: a rejected word raises a fault, and a command that ends in one did nothing but respond
(`Effect.of_fault`). -/
theorem faultHasNoEffect : Obligations.FaultHasNoEffect := by
  intro s t w p rest r hp ht hr hf
  obtain ⟨G, he⟩ : ∃ G, Effect (takeCommand s rest p) G (.next t) := by
    cases hd : decode w with
    | error e =>
      have hstep : step s = raise (takeCommand s rest p) .illegalCommand := by simp only [step, hp, hd]
      exact ⟨True, ht ▸ hstep ▸ .fault _ (by decide)⟩
    | ok i => exact ⟨_, ht ▸ stepRunsDecodedCommand s w p rest i hp hd ▸ exec_effect i (takeCommand s rest p)⟩
  obtain ⟨hout, ht'⟩ := he.of_fault hr hf
  refine ⟨hout, ht'.trans ?_⟩
  rw [← hout]
  rfl

/-! ## The first of the conditions that are met (R385) -/

/-- `st` is the status to report where `C` says which fault conditions are met: the one of the lowest code, OK with
none. -/
def FirstMet (C : Status → Prop) (st : Status) : Prop :=
  (st = .ok ↔ ∀ f, ¬C f) ∧ (st ≠ .ok → C st ∧ ∀ f, C f → st.code.toNat ≤ f.code.toNat)

/-- The command ends in a response whose status is the one to report. -/
def RespondsFirst (C : Status → Prop) (res : Result) : Prop :=
  ∃ t r, res = .next t ∧ t.response = some r ∧ FirstMet C r.status

/-- The conditions that remain: each one met is of a fault in `L`, and the faults of `L` rise in code. -/
structure Within (C : Status → Prop) (L : List Status) : Prop where
  mem : ∀ f, C f → f ∈ L
  rising : (Status.ok :: L).Pairwise fun f g => f.code.toNat < g.code.toNat

section
variable {C : Status → Prop} {L : List Status} {f st : Status} {s : State}

theorem Within.tail (h : Within C (f :: L)) (hf : ¬C f) : Within C L where
  mem g hg := (List.mem_cons.1 (h.mem g hg)).resolve_left fun e => hf (e ▸ hg)
  rising := h.rising.sublist ((List.sublist_cons_self f L).cons_cons _)

theorem Within.firstMet_ok (h : Within C []) : FirstMet C .ok :=
  ⟨⟨fun _ f hf => List.not_mem_nil (h.mem f hf), fun _ => rfl⟩, fun h => absurd rfl h⟩

theorem Within.firstMet_head (h : Within C (f :: L)) (hf : C f) : FirstMet C f := by
  obtain ⟨hpos, hrest⟩ := List.pairwise_cons.1 h.rising
  have hne : f ≠ .ok := by
    rintro rfl
    exact lt_irrefl _ (hpos .ok List.mem_cons_self)
  refine ⟨⟨fun e => absurd e hne, fun e => absurd hf (e f)⟩, fun _ => ⟨hf, fun g hg => ?_⟩⟩
  obtain rfl | hg := List.mem_cons.1 (h.mem g hg)
  · exact le_rfl
  · exact ((List.pairwise_cons.1 hrest).1 g hg).le

/-- A check of the first remaining condition. -/
theorem Within.firstMet_ite {p : Prop} [Decidable p] (h : Within C (f :: L)) (hp : C f ↔ p)
    (hst : Within C L → FirstMet C st) : FirstMet C (if p then f else st) := by
  split <;> rename_i hc
  · exact h.firstMet_head (hp.2 hc)
  · exact hst (h.tail (mt hp.1 hc))

theorem respondsFirst_raise (h : FirstMet C f) : RespondsFirst C (raise s f) := ⟨_, _, rfl, rfl, h⟩

theorem respondsFirst_complete {out : Option Out} (h : FirstMet C .ok) : RespondsFirst C (complete s out) :=
  ⟨_, _, rfl, rfl, h⟩

/-- No condition remains: the command completes. -/
theorem Within.respondsFirst_complete {out : Option Out} (h : Within C []) : RespondsFirst C (complete s out) :=
  Machine.respondsFirst_complete h.firstMet_ok

/-- A command that goes on where the first remaining condition is not met, and faults otherwise. -/
theorem Within.respondsFirst_guard {p : Prop} [Decidable p] {res : Result} (h : Within C (f :: L)) (hp : C f ↔ ¬p)
    (hres : Within C L → RespondsFirst C res) : RespondsFirst C (if p then res else raise s f) := by
  split <;> rename_i hc
  · exact hres (h.tail fun hf => hp.1 hf hc)
  · exact respondsFirst_raise (h.firstMet_head (hp.2 hc))

theorem not_inRange_iff (addr w : Nat) : ¬inRange addr (byteLen w) = true ↔ 65536 < addr + (w + 7) / 8 := by
  rw [inRange, decide_eq_true_iff, not_le]
  exact Iff.rfl

theorem respondsFirst_storePattern {P w addr : Nat} {bo : ByteOrder} (h : Within C [.bufferRange])
    (hb : C .bufferRange ↔ 65536 < addr + (w + 7) / 8) : RespondsFirst C (storePattern s P w addr bo) :=
  h.respondsFirst_guard (hb.trans (not_inRange_iff addr w).symm) fun h => h.respondsFirst_complete

theorem respondsFirst_loadPattern {w addr : Nat} {bo : ByteOrder} {k : Nat → Result}
    (h : Within C (.bufferRange :: L)) (hb : C .bufferRange ↔ 65536 < addr + (w + 7) / 8)
    (hk : ∀ U, Within C L → RespondsFirst C (k U)) : RespondsFirst C (loadPattern s w addr bo k) :=
  h.respondsFirst_guard (hb.trans (not_inRange_iff addr w).symm) (hk _)

end

/-! ## The conditions that a command can meet -/

/-- The faults that a command can meet once its operands are there, by rising code (R377 to R383). -/
def lateFaults : Opcode → List Status
  | .inew | .icvt | .fnew => [.invalidWidth]
  | .ibit | .islice => [.indexOutOfRange]
  | .itob | .ftob => [.bufferRange]
  | .ifromb | .ffromb => [.invalidWidth, .bufferRange]
  | .idiv | .ifdiv | .imod | .fdiv => [.divideByZero]
  | .ishl | .ishr => [.negativeShift]
  | .ipow => [.negativeExponent]
  | .ffdiv | .fmod => [.divideByZero, .hostFloatFault]
  | .fpow => [.hostFloatFault]
  | _ => []

/-- The opcodes of the float unit. -/
def isFloatOpcode : Opcode → Bool
  | .fnew | .fset | .fneg | .fabs | .fpos | .fadd | .fsub | .fmul | .fdiv | .ffdiv | .fmod | .fpow | .feq | .fne | .flt
  | .fle | .fgt | .fge | .fread | .ftob | .ffromb => true
  | _ => false

/-- The model tests bit 6 of the opcode's number (30_encoding.md R107). -/
theorem isFloat_eq (i : Instr) : Instr.isFloat i = isFloatOpcode i.opcode := by
  unfold Instr.isFloat
  cases i.opcode <;> rfl

theorem lateFaults_rising (op : Opcode) : (Status.ok :: .illegalCommand :: .unwritten :: .typeMismatch ::
    lateFaults op).Pairwise fun f g => f.code.toNat < g.code.toNat := by
  cases op <;> decide

section
variable {i : Instr} {s : State} {L : List Status}

/-- A condition that is met is that of an operand, or of a fault of the command's opcode. -/
theorem faultCondition_mem {f : Status} (h : FaultCondition i s f) :
    f ∈ .illegalCommand :: .unwritten :: .typeMismatch :: lateFaults i.opcode := by
  simp only [List.mem_cons]
  cases f
  case ok => exact h.elim
  case illegalCommand | unwritten | typeMismatch => simp
  case invalidWidth =>
    obtain ⟨_, _, rfl⟩ | ⟨_, _, _, rfl⟩ | ⟨_, _, _, _, rfl⟩ | ⟨_, _, _, rfl, _⟩ | ⟨_, _, _, _, _, rfl, _⟩ := h <;>
      simp [Instr.opcode, lateFaults]
  case indexOutOfRange =>
    obtain ⟨_, _, _, rfl, _⟩ | ⟨_, _, _, _, _, rfl, _⟩ := h <;> simp [Instr.opcode, lateFaults]
  case bufferRange =>
    obtain ⟨_, _, _, _, rfl, _⟩ | ⟨_, _, _, _, rfl, _⟩ | ⟨_, _, _, _, _, rfl, _⟩ | ⟨_, _, _, _, _, rfl, _⟩ := h <;>
      simp [Instr.opcode, lateFaults]
  case divideByZero =>
    obtain ⟨hop, _⟩ | ⟨hop, _⟩ := h
    all_goals
      simp only [List.mem_cons, List.not_mem_nil, or_false] at hop
      obtain hop | hop | hop := hop <;> simp [hop, lateFaults]
  case negativeShift =>
    obtain ⟨hop, _⟩ := h
    simp only [List.mem_cons, List.not_mem_nil, or_false] at hop
    obtain hop | hop := hop <;> simp [hop, lateFaults]
  case negativeExponent =>
    obtain ⟨hop, _⟩ := h
    simp [hop, lateFaults]
  case hostFloatFault =>
    obtain ⟨_, _, _, ⟨hop, _⟩ | ⟨hop, _⟩ | ⟨hop, _⟩⟩ := h <;> simp [hop, lateFaults]

theorem mem_lateFaults {f : Status} (h : FaultCondition i s f)
    (hf : f ∉ [Status.illegalCommand, .unwritten, .typeMismatch]) : f ∈ lateFaults i.opcode :=
  (List.mem_append (s := [.illegalCommand, .unwritten, .typeMismatch]).1 (faultCondition_mem h)).resolve_left hf

theorem within_faults (i : Instr) (s : State) : Within (FaultCondition i s)
    (.illegalCommand :: .unwritten :: .typeMismatch :: lateFaults i.opcode) :=
  ⟨fun _ h => faultCondition_mem h, lateFaults_rising _⟩

/-- A command that takes nothing on HOST_IN. -/
theorem within_operandFaults (hh : i.hostInKind = .none) :
    Within (FaultCondition i s) (.unwritten :: .typeMismatch :: lateFaults i.opcode) :=
  (within_faults i s).tail (by simp [FaultCondition, hh])

/-- A command that reads no register. -/
theorem Within.of_no_operands (h : Within (FaultCondition i s) (.unwritten :: .typeMismatch :: L))
    (ho : Instr.operands i = []) : Within (FaultCondition i s) L :=
  (h.tail (by simp [FaultCondition, ho])).tail (by simp [FaultCondition, ho])

/-! ## The operand fetches report the first condition (R374 to R376, R385) -/

theorem respondsFirst_withHostInt {k : Int → Result} (hh : i.hostInKind = .integer)
    (hk : ∀ x, Within (FaultCondition i s) (.unwritten :: .typeMismatch :: lateFaults i.opcode) →
      RespondsFirst (FaultCondition i s) (k x)) : RespondsFirst (FaultCondition i s) (withHostInt s k) := by
  have hc : FaultCondition i s .illegalCommand ↔ ∀ x, s.hostIn ≠ some (.int x) := by simp [FaultCondition, hh]
  by_cases hm : ∀ x, s.hostIn ≠ some (.int x)
  · rw [withHostInt_missing hm]
    exact respondsFirst_raise ((within_faults i s).firstMet_head (hc.2 hm))
  · obtain ⟨x, hx⟩ : ∃ x, s.hostIn = some (.int x) := by simpa using hm
    rw [withHostInt_int hx]
    exact hk x ((within_faults i s).tail (mt hc.1 hm))

theorem respondsFirst_withHostF64 {k : F64 → Result} (hh : i.hostInKind = .pattern)
    (hk : ∀ b, Within (FaultCondition i s) (.unwritten :: .typeMismatch :: lateFaults i.opcode) →
      RespondsFirst (FaultCondition i s) (k b)) : RespondsFirst (FaultCondition i s) (withHostF64 s k) := by
  have hc : FaultCondition i s .illegalCommand ↔ ∀ b, s.hostIn ≠ some (.f64 b) := by simp [FaultCondition, hh]
  by_cases hm : ∀ b, s.hostIn ≠ some (.f64 b)
  · rw [withHostF64_missing hm]
    exact respondsFirst_raise ((within_faults i s).firstMet_head (hc.2 hm))
  · obtain ⟨b, hb⟩ : ∃ b, s.hostIn = some (.f64 b) := by simpa using hm
    rw [withHostF64_f64 hb]
    exact hk b ((within_faults i s).tail (mt hc.1 hm))

theorem exists_flt_of_not_int {p q : Reg} (hp : p ≠ .unwritten) (hq : q ≠ .unwritten)
    (h : ∀ a b, p = .int a → q = .int b → False) : (∃ x, p = .flt x) ∨ ∃ x, q = .flt x :=
  match p, q with
  | .unwritten, _ => absurd rfl hp
  | _, .unwritten => absurd rfl hq
  | .flt x, _ => .inl ⟨x, rfl⟩
  | _, .flt x => .inr ⟨x, rfl⟩
  | .int a, .int b => (h a b rfl rfl).elim

theorem exists_int_of_not_flt {p q : Reg} (hp : p ≠ .unwritten) (hq : q ≠ .unwritten)
    (h : ∀ x y, p = .flt x → q = .flt y → False) : (∃ a, p = .int a) ∨ ∃ a, q = .int a :=
  match p, q with
  | .unwritten, _ => absurd rfl hp
  | _, .unwritten => absurd rfl hq
  | .int a, _ => .inl ⟨a, rfl⟩
  | _, .int a => .inr ⟨a, rfl⟩
  | .flt x, .flt y => (h x y rfl rfl).elim

section
variable {j j' : RegIdx} (h : Within (FaultCondition i s) (.unwritten :: .typeMismatch :: L))
include h

theorem respondsFirst_withInt {k : IntC → Result} (ho : Instr.operands i = [j]) (hf : isFloatOpcode i.opcode = false)
    (hk : ∀ a, s.reg j = .int a → Within (FaultCondition i s) L → RespondsFirst (FaultCondition i s) (k a)) :
    RespondsFirst (FaultCondition i s) (withInt s j k) := by
  have hu : FaultCondition i s .unwritten ↔ s.reg j = .unwritten := by simp [FaultCondition, ho]
  have ht : FaultCondition i s .typeMismatch ↔ ∃ x, s.reg j = .flt x := by simp [FaultCondition, ho, isFloat_eq, hf]
  unfold withInt
  split <;> rename_i hj
  · exact respondsFirst_raise (h.firstMet_head (hu.2 hj))
  · exact respondsFirst_raise ((h.tail (by simp [hu, hj])).firstMet_head (ht.2 ⟨_, hj⟩))
  · exact hk _ hj ((h.tail (by simp [hu, hj])).tail (by simp [ht, hj]))

theorem respondsFirst_withFlt {k : FltC → Result} (ho : Instr.operands i = [j]) (hf : isFloatOpcode i.opcode = true)
    (hk : ∀ x, s.reg j = .flt x → Within (FaultCondition i s) L → RespondsFirst (FaultCondition i s) (k x)) :
    RespondsFirst (FaultCondition i s) (withFlt s j k) := by
  have hu : FaultCondition i s .unwritten ↔ s.reg j = .unwritten := by simp [FaultCondition, ho]
  have ht : FaultCondition i s .typeMismatch ↔ ∃ a, s.reg j = .int a := by simp [FaultCondition, ho, isFloat_eq, hf]
  unfold withFlt
  split <;> rename_i hj
  · exact respondsFirst_raise (h.firstMet_head (hu.2 hj))
  · exact respondsFirst_raise ((h.tail (by simp [hu, hj])).firstMet_head (ht.2 ⟨_, hj⟩))
  · exact hk _ hj ((h.tail (by simp [hu, hj])).tail (by simp [ht, hj]))

theorem respondsFirst_withInt2 {k : IntC → IntC → Result} (ho : Instr.operands i = [j, j'])
    (hf : isFloatOpcode i.opcode = false) (hk : ∀ a b, (Instr.operands i).map s.reg = [.int a, .int b] →
      Within (FaultCondition i s) L → RespondsFirst (FaultCondition i s) (k a b)) :
    RespondsFirst (FaultCondition i s) (withInt2 s j j' k) := by
  have hu : FaultCondition i s .unwritten ↔ s.reg j = .unwritten ∨ s.reg j' = .unwritten := by
    simp [FaultCondition, ho]
  have ht : FaultCondition i s .typeMismatch ↔ (∃ x, s.reg j = .flt x) ∨ ∃ x, s.reg j' = .flt x := by
    simp [FaultCondition, ho, isFloat_eq, hf]
  unfold withInt2
  split
  · rename_i hj
    exact respondsFirst_raise (h.firstMet_head (hu.2 (.inl hj)))
  · rename_i hj' _
    exact respondsFirst_raise (h.firstMet_head (hu.2 (.inr hj')))
  · rename_i a b hj hj'
    exact hk a b (by simp [ho, hj, hj']) ((h.tail (by simp [hu, hj, hj'])).tail (by simp [ht, hj, hj']))
  · rename_i hj hj' hint
    exact respondsFirst_raise ((h.tail fun e => (hu.1 e).elim hj hj').firstMet_head
      (ht.2 (exists_flt_of_not_int hj hj' hint)))

theorem respondsFirst_withFlt2 {k : FltC → FltC → Result} (ho : Instr.operands i = [j, j'])
    (hf : isFloatOpcode i.opcode = true) (hk : ∀ x y, (Instr.operands i).map s.reg = [.flt x, .flt y] →
      Within (FaultCondition i s) L → RespondsFirst (FaultCondition i s) (k x y)) :
    RespondsFirst (FaultCondition i s) (withFlt2 s j j' k) := by
  have hu : FaultCondition i s .unwritten ↔ s.reg j = .unwritten ∨ s.reg j' = .unwritten := by
    simp [FaultCondition, ho]
  have ht : FaultCondition i s .typeMismatch ↔ (∃ a, s.reg j = .int a) ∨ ∃ a, s.reg j' = .int a := by
    simp [FaultCondition, ho, isFloat_eq, hf]
  unfold withFlt2
  split
  · rename_i hj
    exact respondsFirst_raise (h.firstMet_head (hu.2 (.inl hj)))
  · rename_i hj' _
    exact respondsFirst_raise (h.firstMet_head (hu.2 (.inr hj')))
  · rename_i x y hj hj'
    exact hk x y (by simp [ho, hj, hj']) ((h.tail (by simp [hu, hj, hj'])).tail (by simp [ht, hj, hj']))
  · rename_i hj hj' hflt
    exact respondsFirst_raise ((h.tail fun e => (hu.1 e).elim hj hj').firstMet_head
      (ht.2 (exists_int_of_not_flt hj hj' hflt)))

end

end

/-! ## What the results of two operands report (R380 to R383) -/

/-- The status that a result of two operands ends in. -/
def resultStatus {α : Type} : Except Status α → Status
  | .ok _ => .ok
  | .error e => e

theorem resultStatus_ite {α : Type} {p : Prop} [Decidable p] (e : Status) (r : α) :
    resultStatus (if p then .error e else .ok r) = if p then e else .ok := by
  split <;> rfl

theorem resultStatus_promoted (op : Int → Int → Except Status Int) (a b : IntC) :
    resultStatus (promoted op a b) = resultStatus (op (promA a b) (promB a b)) := by
  unfold promoted
  cases op (promA a b) (promB a b) <;> rfl

theorem resultStatus_hostValue (d : NanDraw) (r : Option F64) :
    resultStatus (hostValue d r) = if r = none then .hostFloatFault else .ok := by
  cases r <;> rfl

theorem resultStatus_guardZero (d : NanDraw) (op : F64 → F64 → Option F64) (x y : F64) :
    resultStatus (guardZero d op x y) =
      if f64IsZero y = true then .divideByZero else if op x y = none then .hostFloatFault else .ok := by
  unfold guardZero
  split
  · rfl
  · exact resultStatus_hostValue d _

section
variable {i : Instr} {s : State} {rd rs1 rs2 : RegIdx} (hh : i.hostInKind = .none)
  (ho : Instr.operands i = [rs1, rs2])
include hh ho

section
variable {f : IntC → IntC → Except Status IntC} (hf : isFloatOpcode i.opcode = false)
  (hres : ∀ a b, (Instr.operands i).map s.reg = [.int a, .int b] →
    Within (FaultCondition i s) (lateFaults i.opcode) → FirstMet (FaultCondition i s) (resultStatus (f a b)))
include hf hres

theorem respondsFirst_intCopy : RespondsFirst (FaultCondition i s) (intCopy f rd rs1 rs2 s) :=
  respondsFirst_withInt2 (within_operandFaults hh) ho hf fun a b hmap hw => by
    have h := hres a b hmap hw
    revert h
    cases f a b
    exacts [respondsFirst_raise, respondsFirst_complete]

theorem respondsFirst_intInPlace : RespondsFirst (FaultCondition i s) (intInPlace f rs1 rs2 s) :=
  respondsFirst_withInt2 (within_operandFaults hh) ho hf fun a b hmap hw => by
    have h := hres a b hmap hw
    revert h
    cases f a b
    exacts [respondsFirst_raise, respondsFirst_complete]

end

theorem respondsFirst_intCompare (hf : isFloatOpcode i.opcode = false) (hl : lateFaults i.opcode = [])
    (rel : Int → Int → Bool) : RespondsFirst (FaultCondition i s) (intCompare rel rs1 rs2 s) :=
  respondsFirst_withInt2 (within_operandFaults hh) ho hf fun _ _ _ hw => (hl ▸ hw).respondsFirst_complete

theorem respondsFirst_fltCompare (hf : isFloatOpcode i.opcode = true) (hl : lateFaults i.opcode = [])
    (rel : F64 → F64 → Bool) : RespondsFirst (FaultCondition i s) (fltCompare rel rs1 rs2 s) :=
  respondsFirst_withFlt2 (within_operandFaults hh) ho hf fun _ _ _ hw => (hl ▸ hw).respondsFirst_complete

section
variable {f : F64 → F64 → Except Status F64} (hf : isFloatOpcode i.opcode = true)
  (hres : ∀ x y, (Instr.operands i).map s.reg = [.flt x, .flt y] →
    Within (FaultCondition i s) (lateFaults i.opcode) →
    FirstMet (FaultCondition i s) (resultStatus (f (fdec x) (fdec y))))
include hf hres

theorem respondsFirst_fltCopy : RespondsFirst (FaultCondition i s) (fltCopy f rd rs1 rs2 s) :=
  respondsFirst_withFlt2 (within_operandFaults hh) ho hf fun x y hmap hw => by
    have h := hres x y hmap hw
    revert h
    cases f (fdec x) (fdec y)
    exacts [respondsFirst_raise, respondsFirst_complete]

theorem respondsFirst_fltInPlace : RespondsFirst (FaultCondition i s) (fltInPlace f rs1 rs2 s) :=
  respondsFirst_withFlt2 (within_operandFaults hh) ho hf fun x y hmap hw => by
    have h := hres x y hmap hw
    revert h
    cases f (fdec x) (fdec y)
    exacts [respondsFirst_raise, respondsFirst_complete]

end

end

section
variable {i : Instr} {s : State} {a b : IntC} (hmap : (Instr.operands i).map s.reg = [.int a, .int b])
include hmap

theorem divideByZero_iff_int (hop : i.opcode ∈ [.idiv, .ifdiv, .imod]) :
    FaultCondition i s .divideByZero ↔ promB a b = 0 := by
  simp [FaultCondition, hmap, hop, promB, promN, promS]

theorem firstMet_guardDivisor (op : Int → Int → Int) (hop : i.opcode ∈ [.idiv, .ifdiv, .imod])
    (h : Within (FaultCondition i s) [.divideByZero]) :
    FirstMet (FaultCondition i s) (resultStatus (promoted (guardDivisor op) a b)) := by
  rw [resultStatus_promoted, guardDivisor, resultStatus_ite]
  exact h.firstMet_ite (divideByZero_iff_int hmap hop) (·.firstMet_ok)

theorem firstMet_ipowResult (hop : i.opcode = .ipow) (h : Within (FaultCondition i s) [.negativeExponent]) :
    FirstMet (FaultCondition i s) (resultStatus (ipowResult a b)) := by
  have hc : FaultCondition i s .negativeExponent ↔ promB a b < 0 := by
    simp [FaultCondition, hmap, hop, promB, promN, promS]
  rw [ipowResult, resultStatus_promoted, resultStatus_ite]
  exact h.firstMet_ite hc (·.firstMet_ok)

theorem negativeShift_iff (hop : i.opcode ∈ [.ishl, .ishr]) : FaultCondition i s .negativeShift ↔ b.v < 0 := by
  simp [FaultCondition, hmap, hop]

theorem firstMet_ishlResult (hop : i.opcode = .ishl) (h : Within (FaultCondition i s) [.negativeShift]) :
    FirstMet (FaultCondition i s) (resultStatus (ishlResult a b)) := by
  rw [ishlResult, resultStatus_ite]
  exact h.firstMet_ite (negativeShift_iff hmap (by simp [hop])) (·.firstMet_ok)

theorem firstMet_ishrResult (hop : i.opcode = .ishr) (h : Within (FaultCondition i s) [.negativeShift]) :
    FirstMet (FaultCondition i s) (resultStatus (ishrResult a b)) := by
  rw [ishrResult, resultStatus_ite]
  exact h.firstMet_ite (negativeShift_iff hmap (by simp [hop])) (·.firstMet_ok)

end

section
variable {i : Instr} {s : State} {x y : FltC} (hmap : (Instr.operands i).map s.reg = [.flt x, .flt y])
include hmap

theorem divideByZero_iff_flt (hop : i.opcode ∈ [.fdiv, .ffdiv, .fmod]) :
    FaultCondition i s .divideByZero ↔ f64IsZero (fdec y) = true := by
  rw [f64IsZero_iff]
  simp [FaultCondition, hmap, hop]

theorem firstMet_fdivValue (hop : i.opcode = .fdiv) (h : Within (FaultCondition i s) [.divideByZero]) :
    FirstMet (FaultCondition i s) (resultStatus (fdivValue s.config (fdec x) (fdec y))) := by
  rw [fdivValue, resultStatus_guardZero, if_neg (Option.some_ne_none _)]
  exact h.firstMet_ite (divideByZero_iff_flt hmap (by simp [hop])) (·.firstMet_ok)

theorem firstMet_ffdivValue (hop : i.opcode = .ffdiv)
    (h : Within (FaultCondition i s) [.divideByZero, .hostFloatFault]) :
    FirstMet (FaultCondition i s) (resultStatus (ffdivValue s.config (fdec x) (fdec y))) := by
  have hc : FaultCondition i s .hostFloatFault ↔ s.host.floordiv (fdec x) (fdec y) = none := by
    simp [FaultCondition, hmap, hop]
  rw [ffdivValue, resultStatus_guardZero]
  exact h.firstMet_ite (divideByZero_iff_flt hmap (by simp [hop])) fun h => h.firstMet_ite hc (·.firstMet_ok)

theorem firstMet_fmodValue (hop : i.opcode = .fmod)
    (h : Within (FaultCondition i s) [.divideByZero, .hostFloatFault]) :
    FirstMet (FaultCondition i s) (resultStatus (fmodValue s.config (fdec x) (fdec y))) := by
  have hc : FaultCondition i s .hostFloatFault ↔ s.host.mod (fdec x) (fdec y) = none := by
    simp [FaultCondition, hmap, hop]
  rw [fmodValue, resultStatus_guardZero]
  exact h.firstMet_ite (divideByZero_iff_flt hmap (by simp [hop])) fun h => h.firstMet_ite hc (·.firstMet_ok)

theorem firstMet_fpowValue (hop : i.opcode = .fpow) (h : Within (FaultCondition i s) [.hostFloatFault]) :
    FirstMet (FaultCondition i s) (resultStatus (fpowValue s.config (fdec x) (fdec y))) := by
  have hc : FaultCondition i s .hostFloatFault ↔ hostPower s.host (fdec x) (fdec y) = none := by
    simp [FaultCondition, hmap, hop]
  rw [fpowValue, resultStatus_hostValue]
  exact h.firstMet_ite hc (·.firstMet_ok)

end

/-! ## Every command -/

theorem widthOk_eq_false_iff (w : Nat) : widthOk w = false ↔ w = 0 := by
  rw [Bool.eq_false_iff, ne_eq, widthOk_iff]
  omega

theorem floatWidthsOk_eq_false_iff (e m : Nat) :
    floatWidthsOk e m = false ↔ e = 0 ∨ 11 < e ∨ m = 0 ∨ 52 < m := by
  rw [Bool.eq_false_iff, ne_eq, floatWidthsOk_iff]
  omega

/-- EVERY COMMAND reports the first of the fault conditions that are met: its checks come in the order of the codes. -/
theorem exec_respondsFirst (i : Instr) (s : State) : RespondsFirst (FaultCondition i s) (exec i s) := by
  cases i
  case inew rd sg w =>
    exact respondsFirst_withHostInt rfl fun x h => (h.of_no_operands rfl).respondsFirst_guard
      (by simp [FaultCondition, widthOk_eq_false_iff]) fun h => h.respondsFirst_complete
  case iset rd =>
    exact respondsFirst_withHostInt rfl fun x h => respondsFirst_withInt h rfl rfl fun c _ h => h.respondsFirst_complete
  case fnew rd ew mw =>
    exact respondsFirst_withHostF64 rfl fun b h => (h.of_no_operands rfl).respondsFirst_guard
      (by simp [FaultCondition, floatWidthsOk_eq_false_iff]) fun h => h.respondsFirst_complete
  case fset rd =>
    exact respondsFirst_withHostF64 rfl fun b h => respondsFirst_withFlt h rfl rfl fun x _ h => h.respondsFirst_complete
  case icvt rd rs1 sg w =>
    exact respondsFirst_withInt (within_operandFaults rfl) rfl rfl fun c _ h => h.respondsFirst_guard
      (by simp [FaultCondition, widthOk_eq_false_iff]) fun h => h.respondsFirst_complete
  case ineg | iabs | inot | iread | imin | imax =>
    exact respondsFirst_withInt (within_operandFaults rfl) rfl rfl fun a _ h => h.respondsFirst_complete
  case fneg | fabs | fpos | fread =>
    exact respondsFirst_withFlt (within_operandFaults rfl) rfl rfl fun x _ h => h.respondsFirst_complete
  case ibit rs1 index =>
    exact respondsFirst_withInt (within_operandFaults rfl) rfl rfl fun a ha h => h.respondsFirst_guard
      (by simp [FaultCondition, ha]) fun h => h.respondsFirst_complete
  case islice rd rs1 start stop =>
    exact respondsFirst_withInt (within_operandFaults rfl) rfl rfl fun a ha h => h.respondsFirst_guard
      (by simp [FaultCondition, ha]; omega) fun h => h.respondsFirst_complete
  case itob rs1 bo addr =>
    exact respondsFirst_withInt (within_operandFaults rfl) rfl rfl fun a ha h =>
      respondsFirst_storePattern h (by simp [FaultCondition, ha])
  case ftob rs1 bo addr =>
    exact respondsFirst_withFlt (within_operandFaults rfl) rfl rfl fun x hx h =>
      respondsFirst_storePattern h (by simp [FaultCondition, hx, FltC.width])
  case ifromb rd sg bo w addr =>
    exact ((within_operandFaults rfl).of_no_operands rfl).respondsFirst_guard
      (by simp [FaultCondition, widthOk_eq_false_iff]) fun h =>
      respondsFirst_loadPattern h (by simp [FaultCondition]) fun U h => h.respondsFirst_complete
  case ffromb rd bo ew mw addr =>
    exact ((within_operandFaults rfl).of_no_operands rfl).respondsFirst_guard
      (by simp [FaultCondition, floatWidthsOk_eq_false_iff]) fun h =>
      respondsFirst_loadPattern h (by simp [FaultCondition]) fun U h => h.respondsFirst_complete
  case ieq | ine | ilt | ile | igt | ige => rw [exec]; exact respondsFirst_intCompare rfl rfl rfl rfl _
  case feq | fne | flt | fle | fgt | fge => rw [exec]; exact respondsFirst_fltCompare rfl rfl rfl rfl _
  case iadd | isub | imul | iand | ior | ixor =>
    rw [exec]; exact respondsFirst_intCopy rfl rfl rfl fun a b _ h => h.firstMet_ok
  case iaddIp | isubIp | imulIp | iandIp | iorIp | ixorIp =>
    rw [exec]; exact respondsFirst_intInPlace rfl rfl rfl fun a b _ h => h.firstMet_ok
  case idiv | ifdiv | imod =>
    rw [exec]
    exact respondsFirst_intCopy rfl rfl rfl fun a b hmap h =>
      firstMet_guardDivisor hmap _ (by simp [Instr.opcode]) h
  case idivIp | ifdivIp | imodIp =>
    rw [exec]
    exact respondsFirst_intInPlace rfl rfl rfl fun a b hmap h =>
      firstMet_guardDivisor hmap _ (by simp [Instr.opcode]) h
  case ipow => rw [exec]; exact respondsFirst_intCopy rfl rfl rfl fun a b hmap h => firstMet_ipowResult hmap rfl h
  case ipowIp => rw [exec]; exact respondsFirst_intInPlace rfl rfl rfl fun a b hmap h => firstMet_ipowResult hmap rfl h
  case ishl => rw [exec]; exact respondsFirst_intCopy rfl rfl rfl fun a b hmap h => firstMet_ishlResult hmap rfl h
  case ishlIp => rw [exec]; exact respondsFirst_intInPlace rfl rfl rfl fun a b hmap h => firstMet_ishlResult hmap rfl h
  case ishr => rw [exec]; exact respondsFirst_intCopy rfl rfl rfl fun a b hmap h => firstMet_ishrResult hmap rfl h
  case ishrIp => rw [exec]; exact respondsFirst_intInPlace rfl rfl rfl fun a b hmap h => firstMet_ishrResult hmap rfl h
  case fadd | fsub | fmul => rw [exec]; exact respondsFirst_fltCopy rfl rfl rfl fun x y _ h => h.firstMet_ok
  case faddIp | fsubIp | fmulIp => rw [exec]; exact respondsFirst_fltInPlace rfl rfl rfl fun x y _ h => h.firstMet_ok
  case fdiv => rw [exec]; exact respondsFirst_fltCopy rfl rfl rfl fun x y hmap h => firstMet_fdivValue hmap rfl h
  case fdivIp => rw [exec]; exact respondsFirst_fltInPlace rfl rfl rfl fun x y hmap h => firstMet_fdivValue hmap rfl h
  case ffdiv => rw [exec]; exact respondsFirst_fltCopy rfl rfl rfl fun x y hmap h => firstMet_ffdivValue hmap rfl h
  case ffdivIp => rw [exec]; exact respondsFirst_fltInPlace rfl rfl rfl fun x y hmap h => firstMet_ffdivValue hmap rfl h
  case fmod => rw [exec]; exact respondsFirst_fltCopy rfl rfl rfl fun x y hmap h => firstMet_fmodValue hmap rfl h
  case fmodIp => rw [exec]; exact respondsFirst_fltInPlace rfl rfl rfl fun x y hmap h => firstMet_fmodValue hmap rfl h
  case fpow => rw [exec]; exact respondsFirst_fltCopy rfl rfl rfl fun x y hmap h => firstMet_fpowValue hmap rfl h
  case fpowIp => rw [exec]; exact respondsFirst_fltInPlace rfl rfl rfl fun x y hmap h => firstMet_fpowValue hmap rfl h

/-- Settles O14: the status to report is the statement's (`FirstMet`), and every command reports it. -/
theorem faultPriority : Obligations.FaultPriority := exec_respondsFirst

/-! ## Which commands raise each fault (R372) -/

/-- The faults of an opcode, read the other way. -/
theorem opcode_of_mem_lateFaults (op : Opcode) :
    (.invalidWidth ∈ lateFaults op → op ∈ [.inew, .icvt, .ifromb, .fnew, .ffromb]) ∧
    (.indexOutOfRange ∈ lateFaults op → op ∈ [.ibit, .islice]) ∧
    (.bufferRange ∈ lateFaults op → op ∈ [.itob, .ifromb, .ftob, .ffromb]) ∧
    (.divideByZero ∈ lateFaults op → op ∈ [.idiv, .ifdiv, .imod, .fdiv, .ffdiv, .fmod]) ∧
    (.negativeShift ∈ lateFaults op → op ∈ [.ishl, .ishr]) ∧
    (.negativeExponent ∈ lateFaults op → op = .ipow) := by
  cases op <;> decide

theorem operands_ne_nil {i : Instr} {p : RegIdx → Prop} (h : ∃ r ∈ Instr.operands i, p r) :
    Instr.operands i ≠ [] :=
  have ⟨_, hr, _⟩ := h
  List.ne_nil_of_mem hr

/-- The default host fails in its power alone (R383). -/
theorem fpow_of_hostFloatFault {i : Instr} {s : State} (hh : s.config.host = .reference)
    (h : FaultCondition i s .hostFloatFault) : i.opcode = .fpow := by
  obtain ⟨x, y, -, ⟨hop, -⟩ | ⟨-, hnone⟩ | ⟨-, hnone⟩⟩ := h
  · exact hop
  · rw [host_eq_referenceHost hh] at hnone
    cases hnone
  · rw [host_eq_referenceHost hh] at hnone
    cases hnone

/-- Settles O15: a command reports a condition that it meets (`exec_respondsFirst`), and the conditions name the
commands. -/
theorem statusCodes : Obligations.StatusCodes := by
  refine ⟨rfl, fun f => by cases f <;> decide, fun i s t r ht hr => ?_⟩
  have hc : ∀ f, f ≠ .ok → r.status = f → FaultCondition i s f := by
    obtain ⟨t', r', ht', hr', -, hmet⟩ := exec_respondsFirst i s
    cases ht.symm.trans ht'
    cases hr.symm.trans hr'
    rintro f hf rfl
    exact (hmet hf).1
  have hlate : ∀ f, f ∉ [Status.ok, .illegalCommand, .unwritten, .typeMismatch] → r.status = f →
      f ∈ lateFaults i.opcode := fun f hf hs =>
    mem_lateFaults (hc f (List.ne_of_not_mem_cons hf) hs) (List.not_mem_of_not_mem_cons hf)
  obtain ⟨hwidth, hindex, hrange, hzero, hshift, hexponent⟩ := opcode_of_mem_lateFaults i.opcode
  exact ⟨fun h => operands_ne_nil (hc _ (by decide) h), fun h => operands_ne_nil (hc _ (by decide) h),
    fun h => hwidth (hlate _ (by decide) h), fun h => hindex (hlate _ (by decide) h),
    fun h => hrange (hlate _ (by decide) h), fun h => hzero (hlate _ (by decide) h),
    fun h => hshift (hlate _ (by decide) h), fun h => hexponent (hlate _ (by decide) h),
    fun h hh => fpow_of_hostFloatFault hh (hc _ (by decide) h)⟩

end Sys2Proof.Machine
end
